-- ==== Sys2Proof/Word.lean ====
section
/-! DEFINITION. The words of the block: the stored byte (DW = 8, rule R5), the 16-bit operand and result (CW = 16,
rules R5 and R54), the 48-bit command word (rule R52) and the 24-bit response word (rule R60). -/

namespace Sys2Proof

/-- One stored element, one payload byte, one received byte: `DW` = 8 bits (rule R5). -/
abbrev Byte := BitVec 8

/-- An `idx` or `len` operand, or a `val` result: `CW` = 16 bits (rules R5, R54, R60). -/
abbrev Word16 := BitVec 16

/-- One command word (rule R52). -/
abbrev CommandWord := BitVec 48

/-- One response word (rule R60). -/
abbrev ResponseWord := BitVec 24

end Sys2Proof
end

