-- ==== Sys2Proof/Syntax.lean ====
section
/-! DEFINITION. The 33 commands of rule R62, one constructor per row of spec/opcode_table.json, in the table's
order. A command and its payload are one abstract command (rule R51); operands are unsigned fields (rule R54). -/

namespace Sys2Proof

/-- The unit select `u` of a FIFO-unit command (rules R2, R58): `IN` = 0, `OUT` = 1. -/
inductive UnitSel where
  | inbound   -- unit IN, u = 0
  | outbound  -- unit OUT, u = 1
  deriving DecidableEq, Repr

/-- A command of the block with its operands (rules R62 and R65). -/
inductive Instr where
  -- family 40, life cycle and status
  | init (u : UnitSel) (size : Word16) (sv : Bool)
  | clear (u : UnitSel)
  | isempty (u : UnitSel)
  | totalw (u : UnitSel)
  | totalr (u : UnitSel)
  | cap (u : UnitSel)
  | islocked (u : UnitSel)
  -- family 41, write
  | writeb (u : UnitSel) (v : Byte)
  | write (u : UnitSel) (len : Word16) (payload : List Byte)
  | writestr (u : UnitSel) (len : Word16) (payload : List Byte)
  -- family 42, read and peek
  | read (u : UnitSel) (len : Word16)
  | readb (u : UnitSel)
  | peekb (u : UnitSel)
  | peekat (u : UnitSel) (idx : Word16)
  -- family 43, delete and update
  | delete (u : UnitSel) (len : Word16)
  | deleteb (u : UnitSel)
  | update (u : UnitSel) (len : Word16) (payload : List Byte)
  | updateat (u : UnitSel) (idx : Word16) (len : Word16) (payload : List Byte)
  | updateb (u : UnitSel) (v : Byte)
  | updatebat (u : UnitSel) (idx : Word16) (v : Byte)
  -- family 44, transactions
  | lock (u : UnitSel)
  | unlock (u : UnitSel)
  | discard (u : UnitSel)
  -- family 45, the channel
  | chInit (sizeIn : Word16) (svIn : Bool) (sizeOut : Word16) (svOut : Bool)
  | rx (v : Byte)
  | avail
  | chRead (len : Word16)
  | chReadall
  | chWrite (len : Word16) (payload : List Byte)
  | chWritestr (len : Word16) (payload : List Byte)
  | chClear
  | irqDis
  | irqEna
  deriving DecidableEq, Repr

end Sys2Proof
end

