-- ==== Sys2Proof/WellFormed.lean ====
section
/-! DEFINITION. Well-formed commands (rule R56). Every operand has exactly the width of its field, so the one check
left is that the payload of the six payload commands (rule R55) has `len` bytes. -/

namespace Sys2Proof

/-- The `len` operand and the payload of a payload command of rule R55; `none` for every other command. -/
def Instr.payload? : Instr → Option (Word16 × List Byte)
  | .write _ len p => some (len, p)
  | .writestr _ len p => some (len, p)
  | .update _ len p => some (len, p)
  | .updateat _ _ len p => some (len, p)
  | .chWrite len p => some (len, p)
  | .chWritestr len p => some (len, p)
  | .init _ _ _ => none
  | .clear _ => none
  | .isempty _ => none
  | .totalw _ => none
  | .totalr _ => none
  | .cap _ => none
  | .islocked _ => none
  | .writeb _ _ => none
  | .read _ _ => none
  | .readb _ => none
  | .peekb _ => none
  | .peekat _ _ => none
  | .delete _ _ => none
  | .deleteb _ => none
  | .updateb _ _ => none
  | .updatebat _ _ _ => none
  | .lock _ => none
  | .unlock _ => none
  | .discard _ => none
  | .chInit _ _ _ _ => none
  | .rx _ => none
  | .avail => none
  | .chRead _ => none
  | .chReadall => none
  | .chClear => none
  | .irqDis => none
  | .irqEna => none

/-- The payload bytes that follow a command's word on the command port (rule R55); `[]` for a command without. -/
def Instr.payload (i : Instr) : List Byte :=
  match i.payload? with
  | some (_, p) => p
  | none => []

/-- Rule R56: `|payload| = len` for the six commands of rule R55; every other command has no payload. -/
abbrev Instr.wf (i : Instr) : Prop := ∀ x ∈ i.payload?, x.2.length = x.1.toNat

end Sys2Proof
end

