-- ==== Sys2Proof/Decode.lean ====
section
/-! DEFINITION. The decoder (rules R52 to R59, R62) and, after it, the encoder. A command on the port is 6 bytes,
`bits[47:40]` first, then `len` payload bytes for the six commands of rule R55. -/

namespace Sys2Proof

/-! ## The fields of a command word (rules R52 and R54) -/

/-- `op = w[47:40]`. -/
def opOf (w : CommandWord) : Byte := w.extractLsb' 40 8

/-- `idx = w[31:16]`. -/
def idxOf (w : CommandWord) : Word16 := w.extractLsb' 16 16

/-- `len = w[15:0]`. -/
def lenOf (w : CommandWord) : Word16 := w.extractLsb' 0 16

/-- `val8 = w[7:0]`. -/
def val8Of (w : CommandWord) : Byte := w.extractLsb' 0 8

/-- `svo = w[34]`. -/
def svoOf (w : CommandWord) : Bool := w.getLsbD 34

/-- `sv = w[33]`. -/
def svOf (w : CommandWord) : Bool := w.getLsbD 33

/-- `u = w[32]`: 0 = `IN`, 1 = `OUT` (rule R58). -/
def unitOf (w : CommandWord) : UnitSel := if w.getLsbD 32 then .outbound else .inbound

/-- The 11 formats of rule R53. -/
inductive Format where
  | Z | S | B | L | I | IB | IL | CZ | CL | CB | CS
  deriving DecidableEq, Repr

/-- The bits a format fixes: `op`, the reserved bits and the fields it does not use (rule R53). -/
def maskOf : Format → CommandWord
  | .Z => 0xFFFEFFFFFFFF#48
  | .S => 0xFFFCFFFF0000#48
  | .B => 0xFFFEFFFFFF00#48
  | .L => 0xFFFEFFFF0000#48
  | .I => 0xFFFE0000FFFF#48
  | .IB => 0xFFFE0000FF00#48
  | .IL => 0xFFFE00000000#48
  | .CZ => 0xFFFFFFFFFFFF#48
  | .CL => 0xFFFFFFFF0000#48
  | .CB => 0xFFFFFFFFFF00#48
  | .CS => 0xFFF900000000#48

/-- `match = op << 40` (rule R53). -/
def matchOf (op : Byte) : CommandWord := op.setWidth 48 <<< 40

/-- One row of the opcode map (rule R62): the operation code, the format, whether a payload follows (rule R55) and
the command made of the word's fields and the payload. -/
structure Row where
  op : Byte
  format : Format
  takesPayload : Bool
  build : CommandWord → List Byte → Instr

/-- Rows of families 40 to 42 (rule R62). -/
def rowsStatusWriteRead : List Row :=
  [ ⟨0x01, .S, false, fun w _ => .init (unitOf w) (lenOf w) (svOf w)⟩,
    ⟨0x02, .Z, false, fun w _ => .clear (unitOf w)⟩,
    ⟨0x03, .Z, false, fun w _ => .isempty (unitOf w)⟩,
    ⟨0x04, .Z, false, fun w _ => .totalw (unitOf w)⟩,
    ⟨0x05, .Z, false, fun w _ => .totalr (unitOf w)⟩,
    ⟨0x06, .Z, false, fun w _ => .cap (unitOf w)⟩,
    ⟨0x07, .Z, false, fun w _ => .islocked (unitOf w)⟩,
    ⟨0x10, .B, false, fun w _ => .writeb (unitOf w) (val8Of w)⟩,
    ⟨0x11, .L, true, fun w p => .write (unitOf w) (lenOf w) p⟩,
    ⟨0x12, .L, true, fun w p => .writestr (unitOf w) (lenOf w) p⟩,
    ⟨0x20, .L, false, fun w _ => .read (unitOf w) (lenOf w)⟩,
    ⟨0x21, .Z, false, fun w _ => .readb (unitOf w)⟩,
    ⟨0x22, .Z, false, fun w _ => .peekb (unitOf w)⟩,
    ⟨0x23, .I, false, fun w _ => .peekat (unitOf w) (idxOf w)⟩ ]

/-- Rows of families 43 and 44 (rule R62). -/
def rowsDeleteUpdateLock : List Row :=
  [ ⟨0x30, .L, false, fun w _ => .delete (unitOf w) (lenOf w)⟩,
    ⟨0x31, .Z, false, fun w _ => .deleteb (unitOf w)⟩,
    ⟨0x32, .L, true, fun w p => .update (unitOf w) (lenOf w) p⟩,
    ⟨0x33, .IL, true, fun w p => .updateat (unitOf w) (idxOf w) (lenOf w) p⟩,
    ⟨0x34, .B, false, fun w _ => .updateb (unitOf w) (val8Of w)⟩,
    ⟨0x35, .IB, false, fun w _ => .updatebat (unitOf w) (idxOf w) (val8Of w)⟩,
    ⟨0x40, .Z, false, fun w _ => .lock (unitOf w)⟩,
    ⟨0x41, .Z, false, fun w _ => .unlock (unitOf w)⟩,
    ⟨0x42, .Z, false, fun w _ => .discard (unitOf w)⟩ ]

/-- Rows of family 45 (rule R62). -/
def rowsChannel : List Row :=
  [ ⟨0x50, .CS, false, fun w _ => .chInit (idxOf w) (svOf w) (lenOf w) (svoOf w)⟩,
    ⟨0x51, .CB, false, fun w _ => .rx (val8Of w)⟩,
    ⟨0x52, .CZ, false, fun _ _ => .avail⟩,
    ⟨0x53, .CL, false, fun w _ => .chRead (lenOf w)⟩,
    ⟨0x54, .CZ, false, fun _ _ => .chReadall⟩,
    ⟨0x55, .CL, true, fun w p => .chWrite (lenOf w) p⟩,
    ⟨0x56, .CL, true, fun w p => .chWritestr (lenOf w) p⟩,
    ⟨0x57, .CZ, false, fun _ _ => .chClear⟩,
    ⟨0x58, .CZ, false, fun _ _ => .irqDis⟩,
    ⟨0x59, .CZ, false, fun _ _ => .irqEna⟩ ]

/-- The opcode map of rule R62. -/
def opcodeMap : List Row := rowsStatusWriteRead ++ rowsDeleteUpdateLock ++ rowsChannel

/-- The row of an operation code; `op` alone selects it (rule R57). -/
def rowOf (op : Byte) : Option Row := opcodeMap.find? fun r => r.op == op

/-- Why a word is illegal (rule R59). -/
inductive Reject where
  /-- `op` is not one of the 33 values of rule R62. -/
  | reservedOp (op : Byte)
  /-- A bit that the format of `op` fixes to 0 is 1 (a reserved bit or a field the format does not use). -/
  | fixedBitSet (op : Byte)
  deriving DecidableEq, Repr

/-- Decoding of a word (rule R57): the row it is an instance of, or why it is illegal. Total. -/
def decodeWord (w : CommandWord) : Except Reject Row :=
  match rowOf (opOf w) with
  | none => .error (.reservedOp (opOf w))
  | some row =>
    if w &&& maskOf row.format = matchOf row.op then .ok row else .error (.fixedBitSet (opOf w))

/-! ## The command port (rules R51, R52, R55) -/

/-- The word carried by six bytes, `bits[47:40]` first (rule R52). -/
def wordOfBytes (b0 b1 b2 b3 b4 b5 : Byte) : CommandWord := b0 ++ b1 ++ b2 ++ b3 ++ b4 ++ b5

/-- The six bytes that carry a word, byte 0 = `bits[47:40]` first (rule R52). -/
def bytesOfWord (w : CommandWord) : List Byte :=
  [w.extractLsb' 40 8, w.extractLsb' 32 8, w.extractLsb' 24 8, w.extractLsb' 16 8, w.extractLsb' 8 8,
    w.extractLsb' 0 8]

/-- How many payload bytes follow a word on the port (rules R55 and R57); none after an illegal word (rule R59). -/
def payloadLength (w : CommandWord) : Nat :=
  match decodeWord w with
  | .ok row => if row.takesPayload then (lenOf w).toNat else 0
  | .error _ => 0

/-- What stands at the front of the command port. -/
inductive Decoded where
  /-- A whole command, and the bytes behind it. -/
  | command (i : Instr) (rest : List Byte)
  /-- An illegal word (rule R59), and the bytes behind it: it takes no payload. -/
  | illegal (why : Reject) (rest : List Byte)
  /-- Fewer bytes than the command needs: the port is still taking it (notes/assumptions/6.md). -/
  | incomplete
  deriving DecidableEq, Repr

/-- The payload part of decoding: a row that takes a payload takes exactly `len` bytes (rule R55). -/
def decodePayload (row : Row) (w : CommandWord) (rest : List Byte) : Decoded :=
  if row.takesPayload then
    if (lenOf w).toNat ≤ rest.length then
      .command (row.build w (rest.take (lenOf w).toNat)) (rest.drop (lenOf w).toNat)
    else .incomplete
  else .command (row.build w []) rest

/-- The decoder: total on any bytes (rule R57). -/
def decode : List Byte → Decoded
  | b0 :: b1 :: b2 :: b3 :: b4 :: b5 :: rest =>
    match decodeWord (wordOfBytes b0 b1 b2 b3 b4 b5) with
    | .error why => .illegal why rest
    | .ok row => decodePayload row (wordOfBytes b0 b1 b2 b3 b4 b5) rest
  | _ => .incomplete

/-- The bytes that put the word `w`, and a payload of zeros where `w` takes one, on the port. -/
def portBytes (w : CommandWord) : List Byte := bytesOfWord w ++ List.replicate (payloadLength w) 0

/-- The word of the low `nbits` bits of `w` (bit 0 the least significant bit of the word, rule R52). -/
def tableWord (nbits w : Nat) : CommandWord := BitVec.ofNat 48 (w % 2 ^ nbits)

/-- The instruction the decoder reads from a word of the opcode table, payload bytes (if any) zero
(notes/assumptions/14.md). -/
def decodeTableWord (nbits w : Nat) : Option Instr :=
  match decode (portBytes (tableWord nbits w)) with
  | .command i _ => some i
  | .illegal _ _ => none
  | .incomplete => none

/-! ## The encoder (rules R52, R53, R62) -/

/-- `u` as a bit (rule R58). -/
def unitBit : UnitSel → Bool
  | .inbound => false
  | .outbound => true

/-- The word with the given fields and `rsv = 0` (rule R52). -/
def packWord (op : Byte) (svo sv u : Bool) (idx len : Word16) : CommandWord :=
  op ++ 0#5 ++ BitVec.ofBool svo ++ BitVec.ofBool sv ++ BitVec.ofBool u ++ idx ++ len

/-- A byte operand in the `len` field: `val8` in the low byte, `bits[15:8] = 0` (rule R52). -/
def val8Field (v : Byte) : Word16 := v.setWidth 16

/-- A FIFO-unit command's word: `sv = svo = 0`. -/
def unitWord (op : Byte) (u : UnitSel) (idx len : Word16) : CommandWord := packWord op false false (unitBit u) idx len

/-- A channel command's word: `u = sv = svo = 0`. -/
def channelWord (op : Byte) (len : Word16) : CommandWord := packWord op false false false 0 len

/-- The command word of a command (rules R53, R62). -/
def encodeWord : Instr → CommandWord
  | .init u size sv => packWord 0x01 false sv (unitBit u) 0 size
  | .clear u => unitWord 0x02 u 0 0
  | .isempty u => unitWord 0x03 u 0 0
  | .totalw u => unitWord 0x04 u 0 0
  | .totalr u => unitWord 0x05 u 0 0
  | .cap u => unitWord 0x06 u 0 0
  | .islocked u => unitWord 0x07 u 0 0
  | .writeb u v => unitWord 0x10 u 0 (val8Field v)
  | .write u len _ => unitWord 0x11 u 0 len
  | .writestr u len _ => unitWord 0x12 u 0 len
  | .read u len => unitWord 0x20 u 0 len
  | .readb u => unitWord 0x21 u 0 0
  | .peekb u => unitWord 0x22 u 0 0
  | .peekat u idx => unitWord 0x23 u idx 0
  | .delete u len => unitWord 0x30 u 0 len
  | .deleteb u => unitWord 0x31 u 0 0
  | .update u len _ => unitWord 0x32 u 0 len
  | .updateat u idx len _ => unitWord 0x33 u idx len
  | .updateb u v => unitWord 0x34 u 0 (val8Field v)
  | .updatebat u idx v => unitWord 0x35 u idx (val8Field v)
  | .lock u => unitWord 0x40 u 0 0
  | .unlock u => unitWord 0x41 u 0 0
  | .discard u => unitWord 0x42 u 0 0
  | .chInit sizeIn svIn sizeOut svOut => packWord 0x50 svOut svIn false sizeIn sizeOut
  | .rx v => channelWord 0x51 (val8Field v)
  | .avail => channelWord 0x52 0
  | .chRead len => channelWord 0x53 len
  | .chReadall => channelWord 0x54 0
  | .chWrite len _ => channelWord 0x55 len
  | .chWritestr len _ => channelWord 0x56 len
  | .chClear => channelWord 0x57 0
  | .irqDis => channelWord 0x58 0
  | .irqEna => channelWord 0x59 0

/-- What the foreground puts on the command port for a command: its word, then its payload (rules R51, R55). -/
def encode (i : Instr) : List Byte := bytesOfWord (encodeWord i) ++ i.payload

end Sys2Proof
end

