-- ==== Sys2Proof/Config.lean ====
section
/-! DEFINITION. What an implementation of the block fixes (the two open parameters of rule R5 and of the last table of
92_eei_decisions.md) and the values the spec leaves open (constants without a body). -/

namespace Sys2Proof

/-- The two open parameters of rule R5. They are plain data that `Machine.State` carries and no step changes, so
a statement about every state is a statement about every value of them (notes/assumptions/1.md). -/
structure Config where
  /-- `MAX_SIZE`: the ceiling on a unit's allocated size and on the iterations of one WRITE / WRITESTR. -/
  maxSize : Nat
  /-- `TX_STR_NUL`: whether CH_WRITESTR hands a terminating zero byte to the transmit sink (rule R107). -/
  txStrNul : Bool
  deriving DecidableEq, Repr

/-- `1 <= MAX_SIZE <= 65535` (rule R5). -/
abbrev Config.wf (c : Config) : Prop := 1 ≤ c.maxSize ∧ c.maxSize ≤ 65535

/-- DESIGN CHOICE (notes/assumptions/1.md). The values `State.reset` carries: the suggested `MAX_SIZE` of rule R5,
and no terminator. -/
def Config.suggested : Config := { maxSize := 16384, txStrNul := false }

/-- Free value (rules R5, R19, R130: the initial storage content is arbitrary). `initialStorage k a` is the byte
that slot `a` of a storage holds before anything was written to it; `k` names one storage between two hardware
resets (the field `fill` of a unit). No body: nothing can be proved of it (notes/assumptions/3.md). -/
opaque Config.initialStorage : Nat → Nat → Byte

/-- Free value (notes/assumptions/4.md). The result field `val` of a response whose count does not fit in its 16
bits (rule R60); the argument is the counter `fresh` of the state. No body: nothing can be proved of it. -/
opaque Config.unstatedVal : Nat → Word16

end Sys2Proof
end

