-- ==== Sys2Proof/Machine/State.lean ====
section
/-! DEFINITION. The state of the block as plain data (10_state.md), the reasons a step can stop, and the state after
hardware reset (rules R33 and R129). -/

namespace Sys2Proof.Machine

open Sys2Proof

/-- A unit's storage `F.mem` (rules R13, R35): the slots that were written, in rising order of slot index. A slot
that is not listed holds its initial content (`slotByte` in Machine/Memory.lean, notes/assumptions/3.md). -/
abbrev Memory := List Host.Cell

/-- Life-cycle phase of a unit (rule R16) and of the channel (rule R27). -/
inductive Phase where
  | reset | ready | failed
  deriving DecidableEq, Repr

/-- A FIFO unit (rule R13). Fields have the rule's names. -/
structure Fifo where
  /-- `F.mem`, the storage. -/
  mem : Memory
  /-- `F.N`, the allocated size: the number of slots. -/
  N : Nat
  /-- `F.R`, the read cursor. -/
  R : Nat
  /-- `F.W`, the write cursor. -/
  W : Nat
  /-- `F.L`, the lock cursor; `none` is `UNLOCKED` (rule R15). -/
  L : Option Nat
  /-- `F.phase` (rule R16). -/
  phase : Phase
  /-- The MODEL's own field: which unknown initial content the storage has (notes/assumptions/3.md). -/
  fill : Nat
  deriving DecidableEq, Repr

/-- The failure class a response reports (rules R60 and R114). -/
inductive Err where
  | none | config | avail | illegal
  deriving DecidableEq, Repr

/-- The response record (rule R60). -/
structure Response where
  ok : Bool
  err : Err
  val : Word16
  out : List Byte
  deriving DecidableEq, Repr

/-- One turn of the outside world's schedule: who acts next (rules R6, R44, R111, R129; notes/assumptions/5.md). -/
inductive Turn where
  /-- The foreground: the next command of the command port. -/
  | foreground
  /-- The producer port presents the byte `v`: RX `v`, taken only while `IRQ_EN = 1`. -/
  | producer (v : Byte)
  /-- The hardware reset of rule R129. -/
  | reset
  deriving DecidableEq, Repr

/-- The whole state. The first five fields are the spec's (rules R13, R27); the others are the MODEL's own: what the
outside world presents, the answer the last step gave, the parameters and the counter of free values. -/
structure State where
  /-- Unit 0, `IN`. -/
  inb : Fifo
  /-- Unit 1, `OUT`. -/
  outb : Fifo
  /-- `IRQ_EN`: the interrupt source is enabled (rule R27). -/
  irqEn : Bool
  /-- `TXLOG`: the bytes handed to the transmit sink, in order (rule R27). -/
  txLog : List Byte
  /-- `ch_phase` (rule R27). -/
  chPhase : Phase
  /-- The open parameters of rule R5; no step changes them. -/
  config : Config
  /-- The bytes on the command port that no step has taken yet (rule R51). -/
  cmdPort : List Byte
  /-- Who acts next; when it is used up the foreground does. -/
  schedule : List Turn
  /-- The response the last step put on the response port, if it put one there (rule R51). -/
  resp : Option Response
  /-- How many free values of `Config` were used. -/
  fresh : Nat
  deriving DecidableEq, Repr

/-- Why a step stops without an answer of the block. -/
inductive Fault where
  /-- A storage access named a slot index outside `[0, F.N)`, which does not exist (rules R35, R37, R38). Raised by
  `memRead` and `memWrite`; safe: no state that meets the cursor ranges of rule R14 raises it, the spec's rules never
  form such an index, and the model gives the access no result (notes/assumptions/10.md). -/
  | noSuchSlot
  deriving DecidableEq, Repr

/-- Why the spec gives a step no meaning: the closed list of rules R8 and R117. All are safe: the model says nothing
where the spec says nothing. -/
inductive Refusal where
  /-- No meaning written for the instruction yet; raised by an arm of `exec` only. Safe. -/
  | notModelled (mnemonic : String)
  /-- A command on a unit or channel that is not `READY` (rules R69 check 4, R100 check 3, R134). Safe. -/
  | notReady
  /-- INIT or CH_INIT when a phase is not `RESET` (rules R69 check 3, R100 check 2). Safe. -/
  | reInit
  /-- LOCK, UNLOCK or DISCARD on `IN` (rules R69 check 1, R136). Safe. -/
  | lockOnInbound
  /-- A FIFO-unit command on `IN`, or CH_INIT, while `IRQ_EN = 1` (rules R69 check 2, R100 check 2, R135). Safe. -/
  | unbracketedInbound
  /-- A command record whose payload length is not `len` (rule R56); it cannot be formed on the port. Safe. -/
  | badPayload
  deriving DecidableEq, Repr

/-- What a step answers. -/
abbrev StepResult := Host.Outcome State Fault Refusal

/-- A unit after hardware reset (rule R33). `phase` is the spec's; `N`, `R`, `W`, `L` are unspecified there and take
the values of notes/assumptions/2.md (DESIGN CHOICE); the storage is unknown. -/
def Fifo.afterReset (fill : Nat) : Fifo :=
  { mem := [], N := 0, R := 0, W := 0, L := none, phase := .reset, fill := fill }

/-- The state after hardware reset of a block with the parameters `c` (rules R33, R129), nothing presented yet. -/
def State.resetWith (c : Config) : State :=
  { inb := Fifo.afterReset 0, outb := Fifo.afterReset 1, irqEn := false, txLog := [], chPhase := .reset,
    config := c, cmdPort := [], schedule := [], resp := none, fresh := 2 }

/-- The state after hardware reset, with the parameters of notes/assumptions/1.md. -/
def State.reset : State := State.resetWith Config.suggested

end Sys2Proof.Machine
end

