-- ==== Sys2Proof/Machine/Memory.lean ====
section
/-! DEFINITION. The storage of a unit: a list of written slots in one canonical form, and the two access primitives
`MemRead` and `MemWrite` (rules R35, R37, R38). -/

namespace Sys2Proof.Machine

open Sys2Proof

/-- The canonical form: slot indices strictly rising. -/
def Memory.wf : Memory → Bool
  | [] => true
  | [_] => true
  | a :: b :: rest => decide (a.1 < b.1) && Memory.wf (b :: rest)

/-- The byte written to a slot, if one was. -/
def Memory.find (m : Memory) (a : Nat) : Option Byte :=
  match m with
  | [] => none
  | c :: rest => if c.1 = a then some c.2 else Memory.find rest a

/-- Set slot `a` to `v`, keeping the canonical form. -/
def Memory.set (m : Memory) (a : Nat) (v : Byte) : Memory :=
  match m with
  | [] => [(a, v)]
  | c :: rest =>
    if a < c.1 then (a, v) :: c :: rest
    else if a = c.1 then (a, v) :: rest
    else c :: Memory.set rest a v

/-- The byte slot `a` holds: the last byte written to it, else its initial content, which is a free value (rules R19,
R130; notes/assumptions/3.md). -/
def slotByte (F : Fifo) (a : Nat) : Byte := (F.mem.find a).getD (Config.initialStorage F.fill a)

/-- `MemRead(F, a, 1)` (rule R37); a slot index outside `[0, F.N)` does not exist. -/
def memRead (F : Fifo) (a : Nat) : Option Byte := if a < F.N then some (slotByte F a) else none

/-- `MemWrite(F, a, 1, v)` (rule R38); a slot index outside `[0, F.N)` does not exist. -/
def memWrite (F : Fifo) (a : Nat) (v : Byte) : Option Fifo :=
  if a < F.N then some { F with mem := F.mem.set a v } else none

end Sys2Proof.Machine
end

