-- ==== Sys2Proof/Machine/Operands.lean ====
section
/-! DEFINITION. Operand forms and result forms (rules R9, R10, R11, R36, R54, R56, R60): the cursor arithmetic, the
effective address, the checks on an operand, and the response word. -/

namespace Sys2Proof.Machine

open Sys2Proof

/-- `inc(F, c) = (c + 1) mod F.N` (rule R10). -/
def inc (F : Fifo) (c : Nat) : Nat := (c + 1) % F.N

/-- `span(F, r, w)` (rule R11). -/
def span (F : Fifo) (r w : Nat) : Nat := if r ≤ w then w - r else w + F.N - r

/-- The effective write boundary `eff(F)` (rule R20). -/
def eff (F : Fifo) : Nat :=
  match F.L with
  | some l => l
  | none => F.W

/-- `written(F)`, the depth (rules R21 and R26). -/
def written (F : Fifo) : Nat := span F F.R F.W

/-- `readable(F)` (rule R22). -/
def readable (F : Fifo) : Nat := span F F.R (eff F)

/-- The usable capacity `F.N - 1` (rules R5 and R17). -/
def usable (F : Fifo) : Nat := F.N - 1

/-- The slot of the byte at offset `i` from the read cursor (rule R36). -/
def ea (F : Fifo) (i : Nat) : Nat := (F.R + i) % F.N

/-- The condition under which INIT and CH_INIT reject the arguments of one unit (rules R70, R102). -/
def badInitArgs (c : Config) (size : Word16) (sv : Bool) : Bool :=
  !sv || decide (size.toNat = 0) || decide (c.maxSize < size.toNat)

/-- `k = min(len, MAX_SIZE)`, the iteration ceiling of WRITE and WRITESTR (rules R80, R81). -/
def pushCount (c : Config) (len : Word16) : Nat := min len.toNat c.maxSize

/-- The answer of a command before it is put on the response port: the class, the exact result and the payload-out. -/
structure Reply where
  err : Err
  val : Nat
  out : List Byte
  deriving DecidableEq, Repr

/-- `respond(1, NONE, v, [])`. -/
def success (v : Nat) : Reply := { err := .none, val := v, out := [] }

/-- `respond(1, NONE, |out|, out)`: the answer of a successful READ (rule R61). -/
def successOut (out : List Byte) : Reply := { err := .none, val := out.length, out := out }

/-- `respond(0, e, 0, [])`: `val = 0` and no payload-out on every failure (rule R60). -/
def failWith (e : Err) : Reply := { err := e, val := 0, out := [] }

/-- A Boolean result in `val` (rule R60). -/
def boolVal (b : Bool) : Nat := if b then 1 else 0

/-- The code of a failure class (rules R60, R114). -/
def errCode : Err → BitVec 2
  | .none => 0
  | .config => 1
  | .avail => 2
  | .illegal => 3

/-- The response word (rule R60): `rsv` = 0, `ok`, `err`, `val`. -/
def responseWord (r : Response) : ResponseWord := 0#5 ++ BitVec.ofBool r.ok ++ errCode r.err ++ r.val

end Sys2Proof.Machine
end

