-- ==== Sys2Proof/Machine/Flags.lean ====
section
/-! DEFINITION. The four flags (rule R30) and the status outputs (rule R31). None is stored but `IRQ_EN`; all are
functions of the state, and no command sets one other than by moving the cursors. -/

namespace Sys2Proof.Machine

open Sys2Proof

/-- `EMPTY(F) = (F.R = F.W)` (rules R18, R30). -/
def emptyFlag (F : Fifo) : Bool := decide (F.R = F.W)

/-- `LOCKED(F) = (F.L != UNLOCKED)` (rules R15, R30). -/
def lockedFlag (F : Fifo) : Bool := F.L.isSome

/-- `FULL(F) = (written(F) = F.N - 1)` (rule R30). -/
def fullFlag (F : Fifo) : Bool := decide (written F = usable F)

/-- The encoding of `PHASE_u` and `CH_PHASE`; 3 is never driven (rule R31). -/
def phaseCode : Phase → BitVec 2
  | .reset => 0
  | .ready => 1
  | .failed => 2

/-- The status outputs of one unit that rule R31 gives a value only while the unit is `READY`. -/
structure UnitOutputs where
  size : Word16
  usable : Word16
  rcur : Word16
  wcur : Word16
  locked : Bool
  lcur : Word16
  empty : Bool
  full : Bool
  depth : Word16
  readable : Word16
  deriving DecidableEq, Repr

/-- The status outputs of a unit besides `PHASE_u` (rule R31); `none` where the rule calls them unspecified
(notes/assumptions/13.md). -/
def unitOutputs (F : Fifo) : Option UnitOutputs :=
  if F.phase = .ready then
    some
      { size := BitVec.ofNat 16 F.N
        usable := BitVec.ofNat 16 (usable F)
        rcur := BitVec.ofNat 16 F.R
        wcur := BitVec.ofNat 16 F.W
        locked := lockedFlag F
        lcur := BitVec.ofNat 16 (F.L.getD 0)
        empty := emptyFlag F
        full := fullFlag F
        depth := BitVec.ofNat 16 (written F)
        readable := BitVec.ofNat 16 (readable F) }
  else none

/-- All status outputs of the block (rule R31). -/
structure StatusOutputs where
  phaseIn : BitVec 2
  unitIn : Option UnitOutputs
  phaseOut : BitVec 2
  unitOut : Option UnitOutputs
  irqEn : Bool
  chPhase : BitVec 2
  deriving DecidableEq, Repr

/-- The status outputs a state drives (rule R31). -/
def statusOutputs (s : State) : StatusOutputs :=
  { phaseIn := phaseCode s.inb.phase
    unitIn := unitOutputs s.inb
    phaseOut := phaseCode s.outb.phase
    unitOut := unitOutputs s.outb
    irqEn := s.irqEn
    chPhase := phaseCode s.chPhase }

end Sys2Proof.Machine
end

