-- ==== Sys2Proof/Machine/Ops.lean ====
section
/-! DEFINITION. The shared operations: the units of the channel, the per-byte path, reading and writing runs of
slots, the bracket, admission, answering, and hardware reset. -/

namespace Sys2Proof.Machine

open Sys2Proof

/-! ## The two units -/

/-- The unit a select names (rule R58). -/
def State.unit (s : State) (u : UnitSel) : Fifo :=
  match u with
  | .inbound => s.inb
  | .outbound => s.outb

/-- Replace one unit. -/
def State.setUnit (s : State) (u : UnitSel) (F : Fifo) : State :=
  match u with
  | .inbound => { s with inb := F }
  | .outbound => { s with outb := F }

/-! ## Operations on one unit -/

/-- The unit a successful INIT leaves (rule R70): its size, empty, unlocked, `READY`; the storage is not written. -/
def initialised (F : Fifo) (size : Nat) : Fifo := { F with N := size, R := 0, W := 0, L := none, phase := .ready }

/-- The unit a failed INIT leaves (rule R70): only the phase changes. -/
def initFailed (F : Fifo) : Fifo := { F with phase := .failed }

/-- The unit CLEAR leaves (rule R71). -/
def cleared (F : Fifo) : Fifo := { F with R := 0, W := 0, L := none }

/-- Drop the oldest byte: the collision branch of `push` (rules R25, R78). The lock cursor moves with the read cursor
when it sits on the evicted slot; `UNLOCKED` equals no index. -/
def evict (F : Fifo) : Fifo :=
  { F with L := if F.L = some F.R then some (inc F F.R) else F.L, R := inc F F.R }

/-- Advance the write cursor, and evict when it meets the read cursor (rule R78). -/
def advanceWrite (F : Fifo) : Fifo :=
  if inc F F.W = F.R then evict { F with W := inc F F.W } else { F with W := inc F F.W }

/-- `push(F, b)`, the per-byte path (rule R78): store at the write cursor, advance it, evict on collision. -/
def push (F : Fifo) (b : Byte) : Option Fifo := (memWrite F F.W b).map advanceWrite

/-- `push` of each byte in order (rules R40, R80, R81). -/
def pushAll (F : Fifo) : List Byte → Option Fifo
  | [] => some F
  | b :: bs => (push F b).bind fun F' => pushAll F' bs

/-- Advance the read cursor by `n` (rules R10, R84, R88). -/
def advanceRead (F : Fifo) (n : Nat) : Fifo := { F with R := (F.R + n) % F.N }

/-- `pop(F)` (rule R83): the oldest byte, and the unit without it. -/
def pop (F : Fifo) : Option (Byte × Fifo) := (memRead F F.R).map fun b => (b, { F with R := inc F F.R })

/-- The `n` bytes at offsets `i, i + 1, ...` from the read cursor, in that order (rules R40, R84). -/
def readRun (F : Fifo) (i : Nat) : Nat → Option (List Byte)
  | 0 => some []
  | n + 1 => (memRead F (ea F i)).bind fun b => (readRun F (i + 1) n).map fun bs => b :: bs

/-- Overwrite in place the bytes at offsets `i, i + 1, ...` from the read cursor (rules R90, R91). -/
def writeRun (F : Fifo) (i : Nat) : List Byte → Option Fifo
  | [] => some F
  | b :: bs => (memWrite F (ea F i) b).bind fun F' => writeRun F' (i + 1) bs

/-- Mark the write position (rule R95). -/
def locked (F : Fifo) : Fifo := { F with L := some F.W }

/-- Commit (rule R96). -/
def unlocked (F : Fifo) : Fifo := { F with L := none }

/-- Roll back to the current value of the lock cursor (rule R97, 90_conflicts.md C3); nothing when unlocked. -/
def discarded (F : Fifo) : Fifo :=
  match F.L with
  | some l => { F with W := l, L := none }
  | none => F

/-- The loop of CH_READ and CH_READALL (rules R104, R105): at most `n` times, while a byte of `I` is readable, pop it
from `I` and push it to `O`; the two units after it and the count. -/
def transfer (I O : Fifo) : Nat → Option (Fifo × Fifo × Nat)
  | 0 => some (I, O, 0)
  | n + 1 =>
    if readable I = 0 then some (I, O, 0)
    else
      (pop I).bind fun popped =>
        (push O popped.1).bind fun O' =>
          (transfer popped.2 O' n).map fun r => (r.1, r.2.1, r.2.2 + 1)

/-! ## Answering -/

/-- Put a response on the response port (rules R51, R60). A result that does not fit in the 16 bits of `val` has no
stated value there: `val` is then a free value (notes/assumptions/4.md). -/
def State.answer (s : State) (r : Reply) : State :=
  if r.val < 2 ^ 16 then
    { s with resp := some { ok := decide (r.err = .none), err := r.err, val := BitVec.ofNat 16 r.val, out := r.out } }
  else
    { s with
      resp := some { ok := decide (r.err = .none), err := r.err, val := Config.unstatedVal s.fresh, out := r.out }
      fresh := s.fresh + 1 }

/-- No response in this step (rule R51: an RX on the producer port). -/
def State.silent (s : State) : State := { s with resp := none }

/-! ## The bracket (rules R46, R103 to R105, R108) -/

/-- Run `body` between disabling and re-enabling the interrupt source; the re-enable is unconditional (rule R137). -/
def bracketed (s : State) (body : State → Option (State × Reply)) : Option (State × Reply) :=
  (body { s with irqEn := false }).map fun r => ({ r.1 with irqEn := true }, r.2)

/-! ## Admission -/

/-- What the admission of a FIFO-unit command depends on besides the unit (rule R69). -/
inductive FifoKind where
  | init         -- INIT
  | transaction  -- LOCK, UNLOCK, DISCARD
  | ordinary     -- the other 19
  deriving DecidableEq, Repr

/-- Admission of a FIFO-unit command: the first failing check of rule R69, in its order. -/
def admitFifo (k : FifoKind) (u : UnitSel) (s : State) : Option Refusal :=
  if u = .inbound ∧ k = .transaction then some .lockOnInbound
  else if u = .inbound ∧ s.irqEn = true then some .unbracketedInbound
  else if k = .init ∧ (s.unit u).phase ≠ .reset then some .reInit
  else if k ≠ .init ∧ (s.unit u).phase ≠ .ready then some .notReady
  else none

/-- What the admission of a channel command depends on (rule R100). -/
inductive ChannelKind where
  | irq       -- IRQ_DIS, IRQ_ENA
  | init      -- CH_INIT
  | ordinary  -- RX, AVAIL, CH_READ, CH_READALL, CH_WRITE, CH_WRITESTR, CH_CLEAR
  deriving DecidableEq, Repr

/-- Admission of a channel command: the first failing check of rule R100, in its order. -/
def admitChannel (k : ChannelKind) (s : State) : Option Refusal :=
  match k with
  | .irq => none
  | .init =>
    if s.irqEn = true then some .unbracketedInbound
    else if s.chPhase ≠ .reset ∨ s.inb.phase ≠ .reset ∨ s.outb.phase ≠ .reset then some .reInit
    else none
  | .ordinary => if s.chPhase ≠ .ready then some .notReady else none

/-! ## The shape of a command: payload check, admission, the command's own rule, the answer (rule R123) -/

/-- Rule R56: a command record whose payload length disagrees with `len` is refused, before admission (DEDUCED,
notes/assumptions/12.md). -/
def withPayload (len : Word16) (payload : List Byte) (result : StepResult) : StepResult :=
  if payload.length = len.toNat then result else .refused .badPayload

/-- A FIFO-unit command: admission, then `body` on the selected unit, then its answer. -/
def fifoCommand (k : FifoKind) (u : UnitSel) (s : State) (body : Fifo → Option (Fifo × Reply)) : StepResult :=
  match admitFifo k u s with
  | some r => .refused r
  | none =>
    match body (s.unit u) with
    | none => .fault .noSuchSlot
    | some (F, r) => .next ((s.setUnit u F).answer r)

/-- A channel command: admission, then `body` on the state, then its answer. -/
def channelCommand (k : ChannelKind) (s : State) (body : State → Option (State × Reply)) : StepResult :=
  match admitChannel k s with
  | some r => .refused r
  | none =>
    match body s with
    | none => .fault .noSuchSlot
    | some (t, r) => .next (t.answer r)

/-! ## The producer and hardware reset -/

/-- The effect of RX on the state, whichever port it came in on (rules R63, R101). -/
def receive (v : Byte) (s : State) : Option State := (push s.inb v).map fun F => { s with inb := F }

/-- RX `v` on the producer port (rules R51, R101, R111): admitted as any RX, and without a response. -/
def producerRx (v : Byte) (s : State) : StepResult :=
  match admitChannel .ordinary s with
  | some r => .refused r
  | none =>
    match receive v s with
    | none => .fault .noSuchSlot
    | some t => .next t.silent

/-- Hardware reset (rules R33, R129): both units and the channel in phase `RESET`, `IRQ_EN = 0`, `TXLOG = []`, the
storage contents unknown anew; no command is executed and no response produced. The ports keep what waits on them (DESIGN
CHOICE, notes/assumptions/16.md). -/
def hardwareReset (s : State) : State :=
  { s with
    inb := Fifo.afterReset s.fresh
    outb := Fifo.afterReset (s.fresh + 1)
    irqEn := false
    txLog := []
    chPhase := .reset
    resp := none
    fresh := s.fresh + 2 }

end Sys2Proof.Machine
end

