-- ==== Sys2Proof/Machine/Channel.lean ====
section
/-! DEFINITION. Family 45, channel commands: CH_INIT, RX, AVAIL, CH_READ, CH_READALL, CH_WRITE, CH_WRITESTR, CH_CLEAR,
IRQ_DIS, IRQ_ENA (45_channel.md). -/

namespace Sys2Proof.Machine

open Sys2Proof

/-- CH_INIT (rule R102). -/
def execChInit (sizeIn : Word16) (svIn : Bool) (sizeOut : Word16) (svOut : Bool) (s : State) : StepResult :=
  channelCommand .init s fun s =>
    if badInitArgs s.config sizeIn svIn || badInitArgs s.config sizeOut svOut then
      some ({ s with inb := initFailed s.inb, outb := initFailed s.outb, chPhase := .failed }, failWith .config)
    else
      some
        ({ s with
            inb := initialised s.inb sizeIn.toNat
            outb := initialised s.outb sizeOut.toNat
            chPhase := .ready },
          success 0)

/-- RX on the command port (rules R63, R101). -/
def execRx (v : Byte) (s : State) : StepResult :=
  channelCommand .ordinary s fun s => (receive v s).map fun t => (t, success 0)

/-- AVAIL (rule R103). -/
def execAvail (s : State) : StepResult :=
  channelCommand .ordinary s fun s => bracketed s fun s => some (s, success (written s.inb))

/-- CH_READ (rule R104): at most `n` bytes; a shorter transfer is no failure. -/
def execChRead (len : Word16) (s : State) : StepResult :=
  channelCommand .ordinary s fun s =>
    bracketed s fun s =>
      (transfer s.inb s.outb len.toNat).map fun r => ({ s with inb := r.1, outb := r.2.1 }, success r.2.2)

/-- CH_READALL (rule R105): the loop ends after `readable(IN)` bytes, each of which lowers `readable(IN)` by one
(DEDUCED, notes/assumptions/11.md). -/
def execChReadall (s : State) : StepResult :=
  channelCommand .ordinary s fun s =>
    bracketed s fun s =>
      (transfer s.inb s.outb (readable s.inb)).map fun r => ({ s with inb := r.1, outb := r.2.1 }, success r.2.2)

/-- CH_WRITE (rule R106): straight to the transmit sink; no iteration ceiling. -/
def execChWrite (len : Word16) (payload : List Byte) (s : State) : StepResult :=
  withPayload len payload <|
    channelCommand .ordinary s fun s => some ({ s with txLog := s.txLog ++ payload }, success 0)

/-- CH_WRITESTR (rule R107): the terminator as the parameter `TX_STR_NUL` says. -/
def execChWritestr (len : Word16) (payload : List Byte) (s : State) : StepResult :=
  withPayload len payload <|
    channelCommand .ordinary s fun s =>
      some ({ s with txLog := s.txLog ++ payload ++ (if s.config.txStrNul then [0] else []) }, success 0)

/-- CH_CLEAR (rule R108): CLEAR on `IN` inside the bracket. -/
def execChClear (s : State) : StepResult :=
  channelCommand .ordinary s fun s => bracketed s fun s => some ({ s with inb := cleared s.inb }, success 0)

/-- IRQ_DIS (rule R109). -/
def execIrqDis (s : State) : StepResult :=
  channelCommand .irq s fun s => some ({ s with irqEn := false }, success 0)

/-- IRQ_ENA (rule R110). -/
def execIrqEna (s : State) : StepResult :=
  channelCommand .irq s fun s => some ({ s with irqEn := true }, success 0)

end Sys2Proof.Machine
end

