-- ==== Sys2Proof/Machine/DeleteUpdate.lean ====
section
/-! DEFINITION. Family 43, delete and update commands: DELETE, DELETEB, UPDATE, UPDATEAT, UPDATEB, UPDATEBAT
(43_delete_update.md). All are bounded by `readable`. -/

namespace Sys2Proof.Machine

open Sys2Proof

/-- DELETE (rule R88). -/
def execDelete (u : UnitSel) (len : Word16) (s : State) : StepResult :=
  fifoCommand .ordinary u s fun F =>
    if readable F < len.toNat then some (F, failWith .avail) else some (advanceRead F len.toNat, success 0)

/-- DELETEB (rule R89). -/
def execDeleteb (u : UnitSel) (s : State) : StepResult :=
  fifoCommand .ordinary u s fun F =>
    if readable F = 0 then some (F, failWith .avail) else some ({ F with R := inc F F.R }, success 0)

/-- UPDATE (rule R90). -/
def execUpdate (u : UnitSel) (len : Word16) (payload : List Byte) (s : State) : StepResult :=
  withPayload len payload <|
    fifoCommand .ordinary u s fun F =>
      if readable F < len.toNat then some (F, failWith .avail)
      else (writeRun F 0 payload).map fun F' => (F', success 0)

/-- UPDATEAT (rule R91): the sum `index + len` is over the naturals. -/
def execUpdateat (u : UnitSel) (idx len : Word16) (payload : List Byte) (s : State) : StepResult :=
  withPayload len payload <|
    fifoCommand .ordinary u s fun F =>
      if readable F < idx.toNat + len.toNat then some (F, failWith .avail)
      else (writeRun F idx.toNat payload).map fun F' => (F', success 0)

/-- UPDATEB (rule R92). -/
def execUpdateb (u : UnitSel) (v : Byte) (s : State) : StepResult :=
  fifoCommand .ordinary u s fun F =>
    if readable F = 0 then some (F, failWith .avail)
    else (memWrite F F.R v).map fun F' => (F', success 0)

/-- UPDATEBAT (rule R93). -/
def execUpdatebat (u : UnitSel) (idx : Word16) (v : Byte) (s : State) : StepResult :=
  fifoCommand .ordinary u s fun F =>
    if readable F ≤ idx.toNat then some (F, failWith .avail)
    else (memWrite F (ea F idx.toNat) v).map fun F' => (F', success 0)

end Sys2Proof.Machine
end

