-- ==== Sys2Proof/Machine/Lifecycle.lean ====
section
/-! DEFINITION. Family 40, life-cycle and status commands: INIT, CLEAR, ISEMPTY, TOTALW, TOTALR, CAP, ISLOCKED
(40_lifecycle_status.md). -/

namespace Sys2Proof.Machine

open Sys2Proof

/-- INIT (rule R70). -/
def execInit (u : UnitSel) (size : Word16) (sv : Bool) (s : State) : StepResult :=
  fifoCommand .init u s fun F =>
    if badInitArgs s.config size sv then some (initFailed F, failWith .config)
    else some (initialised F size.toNat, success 0)

/-- CLEAR (rule R71). -/
def execClear (u : UnitSel) (s : State) : StepResult :=
  fifoCommand .ordinary u s fun F => some (cleared F, success 0)

/-- ISEMPTY (rule R72). -/
def execIsempty (u : UnitSel) (s : State) : StepResult :=
  fifoCommand .ordinary u s fun F => some (F, success (boolVal (emptyFlag F)))

/-- TOTALW (rule R73). -/
def execTotalw (u : UnitSel) (s : State) : StepResult :=
  fifoCommand .ordinary u s fun F => some (F, success (written F))

/-- TOTALR (rule R74). -/
def execTotalr (u : UnitSel) (s : State) : StepResult :=
  fifoCommand .ordinary u s fun F => some (F, success (readable F))

/-- CAP (rule R75). -/
def execCap (u : UnitSel) (s : State) : StepResult :=
  fifoCommand .ordinary u s fun F => some (F, success (usable F))

/-- ISLOCKED (rule R76). -/
def execIslocked (u : UnitSel) (s : State) : StepResult :=
  fifoCommand .ordinary u s fun F => some (F, success (boolVal (lockedFlag F)))

end Sys2Proof.Machine
end

