-- ==== Sys2Proof/Machine/Lock.lean ====
section
/-! DEFINITION. Family 44, transaction commands: LOCK, UNLOCK, DISCARD (44_lock.md). Admitted on `OUT` only; none
can fail. -/

namespace Sys2Proof.Machine

open Sys2Proof

/-- LOCK (rule R95). -/
def execLock (u : UnitSel) (s : State) : StepResult :=
  fifoCommand .transaction u s fun F => some (locked F, success 0)

/-- UNLOCK (rule R96). -/
def execUnlock (u : UnitSel) (s : State) : StepResult :=
  fifoCommand .transaction u s fun F => some (unlocked F, success 0)

/-- DISCARD (rule R97). -/
def execDiscard (u : UnitSel) (s : State) : StepResult :=
  fifoCommand .transaction u s fun F => some (discarded F, success 0)

end Sys2Proof.Machine
end

