-- ==== Sys2Proof/Machine/ReadPeek.lean ====
section
/-! DEFINITION. Family 42, read and peek commands: READ, READB, PEEKB, PEEKAT (42_read_peek.md). The consuming ones
are bounded by `readable`, the peeks by `written` (90_conflicts.md C7). -/

namespace Sys2Proof.Machine

open Sys2Proof

/-- READ (rule R84): all or nothing. -/
def execRead (u : UnitSel) (len : Word16) (s : State) : StepResult :=
  fifoCommand .ordinary u s fun F =>
    if F.R = F.W ∨ readable F < len.toNat then some (F, failWith .avail)
    else (readRun F 0 len.toNat).map fun out => (advanceRead F len.toNat, successOut out)

/-- READB (rule R85). -/
def execReadb (u : UnitSel) (s : State) : StepResult :=
  fifoCommand .ordinary u s fun F =>
    if readable F = 0 then some (F, failWith .avail)
    else (pop F).map fun p => (p.2, success p.1.toNat)

/-- PEEKB (rule R86). -/
def execPeekb (u : UnitSel) (s : State) : StepResult :=
  fifoCommand .ordinary u s fun F =>
    if written F = 0 then some (F, failWith .avail)
    else (memRead F F.R).map fun b => (F, success b.toNat)

/-- PEEKAT (rule R87). -/
def execPeekat (u : UnitSel) (idx : Word16) (s : State) : StepResult :=
  fifoCommand .ordinary u s fun F =>
    if written F ≤ idx.toNat then some (F, failWith .avail)
    else (memRead F (ea F idx.toNat)).map fun b => (F, success b.toNat)

end Sys2Proof.Machine
end

