-- ==== Sys2Proof/Machine/Write.lean ====
section
/-! DEFINITION. Family 41, write commands: WRITEB, WRITE, WRITESTR (41_write.md). None can fail. -/

namespace Sys2Proof.Machine

open Sys2Proof

/-- WRITEB (rule R79). -/
def execWriteb (u : UnitSel) (v : Byte) (s : State) : StepResult :=
  fifoCommand .ordinary u s fun F => (push F v).map fun F' => (F', success 0)

/-- WRITE (rule R80): the first `k = min(len, MAX_SIZE)` bytes are pushed. -/
def execWrite (u : UnitSel) (len : Word16) (payload : List Byte) (s : State) : StepResult :=
  withPayload len payload <|
    fifoCommand .ordinary u s fun F =>
      (pushAll F (payload.take (pushCount s.config len))).map fun F' => (F', success (pushCount s.config len))

/-- WRITESTR (rule R81): the characters as in WRITE, then one zero byte, always. -/
def execWritestr (u : UnitSel) (len : Word16) (payload : List Byte) (s : State) : StepResult :=
  withPayload len payload <|
    fifoCommand .ordinary u s fun F =>
      (pushAll F (payload.take (pushCount s.config len) ++ [0])).map fun F' =>
        (F', success (pushCount s.config len + 1))

end Sys2Proof.Machine
end

