-- ==== Sys2Proof/Machine/Dispatch.lean ====
section
/-! DEFINITION. One arm per command (rule R62): each is one direct call of the command's meaning. -/

namespace Sys2Proof.Machine

open Sys2Proof

/-- The meaning of a command (rules R7, R8). -/
def exec (i : Instr) (s : State) : Host.Outcome State Fault Refusal :=
  match i with
  | .init u size sv => Sys2Proof.Machine.execInit u size sv s
  | .clear u => Sys2Proof.Machine.execClear u s
  | .isempty u => Sys2Proof.Machine.execIsempty u s
  | .totalw u => Sys2Proof.Machine.execTotalw u s
  | .totalr u => Sys2Proof.Machine.execTotalr u s
  | .cap u => Sys2Proof.Machine.execCap u s
  | .islocked u => Sys2Proof.Machine.execIslocked u s
  | .writeb u v => Sys2Proof.Machine.execWriteb u v s
  | .write u len payload => Sys2Proof.Machine.execWrite u len payload s
  | .writestr u len payload => Sys2Proof.Machine.execWritestr u len payload s
  | .read u len => Sys2Proof.Machine.execRead u len s
  | .readb u => Sys2Proof.Machine.execReadb u s
  | .peekb u => Sys2Proof.Machine.execPeekb u s
  | .peekat u idx => Sys2Proof.Machine.execPeekat u idx s
  | .delete u len => Sys2Proof.Machine.execDelete u len s
  | .deleteb u => Sys2Proof.Machine.execDeleteb u s
  | .update u len payload => Sys2Proof.Machine.execUpdate u len payload s
  | .updateat u idx len payload => Sys2Proof.Machine.execUpdateat u idx len payload s
  | .updateb u v => Sys2Proof.Machine.execUpdateb u v s
  | .updatebat u idx v => Sys2Proof.Machine.execUpdatebat u idx v s
  | .lock u => Sys2Proof.Machine.execLock u s
  | .unlock u => Sys2Proof.Machine.execUnlock u s
  | .discard u => Sys2Proof.Machine.execDiscard u s
  | .chInit sizeIn svIn sizeOut svOut => Sys2Proof.Machine.execChInit sizeIn svIn sizeOut svOut s
  | .rx v => Sys2Proof.Machine.execRx v s
  | .avail => Sys2Proof.Machine.execAvail s
  | .chRead len => Sys2Proof.Machine.execChRead len s
  | .chReadall => Sys2Proof.Machine.execChReadall s
  | .chWrite len payload => Sys2Proof.Machine.execChWrite len payload s
  | .chWritestr len payload => Sys2Proof.Machine.execChWritestr len payload s
  | .chClear => Sys2Proof.Machine.execChClear s
  | .irqDis => Sys2Proof.Machine.execIrqDis s
  | .irqEna => Sys2Proof.Machine.execIrqEna s

end Sys2Proof.Machine
end

