-- ==== Sys2Proof/Machine/Ports.lean ====
section
/-! DEFINITION. What reaches the block from outside (rules R51, R111, R123, R129): whose turn it is, taking a command
from the command port, the answer to an illegal word. -/

namespace Sys2Proof.Machine

open Sys2Proof

/-- Whose turn it is, and the state with that turn used up. A byte presented on the producer port while `IRQ_EN = 0`
stays in the interrupt source and the foreground goes on (rules R46, R111, R123; notes/assumptions/5.md). -/
def nextTurn (s : State) : Turn × State :=
  match s.schedule with
  | [] => (.foreground, s)
  | .foreground :: rest => (.foreground, { s with schedule := rest })
  | .reset :: rest => (.reset, { s with schedule := rest })
  | .producer v :: rest => if s.irqEn then (.producer v, { s with schedule := rest }) else (.foreground, s)

/-- The answer to an illegal word: `respond(0, ILLEGAL, 0, [])`, in every phase, and no other change (rule R59). -/
def answerIllegal (s : State) : State := s.answer (failWith .illegal)

/-- The foreground's turn: take one command from the command port and run it (rules R51, R57, R59); with no whole
command on the port the block waits (notes/assumptions/6.md). -/
def foregroundTurn (s : State) : StepResult :=
  match decode s.cmdPort with
  | .command i rest => exec i { s with cmdPort := rest }
  | .illegal _ rest => .next (answerIllegal { s with cmdPort := rest })
  | .incomplete => .next s.silent

/-- One turn of an agent, or a hardware reset. -/
def takeTurn (t : Turn) (s : State) : StepResult :=
  match t with
  | .foreground => foregroundTurn s
  | .producer v => producerRx v s
  | .reset => .next (hardwareReset s)

/-- Put bytes in front of the command port, and give the foreground the next turn. -/
def presentBytes (s : State) (bytes : List Byte) : State :=
  { s with
    cmdPort := bytes ++ s.cmdPort
    schedule := match s.schedule with
      | [] => []
      | t :: ts => .foreground :: t :: ts }

end Sys2Proof.Machine
end

