-- ==== Sys2Proof/Machine/Step.lean ====
section
/-! DEFINITION. One step of the block (rules R7, R44), and the host's way to present one command. -/

namespace Sys2Proof.Machine

open Sys2Proof

/-- One step: the agent whose turn it is acts (rules R6, R7, R44). -/
def step (s : State) : Host.Outcome State Fault Refusal := takeTurn (nextTurn s).1 (nextTurn s).2

/-- `s` with the instruction whose bits are `w` in front of the command port, and the foreground's turn next. -/
def State.withFetchWord (s : State) (nbits w : Nat) : State := presentBytes s (portBytes (tableWord nbits w))

end Sys2Proof.Machine
end

