-- ==== Sys2Proof/Safety.lean ====
section
/-! DEFINITION. The terms claims are stated in: the ranges and the cyclic order of the cursors, the bytes a unit
holds, the invariant of the block, when a unit may be used, and what each command may write. -/

namespace Sys2Proof.Machine

open Sys2Proof

/-! ## One unit -/

/-- The cursor ranges (rules R5, R14, R15): `1 <= N`, and every cursor in `[0, N)`. -/
abbrev Fifo.inRange (F : Fifo) : Prop := 1 ≤ F.N ∧ F.R < F.N ∧ F.W < F.N ∧ ∀ l ∈ F.L, l < F.N

/-- The cyclic order of the cursors (rule R24): from `R` round the ring, `L` comes no later than `W`. -/
abbrev Fifo.ordered (F : Fifo) : Prop := ∀ l ∈ F.L, span F F.R l + span F l F.W = span F F.R F.W

/-- Every byte the unit holds was written since its slot last became reachable (rules R19, R37). -/
abbrev Fifo.stored (F : Fifo) : Prop := ∀ i < written F, (F.mem.find (ea F i)).isSome = true

/-- The storage is in its canonical form, and no slot outside `[0, N)` was written (rules R35, R38). -/
abbrev Fifo.memOk (F : Fifo) : Prop := F.mem.wf = true ∧ ∀ c ∈ F.mem, c.1 < F.N

/-- A `READY` unit of a block with ceiling `maxSize` (rules R5, R13, R14, R15, R19, R24). -/
abbrev Fifo.wf (maxSize : Nat) (F : Fifo) : Prop :=
  F.inRange ∧ F.ordered ∧ F.N ≤ maxSize ∧ F.memOk ∧ F.stored

/-- Cursors in range and a size that fits its 16-bit register (rules R5, R14). -/
abbrev Fifo.legal (F : Fifo) : Prop := F.inRange ∧ F.N ≤ 65535

/-- The bytes a unit holds, oldest first: offsets `0 .. written - 1` from the read cursor (rules R36, R40). -/
def contents (F : Fifo) : List Byte := (List.range (written F)).map fun i => slotByte F (ea F i)

/-- The committed bytes (glossary of rule R12): offsets `0 .. readable - 1`. -/
def committed (F : Fifo) : List Byte := (List.range (readable F)).map fun i => slotByte F (ea F i)

/-- The last `n` bytes of a sequence. -/
def lastBytes (n : Nat) (bs : List Byte) : List Byte := bs.drop (bs.length - n)

/-! ## Responses -/

/-- `respond(1, NONE, v, [])`. -/
def okResponse (v : Nat) : Response := { ok := true, err := .none, val := BitVec.ofNat 16 v, out := [] }

/-- `respond(0, e, 0, [])`. -/
def failResponse (e : Err) : Response := { ok := false, err := e, val := 0, out := [] }

/-- A legal response (rules R60, R61): `ok = 1` iff `err = NONE`; a failure has `val = 0` and no payload-out; where
there is a payload-out, `val` is its length. -/
abbrev Response.wf (r : Response) : Prop :=
  (r.ok = true ↔ r.err = .none) ∧ (r.ok = false → r.val = 0 ∧ r.out = []) ∧ (r.out ≠ [] → r.val.toNat = r.out.length)

/-! ## The block -/

/-- What holds of a unit in any phase: a `READY` unit is well formed; nothing was written to one that is not. -/
abbrev Fifo.ok (maxSize : Nat) (F : Fifo) : Prop :=
  (F.phase = .ready → F.wf maxSize) ∧ (F.phase ≠ .ready → F.mem = [])

/-- The invariant: parameters in range (R5), both units as above, `IN` never locked (R76, R101), a `READY` channel has
`READY` units (R100), a `FAILED` channel has `FAILED` units (R102), the last response is legal (R60). -/
abbrev BlockInv (s : State) : Prop :=
  s.config.wf ∧ s.inb.ok s.config.maxSize ∧ s.outb.ok s.config.maxSize ∧
    (s.inb.phase = .ready → s.inb.L = none) ∧
    (s.chPhase = .ready → s.inb.phase = .ready ∧ s.outb.phase = .ready) ∧
    (s.chPhase = .failed → s.inb.phase = .failed ∧ s.outb.phase = .failed) ∧ ∀ r ∈ s.resp, r.wf

/-- The foreground may use unit `u`: inside a bracket for `IN`, and the unit is `READY` (rule R69 checks 2 and 4). -/
abbrev State.mayUse (s : State) (u : UnitSel) : Prop :=
  (u = .inbound → s.irqEn = false) ∧ (s.unit u).phase = .ready

/-- The spec gives the step no meaning (rule R8). -/
abbrev Refuses (i : Instr) (s : State) : Prop := ∃ r, exec i s = .refused r

/-- Commands issued one after the other by the foreground, or a harness (rules R29, R63). -/
def execAll : List Instr → State → StepResult
  | [], s => .next s
  | i :: is, s =>
    match exec i s with
    | .next t => execAll is t
    | .fault f => .fault f
    | .refused r => .refused r

/-- The same state with other unknown initial storage contents (rule R130). -/
def State.refill (s : State) (k l : Nat) : State :=
  { s with inb := { s.inb with fill := k }, outb := { s.outb with fill := l } }

/-! ## What a command may write (the right column of the table of rule R28) -/

/-- A register or storage of the spec's state (rules R13, R27). -/
inductive Reg where
  | phase (u : UnitSel)
  | size (u : UnitSel)
  | rd (u : UnitSel)
  | wr (u : UnitSel)
  | lk (u : UnitSel)
  | mem (u : UnitSel)
  | irqEn
  | txLog
  | chPhase
  deriving DecidableEq, Repr

/-- The register, or every slot of the storage, is the same in both states. -/
def sameReg (s t : State) : Reg → Prop
  | .phase u => (t.unit u).phase = (s.unit u).phase
  | .size u => (t.unit u).N = (s.unit u).N
  | .rd u => (t.unit u).R = (s.unit u).R
  | .wr u => (t.unit u).W = (s.unit u).W
  | .lk u => (t.unit u).L = (s.unit u).L
  | .mem u => ∀ a, slotByte (t.unit u) a = slotByte (s.unit u) a
  | .irqEn => t.irqEn = s.irqEn
  | .txLog => t.txLog = s.txLog
  | .chPhase => t.chPhase = s.chPhase

/-- What INIT writes of a unit. -/
def initRegs (u : UnitSel) : List Reg := [.phase u, .size u, .rd u, .wr u, .lk u]

/-- What the per-byte path writes of a unit. -/
def pushRegs (u : UnitSel) : List Reg := [.wr u, .mem u, .rd u, .lk u]

/-- The "writes" column of rule R28. -/
def mayWrite : Instr → List Reg
  | .init u _ _ => initRegs u
  | .clear u => [.rd u, .wr u, .lk u]
  | .isempty _ => []
  | .totalw _ => []
  | .totalr _ => []
  | .cap _ => []
  | .islocked _ => []
  | .writeb u _ => pushRegs u
  | .write u _ _ => pushRegs u
  | .writestr u _ _ => pushRegs u
  | .read u _ => [.rd u]
  | .readb u => [.rd u]
  | .peekb _ => []
  | .peekat _ _ => []
  | .delete u _ => [.rd u]
  | .deleteb u => [.rd u]
  | .update u _ _ => [.mem u]
  | .updateat u _ _ _ => [.mem u]
  | .updateb u _ => [.mem u]
  | .updatebat u _ _ => [.mem u]
  | .lock u => [.lk u]
  | .unlock u => [.lk u]
  | .discard u => [.wr u, .lk u]
  | .chInit _ _ _ _ => initRegs .inbound ++ initRegs .outbound ++ [.chPhase]
  | .rx _ => pushRegs .inbound
  | .avail => [.irqEn]
  | .chRead _ => [.rd .inbound, .irqEn] ++ pushRegs .outbound
  | .chReadall => [.rd .inbound, .irqEn] ++ pushRegs .outbound
  | .chWrite _ _ => [.txLog]
  | .chWritestr _ _ => [.txLog]
  | .chClear => [.rd .inbound, .wr .inbound, .lk .inbound, .irqEn]
  | .irqDis => [.irqEn]
  | .irqEna => [.irqEn]

/-- The slots the first `k` pushes into a unit store to: `W, W + 1, ...` round the ring (rules R39, R78). -/
def pushSlots (F : Fifo) (k : Nat) : List Nat := (List.range k).map fun j => (F.W + j) % F.N

/-- The slots an update of `n` bytes at offset `i` stores to (rules R39, R90 to R93). -/
def updateSlots (F : Fifo) (i n : Nat) : List Nat := (List.range n).map fun j => ea F (i + j)

/-! ## Classes of commands (rules R3, R69, R100) -/

/-- The kind and the unit of a FIFO-unit command; `none` for a channel command (rules R3, R69). -/
def fifoClass : Instr → Option (FifoKind × UnitSel)
  | .init u _ _ => some (.init, u)
  | .clear u => some (.ordinary, u)
  | .isempty u => some (.ordinary, u)
  | .totalw u => some (.ordinary, u)
  | .totalr u => some (.ordinary, u)
  | .cap u => some (.ordinary, u)
  | .islocked u => some (.ordinary, u)
  | .writeb u _ => some (.ordinary, u)
  | .write u _ _ => some (.ordinary, u)
  | .writestr u _ _ => some (.ordinary, u)
  | .read u _ => some (.ordinary, u)
  | .readb u => some (.ordinary, u)
  | .peekb u => some (.ordinary, u)
  | .peekat u _ => some (.ordinary, u)
  | .delete u _ => some (.ordinary, u)
  | .deleteb u => some (.ordinary, u)
  | .update u _ _ => some (.ordinary, u)
  | .updateat u _ _ _ => some (.ordinary, u)
  | .updateb u _ => some (.ordinary, u)
  | .updatebat u _ _ => some (.ordinary, u)
  | .lock u => some (.transaction, u)
  | .unlock u => some (.transaction, u)
  | .discard u => some (.transaction, u)
  | .chInit _ _ _ _ => none
  | .rx _ => none
  | .avail => none
  | .chRead _ => none
  | .chReadall => none
  | .chWrite _ _ => none
  | .chWritestr _ _ => none
  | .chClear => none
  | .irqDis => none
  | .irqEna => none

/-- The kind of a channel command; `none` for a FIFO-unit command (rules R3, R100). -/
def channelClass : Instr → Option ChannelKind
  | .chInit _ _ _ _ => some .init
  | .rx _ => some .ordinary
  | .avail => some .ordinary
  | .chRead _ => some .ordinary
  | .chReadall => some .ordinary
  | .chWrite _ _ => some .ordinary
  | .chWritestr _ _ => some .ordinary
  | .chClear => some .ordinary
  | .irqDis => some .irq
  | .irqEna => some .irq
  | .init _ _ _ => none
  | .clear _ => none
  | .isempty _ => none
  | .totalw _ => none
  | .totalr _ => none
  | .cap _ => none
  | .islocked _ => none
  | .writeb _ _ => none
  | .write _ _ _ => none
  | .writestr _ _ _ => none
  | .read _ _ => none
  | .readb _ => none
  | .peekb _ => none
  | .peekat _ _ => none
  | .delete _ _ => none
  | .deleteb _ => none
  | .update _ _ _ => none
  | .updateat _ _ _ _ => none
  | .updateb _ _ => none
  | .updatebat _ _ _ => none
  | .lock _ => none
  | .unlock _ => none
  | .discard _ => none

end Sys2Proof.Machine
end

