-- ==== Sys2Proof/Certificates/Slice0/Obligations.lean ====
section
/-! DEFINITION. The statements for the provers. Each docstring names the rules it formalises. A statement whose
premises ask for cursors in range (`Fifo.inRange`, `Fifo.legal`), the cyclic order (`Fifo.ordered`) or an unlocked `IN`
rules out states that no run reaches: `StepKeepsBlockInv` states that invariant. -/

open Sys2Proof Sys2Proof.Machine

/-! ## Encoding -/

/-- Rules R52 to R57 and R62: what the encoder puts on the port, the decoder reads back, for every well-formed command
and every operand, and it takes exactly those bytes. -/
def Obligations.DecodeOfEncode : Prop :=
  ∀ (i : Instr) (rest : List Byte), i.wf → decode (encode i ++ rest) = .command i rest

/-- Rules R52 to R57 and R62, the other direction: bytes that decode to a command are that command's encoding, so no two
sequences of bytes are the same command. -/
def Obligations.EncodeOfDecode : Prop :=
  ∀ (bs : List Byte) (i : Instr) (rest : List Byte), decode bs = .command i rest → i.wf ∧ bs = encode i ++ rest

/-- Rule R59: a word is illegal exactly when its `op` is none of the 33 values of rule R62 or a bit its format fixes
is not as fixed; then no command has it; and in the foreground's turn it is answered `respond(0, ILLEGAL, 0, [])`, takes
its six bytes and no payload, and changes no state of the block, in every phase. -/
def Obligations.IllegalWordAnswered : Prop :=
  ∀ w : CommandWord,
    ((∀ i : Instr, encodeWord i ≠ w) ↔
      (opOf w ∉ ([0x01, 0x02, 0x03, 0x04, 0x05, 0x06, 0x07, 0x10, 0x11, 0x12, 0x20, 0x21, 0x22, 0x23, 0x30, 0x31, 0x32,
          0x33, 0x34, 0x35, 0x40, 0x41, 0x42, 0x50, 0x51, 0x52, 0x53, 0x54, 0x55, 0x56, 0x57, 0x58, 0x59] : List Byte) ∨
        ∃ row ∈ opcodeMap, row.op = opOf w ∧ w &&& maskOf row.format ≠ matchOf row.op)) ∧
    ∀ (s s' : State) (rest : List Byte),
      (∀ i : Instr, encodeWord i ≠ w) → nextTurn s = (.foreground, s') → s'.cmdPort = bytesOfWord w ++ rest →
        step s = .next { s' with cmdPort := rest, resp := some (failResponse .illegal) }

/-- Rules R52 and R62: words written out from the spec's encoding decode to the command they stand for. -/
def Obligations.SampleWordsDecode : Prop :=
  decode [0x01, 0x03, 0x00, 0x00, 0x00, 0x08] = .command (.init .outbound 8 true) [] ∧
  decode [0x11, 0x01, 0x00, 0x00, 0x00, 0x02, 0xAA, 0xBB] = .command (.write .outbound 2 [0xAA, 0xBB]) [] ∧
  decode [0x23, 0x01, 0xFF, 0xFF, 0x00, 0x00] = .command (.peekat .outbound 0xFFFF) [] ∧
  decode [0x35, 0x01, 0x00, 0x01, 0x00, 0x5A] = .command (.updatebat .outbound 1 0x5A) [] ∧
  decode [0x40, 0x00, 0x00, 0x00, 0x00, 0x00] = .command (.lock .inbound) [] ∧
  decode [0x50, 0x06, 0x00, 0x40, 0x00, 0x20] = .command (.chInit 64 true 32 true) [] ∧
  decode [0x51, 0x00, 0x00, 0x00, 0x00, 0xFF] = .command (.rx 0xFF) []

/-- Rules R52 to R55 and R62: the bytes of every command on the port, byte 0 = `bits[47:40]` first: its operation code,
the byte with `svo`, `sv` and `u`, the two bytes of `idx`, the two of `len` (`val8` is the last), then the payload; every
field a format does not use is 0. -/
def Obligations.BytesOfEveryCommand : Prop :=
  ∀ (u : UnitSel) (idx len : Word16) (v : Byte) (p : List Byte) (sv svo : Bool) (hi lo : Word16 → Byte) (ub svb svob : Byte),
    hi = (fun w => w.extractLsb' 8 8) → lo = (fun w => w.extractLsb' 0 8) →
    ub = (if u = .outbound then 1 else 0) → svb = (if sv then 2 else 0) → svob = (if svo then 4 else 0) →
    (encode (.init u len sv) = [0x01, svb ||| ub, 0, 0, hi len, lo len] ∧
      encode (.clear u) = [0x02, ub, 0, 0, 0, 0] ∧ encode (.isempty u) = [0x03, ub, 0, 0, 0, 0] ∧
      encode (.totalw u) = [0x04, ub, 0, 0, 0, 0] ∧ encode (.totalr u) = [0x05, ub, 0, 0, 0, 0] ∧
      encode (.cap u) = [0x06, ub, 0, 0, 0, 0] ∧ encode (.islocked u) = [0x07, ub, 0, 0, 0, 0]) ∧
    (encode (.writeb u v) = [0x10, ub, 0, 0, 0, v] ∧
      encode (.write u len p) = [0x11, ub, 0, 0, hi len, lo len] ++ p ∧
      encode (.writestr u len p) = [0x12, ub, 0, 0, hi len, lo len] ++ p) ∧
    (encode (.read u len) = [0x20, ub, 0, 0, hi len, lo len] ∧ encode (.readb u) = [0x21, ub, 0, 0, 0, 0] ∧
      encode (.peekb u) = [0x22, ub, 0, 0, 0, 0] ∧ encode (.peekat u idx) = [0x23, ub, hi idx, lo idx, 0, 0]) ∧
    (encode (.delete u len) = [0x30, ub, 0, 0, hi len, lo len] ∧ encode (.deleteb u) = [0x31, ub, 0, 0, 0, 0] ∧
      encode (.update u len p) = [0x32, ub, 0, 0, hi len, lo len] ++ p ∧
      encode (.updateat u idx len p) = [0x33, ub, hi idx, lo idx, hi len, lo len] ++ p ∧
      encode (.updateb u v) = [0x34, ub, 0, 0, 0, v] ∧
      encode (.updatebat u idx v) = [0x35, ub, hi idx, lo idx, 0, v]) ∧
    (encode (.lock u) = [0x40, ub, 0, 0, 0, 0] ∧ encode (.unlock u) = [0x41, ub, 0, 0, 0, 0] ∧
      encode (.discard u) = [0x42, ub, 0, 0, 0, 0]) ∧
    (encode (.chInit idx sv len svo) = [0x50, svob ||| svb, hi idx, lo idx, hi len, lo len] ∧
      encode (.rx v) = [0x51, 0, 0, 0, 0, v] ∧ encode .avail = [0x52, 0, 0, 0, 0, 0] ∧
      encode (.chRead len) = [0x53, 0, 0, 0, hi len, lo len] ∧ encode .chReadall = [0x54, 0, 0, 0, 0, 0] ∧
      encode (.chWrite len p) = [0x55, 0, 0, 0, hi len, lo len] ++ p ∧
      encode (.chWritestr len p) = [0x56, 0, 0, 0, hi len, lo len] ++ p ∧ encode .chClear = [0x57, 0, 0, 0, 0, 0] ∧
      encode .irqDis = [0x58, 0, 0, 0, 0, 0] ∧ encode .irqEna = [0x59, 0, 0, 0, 0, 0])

/-- Rules R7, R51 and R57: in the foreground's turn, when the bytes on the command port decode to `i`, the step is
`exec i` on the state with those bytes taken. The turn is the foreground's when the schedule is used up, when it says
so, and when a byte waits on the producer port while `IRQ_EN = 0`. That whose turn it is stands in a schedule is the
MODEL's form of the spec's arbitrary interleaving (notes/assumptions/5.md). -/
def Obligations.StepRunsDecodedCommand : Prop :=
  ∀ s : State,
    (s.schedule = [] → nextTurn s = (.foreground, s)) ∧
    (∀ ts, s.schedule = .foreground :: ts → nextTurn s = (.foreground, { s with schedule := ts })) ∧
    (∀ v ts, s.schedule = .producer v :: ts → s.irqEn = false → nextTurn s = (.foreground, s)) ∧
    ∀ (s' : State) (i : Instr) (rest : List Byte),
      nextTurn s = (.foreground, s') → decode s'.cmdPort = .command i rest →
        step s = exec i { s' with cmdPort := rest }

/-- The host's way to present one command (the MODEL's own `withFetchWord`, notes/assumptions/8.md): the very next step runs
exactly the command the decoder reads, on the unchanged state, whatever the schedule says. -/
def Obligations.FetchWordRunsCommand : Prop :=
  ∀ (s : State) (w : Nat) (i : Instr), decodeTableWord 48 w = some i → step (s.withFetchWord 48 w) = exec i s

/-- Rule R60: the fields of the response word. -/
def Obligations.ResponseWordFields : Prop :=
  ∀ r : Response,
    (responseWord r).extractLsb' 19 5 = 0 ∧ (responseWord r).getLsbD 18 = r.ok ∧
      (responseWord r).extractLsb' 16 2 = errCode r.err ∧ (responseWord r).extractLsb' 0 16 = r.val ∧
      errCode .none = 0 ∧ errCode .config = 1 ∧ errCode .avail = 2 ∧ errCode .illegal = 3

/-! ## Reset, invariant, stops -/

/-- The invariant holds after hardware reset, for every value of the parameters in range. The values `State.reset` itself
carries for the parameters are the MODEL's choice (notes/assumptions/1.md). -/
def Obligations.ResetMeetsBlockInv : Prop :=
  (∀ c : Config, c.wf → BlockInv (State.resetWith c)) ∧ BlockInv State.reset

/-- Rules R5, R14, R15, R17, R19, R24, R27, R37, R60, R76, R100: from every state that meets the invariant, a step (a
command, an illegal word, a received byte, a hardware reset) leads to one that meets it. -/
def Obligations.StepKeepsBlockInv : Prop := ∀ s t : State, BlockInv s → step s = .next t → BlockInv t

/-- Rules R37, R38 and R118: from a state that meets the invariant no step faults; every storage access names a slot in
`[0, F.N)`. The fault for any other index is the MODEL's (notes/assumptions/10.md). -/
def Obligations.NoStepFaultsUnderBlockInv : Prop := ∀ (s : State) (f : Fault), BlockInv s → step s ≠ .fault f

/-- Rules R33 and R129: a hardware reset puts both units and the channel in phase `RESET`, `IRQ_EN = 0`, `TXLOG = []`,
executes no command, answers nothing and hands nothing to the sink; the state after reset has those values too; and a step
that is not a hardware reset never leaves the phases `READY` and `FAILED`. -/
def Obligations.HardwareResetValues : Prop :=
  (∀ (s : State) (ts : List Turn), s.schedule = .reset :: ts →
    ∃ t, step s = .next t ∧ t.inb.phase = .reset ∧ t.outb.phase = .reset ∧ t.chPhase = .reset ∧ t.irqEn = false ∧
      t.txLog = [] ∧ t.resp = none) ∧
  (State.reset.inb.phase = .reset ∧ State.reset.outb.phase = .reset ∧ State.reset.chPhase = .reset ∧
    State.reset.irqEn = false ∧ State.reset.txLog = []) ∧
  ∀ s t : State, (∀ ts, s.schedule ≠ .reset :: ts) → step s = .next t →
    (∀ u, (s.unit u).phase ≠ .reset → (t.unit u).phase = (s.unit u).phase) ∧
      (s.chPhase ≠ .reset → t.chPhase = s.chPhase)

/-! ## Cursors and counts -/

/-- Rules R10 and R11: advancing a cursor by `k` is `k` applications of `inc`, equal to `(c + k) mod N`; `span` is the
cyclic distance, in `[0, N - 1]`. -/
def Obligations.CursorArithmetic : Prop :=
  ∀ F : Fifo, 1 ≤ F.N →
    (∀ c, inc F c = (c + 1) % F.N) ∧ (∀ c < F.N, ∀ k, (inc F)^[k] c = (c + k) % F.N) ∧
      ∀ r < F.N, ∀ w < F.N,
        span F r w = (if r ≤ w then w - r else w + F.N - r) ∧ span F r w ≤ F.N - 1 ∧
          span F r w = (w + F.N - r) % F.N

/-- Rules R17, R18, R20 to R22: the depth is at most `N - 1`; the unit is empty iff `R = W`; `readable <= written`, equal
when unlocked; when locked they differ by the tentative bytes. -/
def Obligations.CountsOfUnit : Prop :=
  ∀ F : Fifo, F.inRange → F.ordered →
    written F ≤ F.N - 1 ∧ (written F = 0 ↔ F.R = F.W) ∧ (emptyFlag F = true ↔ F.R = F.W) ∧ readable F ≤ written F ∧
      (F.L = none → readable F = written F) ∧ (∀ l, F.L = some l → written F - readable F = span F l F.W) ∧
      (F.N = 1 → written F = 0)

/-- Rule R78: `push` stores at the write cursor and advances it; in a full unit it also evicts the oldest byte, moving the
lock cursor with the read cursor when it sits on the evicted slot; the counts change as the rule says; every other slot,
the size and the phase are as before. -/
def Obligations.PushStoresAdvancesEvicts : Prop :=
  ∀ (F : Fifo) (b : Byte), F.inRange →
    ∃ F', push F b = some F' ∧ F'.W = inc F F.W ∧ F'.N = F.N ∧ F'.phase = F.phase ∧ slotByte F' F.W = b ∧
      (∀ a, a ≠ F.W → slotByte F' a = slotByte F a) ∧
      (written F = F.N - 1 →
        F'.R = inc F F.R ∧ F'.L = (if F.L = some F.R then some (inc F F.R) else F.L) ∧ written F' = F.N - 1) ∧
      (written F ≠ F.N - 1 → F'.R = F.R ∧ F'.L = F.L ∧ written F' = written F + 1) ∧
      (F.L = none → readable F' = written F') ∧
      ∀ l, F.L = some l → readable F' = if written F = F.N - 1 then readable F - 1 else readable F

/-- Rules R25, R78 and R82 (b): after any run of pushes the unit holds the last `N - 1` bytes of what it held and what was
pushed, in order. -/
def Obligations.PushesKeepNewestBytes : Prop :=
  ∀ (F : Fifo) (bs : List Byte), F.inRange →
    ∃ F', pushAll F bs = some F' ∧ F'.inRange ∧ F'.N = F.N ∧
      contents F' = lastBytes (F.N - 1) (contents F ++ bs)

/-- Rule R31: the status outputs, exact in their 16 bits, of a unit in phase `READY`; the phases and `IRQ_EN` always. That the
other outputs of a unit that is not `READY` are `none` is the MODEL's form of the rule's "unspecified" (DEDUCED,
notes/assumptions/13.md). -/
def Obligations.StatusOutputsShowState : Prop :=
  ∀ s : State,
    (statusOutputs s).irqEn = s.irqEn ∧ (statusOutputs s).chPhase = phaseCode s.chPhase ∧
    (statusOutputs s).phaseIn = phaseCode s.inb.phase ∧ (statusOutputs s).phaseOut = phaseCode s.outb.phase ∧
    phaseCode .reset = 0 ∧ phaseCode .ready = 1 ∧ phaseCode .failed = 2 ∧
    (statusOutputs s).unitIn = unitOutputs s.inb ∧ (statusOutputs s).unitOut = unitOutputs s.outb ∧
    ∀ F : Fifo, (F.phase ≠ .ready → unitOutputs F = none) ∧
      (F.phase = .ready → F.legal → F.ordered →
        ∃ o, unitOutputs F = some o ∧ o.size.toNat = F.N ∧ o.usable.toNat = F.N - 1 ∧ o.rcur.toNat = F.R ∧
          o.wcur.toNat = F.W ∧ (o.locked = true ↔ F.L ≠ none) ∧ (F.L = none → o.lcur = 0) ∧
          (∀ l, F.L = some l → o.lcur.toNat = l) ∧ (o.empty = true ↔ F.R = F.W) ∧
          (o.full = true ↔ written F = F.N - 1) ∧ o.depth.toNat = written F ∧ o.readable.toNat = readable F)

/-! ## Family 40 -/

/-- Rule R70: INIT. Refused unless admitted; fails with `CONFIG` and only the phase changes; else the unit is empty,
unlocked, `READY`, of the given size, its storage not written. -/
def Obligations.InitOutcome : Prop :=
  ∀ (u : UnitSel) (size : Word16) (sv : Bool) (s : State),
    (¬ ((u = .inbound → s.irqEn = false) ∧ (s.unit u).phase = .reset) → Refuses (.init u size sv) s) ∧
    ((u = .inbound → s.irqEn = false) → (s.unit u).phase = .reset →
      (sv = false ∨ size.toNat = 0 ∨ s.config.maxSize < size.toNat →
        exec (.init u size sv) s =
          .next ({ s with resp := some (failResponse .config) }.setUnit u { s.unit u with phase := .failed })) ∧
      (sv = true → 1 ≤ size.toNat → size.toNat ≤ s.config.maxSize →
        exec (.init u size sv) s =
          .next ({ s with resp := some (okResponse 0) }.setUnit u
            { s.unit u with N := size.toNat, R := 0, W := 0, L := none, phase := .ready })))

/-- Rule R71: CLEAR. The cursors become 0 and the lock is dropped; size, storage and phase are as before; a second CLEAR
changes nothing. -/
def Obligations.ClearEmptiesUnit : Prop :=
  ∀ (u : UnitSel) (s : State),
    (¬ s.mayUse u → Refuses (.clear u) s) ∧
    (s.mayUse u →
      ∃ t, exec (.clear u) s = .next t ∧
        t = { s with resp := some (okResponse 0) }.setUnit u { s.unit u with R := 0, W := 0, L := none } ∧
        emptyFlag (t.unit u) = true ∧ lockedFlag (t.unit u) = false ∧
        (∀ a, slotByte (t.unit u) a = slotByte (s.unit u) a) ∧ exec (.clear u) t = .next t)

/-- Rules R72 to R76: ISEMPTY, TOTALW, TOTALR, CAP, ISLOCKED answer from the cursors and change nothing else. -/
def Obligations.QueriesAnswer : Prop :=
  ∀ (u : UnitSel) (s : State),
    (¬ s.mayUse u →
      Refuses (.isempty u) s ∧ Refuses (.totalw u) s ∧ Refuses (.totalr u) s ∧ Refuses (.cap u) s ∧
        Refuses (.islocked u) s) ∧
    (s.mayUse u →
      exec (.isempty u) s =
        .next { s with resp := some (okResponse (if (s.unit u).R = (s.unit u).W then 1 else 0)) } ∧
      exec (.islocked u) s = .next { s with resp := some (okResponse (if (s.unit u).L = none then 0 else 1)) } ∧
      ((s.unit u).legal →
        exec (.totalw u) s =
          .next { s with resp := some (okResponse (span (s.unit u) (s.unit u).R (s.unit u).W)) } ∧
        exec (.totalr u) s =
          .next { s with resp := some (okResponse (span (s.unit u) (s.unit u).R
            (match (s.unit u).L with | some l => l | none => (s.unit u).W))) } ∧
        exec (.cap u) s = .next { s with resp := some (okResponse ((s.unit u).N - 1)) }))

/-! ## Family 41 -/

/-- Rule R79: WRITEB is one push, never fails and answers 0; the unit then holds the newest `N - 1` bytes. -/
def Obligations.WritebPushes : Prop :=
  ∀ (u : UnitSel) (v : Byte) (s : State),
    (¬ s.mayUse u → Refuses (.writeb u v) s) ∧
    (s.mayUse u → (s.unit u).inRange →
      ∃ F', push (s.unit u) v = some F' ∧
        exec (.writeb u v) s = .next ({ s with resp := some (okResponse 0) }.setUnit u F') ∧
        contents F' = lastBytes ((s.unit u).N - 1) (contents (s.unit u) ++ [v]) ∧
        ∀ a, a ≠ (s.unit u).W → slotByte F' a = slotByte (s.unit u) a)

/-- Rule R80: WRITE pushes the first `k = min(len, MAX_SIZE)` payload bytes in order, never fails and answers `k`; the unit
then holds the newest `N - 1` bytes; no slot but the `k` from the write cursor on is written. -/
def Obligations.WritePushesPayload : Prop :=
  ∀ (u : UnitSel) (len : Word16) (p : List Byte) (s : State), p.length = len.toNat →
    (¬ s.mayUse u → Refuses (.write u len p) s) ∧
    (s.mayUse u → (s.unit u).inRange →
      ∃ F', pushAll (s.unit u) (p.take (min len.toNat s.config.maxSize)) = some F' ∧
        exec (.write u len p) s =
          .next ({ s with resp := some (okResponse (min len.toNat s.config.maxSize)) }.setUnit u F') ∧
        contents F' =
          lastBytes ((s.unit u).N - 1) (contents (s.unit u) ++ p.take (min len.toNat s.config.maxSize)) ∧
        ∀ a, a ∉ pushSlots (s.unit u) (min len.toNat s.config.maxSize) → slotByte F' a = slotByte (s.unit u) a)

/-- Rule R81: WRITESTR pushes the first `k` characters and then one zero byte, always; it never fails and answers `k + 1`.
Where `k + 1` does not fit in `val` (16 bits) the spec states no value and the model's is free
(notes/assumptions/4.md): there only the other fields of the response are stated. -/
def Obligations.WritestrPushesTerminated : Prop :=
  ∀ (u : UnitSel) (len : Word16) (p : List Byte) (s : State), p.length = len.toNat →
    (¬ s.mayUse u → Refuses (.writestr u len p) s) ∧
    (s.mayUse u → (s.unit u).inRange →
      ∃ F' t v, pushAll (s.unit u) (p.take (min len.toNat s.config.maxSize) ++ [0]) = some F' ∧
        exec (.writestr u len p) s = .next t ∧
        t = { s with resp := some { ok := true, err := .none, val := v, out := [] }, fresh := t.fresh }.setUnit u F' ∧
        (min len.toNat s.config.maxSize + 1 < 65536 →
          v.toNat = min len.toNat s.config.maxSize + 1 ∧ t.fresh = s.fresh) ∧
        contents F' =
          lastBytes ((s.unit u).N - 1) (contents (s.unit u) ++ (p.take (min len.toNat s.config.maxSize) ++ [0])) ∧
        ∀ a, a ∉ pushSlots (s.unit u) (min len.toNat s.config.maxSize + 1) →
          slotByte F' a = slotByte (s.unit u) a)

/-! ## Family 42 -/

/-- Rule R84: READ transfers exactly `n` bytes, the oldest first, and advances the read cursor by `n`; on an empty unit, or
with `n > readable`, it fails with `AVAIL` and changes nothing. -/
def Obligations.ReadTakesOldest : Prop :=
  ∀ (u : UnitSel) (n : Word16) (s : State),
    (¬ s.mayUse u → Refuses (.read u n) s) ∧
    (s.mayUse u → (s.unit u).inRange → (s.unit u).ordered →
      ((s.unit u).R = (s.unit u).W ∨ readable (s.unit u) < n.toNat →
        exec (.read u n) s = .next { s with resp := some (failResponse .avail) }) ∧
      ((s.unit u).R ≠ (s.unit u).W → n.toNat ≤ readable (s.unit u) →
        ∃ F', F' = { s.unit u with R := ((s.unit u).R + n.toNat) % (s.unit u).N } ∧
          exec (.read u n) s =
            .next ({ s with
              resp := some { ok := true, err := .none, val := n, out := (contents (s.unit u)).take n.toNat }
              }.setUnit u F') ∧
          contents F' = (contents (s.unit u)).drop n.toNat ∧ readable F' = readable (s.unit u) - n.toNat))

/-- Rule R85: READB pops the oldest byte into `val`, or fails with `AVAIL` and changes nothing. -/
def Obligations.ReadbPopsOldest : Prop :=
  ∀ (u : UnitSel) (s : State),
    (¬ s.mayUse u → Refuses (.readb u) s) ∧
    (s.mayUse u → (s.unit u).inRange → (s.unit u).ordered →
      (readable (s.unit u) = 0 → exec (.readb u) s = .next { s with resp := some (failResponse .avail) }) ∧
      (readable (s.unit u) ≠ 0 →
        ∃ b bs F', contents (s.unit u) = b :: bs ∧
          F' = { s.unit u with R := ((s.unit u).R + 1) % (s.unit u).N } ∧ contents F' = bs ∧
          exec (.readb u) s = .next ({ s with resp := some (okResponse b.toNat) }.setUnit u F')))

/-- Rules R86 and R87: PEEKB and PEEKAT answer the byte at the offset, tentative bytes among them, or fail with `AVAIL`;
they change nothing. -/
def Obligations.PeeksShowHeldBytes : Prop :=
  ∀ (u : UnitSel) (idx : Word16) (s : State),
    (¬ s.mayUse u → Refuses (.peekb u) s ∧ Refuses (.peekat u idx) s) ∧
    (s.mayUse u → (s.unit u).inRange →
      (written (s.unit u) = 0 → exec (.peekb u) s = .next { s with resp := some (failResponse .avail) }) ∧
      (∀ b, (contents (s.unit u))[0]? = some b →
        exec (.peekb u) s = .next { s with resp := some (okResponse b.toNat) }) ∧
      (written (s.unit u) ≤ idx.toNat →
        exec (.peekat u idx) s = .next { s with resp := some (failResponse .avail) }) ∧
      (idx.toNat < written (s.unit u) →
        ∃ b, (contents (s.unit u))[idx.toNat]? = some b ∧
          exec (.peekat u idx) s = .next { s with resp := some (okResponse b.toNat) }))

/-! ## Family 43 -/

/-- Rules R88 and R89: DELETE and DELETEB advance the read cursor over readable bytes without reading them, or fail with
`AVAIL` and change nothing. -/
def Obligations.DeletesDropOldest : Prop :=
  ∀ (u : UnitSel) (n : Word16) (s : State),
    (¬ s.mayUse u → Refuses (.delete u n) s ∧ Refuses (.deleteb u) s) ∧
    (s.mayUse u →
      (readable (s.unit u) < n.toNat →
        exec (.delete u n) s = .next { s with resp := some (failResponse .avail) }) ∧
      (n.toNat ≤ readable (s.unit u) →
        exec (.delete u n) s =
          .next ({ s with resp := some (okResponse 0) }.setUnit u
            { s.unit u with R := ((s.unit u).R + n.toNat) % (s.unit u).N })) ∧
      (readable (s.unit u) = 0 → exec (.deleteb u) s = .next { s with resp := some (failResponse .avail) }) ∧
      (readable (s.unit u) ≠ 0 →
        exec (.deleteb u) s =
          .next ({ s with resp := some (okResponse 0) }.setUnit u
            { s.unit u with R := ((s.unit u).R + 1) % (s.unit u).N })) ∧
      ((s.unit u).inRange → (s.unit u).ordered → n.toNat ≤ readable (s.unit u) →
        contents { s.unit u with R := ((s.unit u).R + n.toNat) % (s.unit u).N } =
          (contents (s.unit u)).drop n.toNat))

/-- Rules R90 and R91: UPDATE and UPDATEAT overwrite committed bytes in place, all or none; the sum `index + len` is over the
naturals; no cursor moves, and no slot but those of the updated offsets is written. -/
def Obligations.UpdatesOverwriteCommitted : Prop :=
  ∀ (u : UnitSel) (idx len : Word16) (p : List Byte) (s : State), p.length = len.toNat →
    (¬ s.mayUse u → Refuses (.update u len p) s ∧ Refuses (.updateat u idx len p) s) ∧
    (s.mayUse u → (s.unit u).inRange → (s.unit u).ordered →
      (readable (s.unit u) < len.toNat →
        exec (.update u len p) s = .next { s with resp := some (failResponse .avail) }) ∧
      (len.toNat ≤ readable (s.unit u) →
        ∃ m, exec (.update u len p) s =
            .next ({ s with resp := some (okResponse 0) }.setUnit u { s.unit u with mem := m }) ∧
          contents { s.unit u with mem := m } = p ++ (contents (s.unit u)).drop len.toNat ∧
          ∀ a, a ∉ updateSlots (s.unit u) 0 len.toNat →
            slotByte { s.unit u with mem := m } a = slotByte (s.unit u) a) ∧
      (readable (s.unit u) < idx.toNat + len.toNat →
        exec (.updateat u idx len p) s = .next { s with resp := some (failResponse .avail) }) ∧
      (idx.toNat + len.toNat ≤ readable (s.unit u) →
        ∃ m, exec (.updateat u idx len p) s =
            .next ({ s with resp := some (okResponse 0) }.setUnit u { s.unit u with mem := m }) ∧
          contents { s.unit u with mem := m } =
            (contents (s.unit u)).take idx.toNat ++ p ++ (contents (s.unit u)).drop (idx.toNat + len.toNat) ∧
          ∀ a, a ∉ updateSlots (s.unit u) idx.toNat len.toNat →
            slotByte { s.unit u with mem := m } a = slotByte (s.unit u) a))

/-- Rules R92 and R93: UPDATEB and UPDATEBAT overwrite one committed byte in place, or fail with `AVAIL`. -/
def Obligations.ByteUpdatesOverwriteCommitted : Prop :=
  ∀ (u : UnitSel) (idx : Word16) (v : Byte) (s : State),
    (¬ s.mayUse u → Refuses (.updateb u v) s ∧ Refuses (.updatebat u idx v) s) ∧
    (s.mayUse u → (s.unit u).inRange → (s.unit u).ordered →
      (readable (s.unit u) = 0 → exec (.updateb u v) s = .next { s with resp := some (failResponse .avail) }) ∧
      (readable (s.unit u) ≠ 0 →
        ∃ m, exec (.updateb u v) s =
            .next ({ s with resp := some (okResponse 0) }.setUnit u { s.unit u with mem := m }) ∧
          contents { s.unit u with mem := m } = (contents (s.unit u)).set 0 v ∧
          ∀ a, a ≠ (s.unit u).R → slotByte { s.unit u with mem := m } a = slotByte (s.unit u) a) ∧
      (readable (s.unit u) ≤ idx.toNat →
        exec (.updatebat u idx v) s = .next { s with resp := some (failResponse .avail) }) ∧
      (idx.toNat < readable (s.unit u) →
        ∃ m, exec (.updatebat u idx v) s =
            .next ({ s with resp := some (okResponse 0) }.setUnit u { s.unit u with mem := m }) ∧
          contents { s.unit u with mem := m } = (contents (s.unit u)).set idx.toNat v ∧
          ∀ a, a ≠ ea (s.unit u) idx.toNat → slotByte { s.unit u with mem := m } a = slotByte (s.unit u) a))

/-! ## Family 44 -/

/-- Rule R95: LOCK on `OUT` marks the write position, also when already locked; on `IN` it is refused. -/
def Obligations.LockMarksWritePosition : Prop :=
  ∀ s : State,
    exec (.lock .inbound) s = .refused .lockOnInbound ∧
    (s.outb.phase ≠ .ready → exec (.lock .outbound) s = .refused .notReady) ∧
    (s.outb.phase = .ready →
      exec (.lock .outbound) s =
        .next { s with outb := { s.outb with L := some s.outb.W }, resp := some (okResponse 0) } ∧
      readable { s.outb with L := some s.outb.W } = written s.outb)

/-- Rule R96: UNLOCK on `OUT` commits: every byte held becomes readable; on `IN` it is refused. -/
def Obligations.UnlockCommits : Prop :=
  ∀ s : State,
    exec (.unlock .inbound) s = .refused .lockOnInbound ∧
    (s.outb.phase ≠ .ready → exec (.unlock .outbound) s = .refused .notReady) ∧
    (s.outb.phase = .ready →
      exec (.unlock .outbound) s = .next { s with outb := { s.outb with L := none }, resp := some (okResponse 0) } ∧
      readable { s.outb with L := none } = written s.outb)

/-- Rule R97: DISCARD on `OUT` rewinds the write cursor to the lock cursor's current value and clears the lock; unlocked, it
changes nothing; afterwards the unit holds the committed bytes; on `IN` it is refused. -/
def Obligations.DiscardRollsBack : Prop :=
  ∀ s : State,
    exec (.discard .inbound) s = .refused .lockOnInbound ∧
    (s.outb.phase ≠ .ready → exec (.discard .outbound) s = .refused .notReady) ∧
    (s.outb.phase = .ready →
      (s.outb.L = none → exec (.discard .outbound) s = .next { s with resp := some (okResponse 0) }) ∧
      (∀ l, s.outb.L = some l →
        exec (.discard .outbound) s =
            .next { s with outb := { s.outb with W := l, L := none }, resp := some (okResponse 0) } ∧
          written { s.outb with W := l, L := none } = readable s.outb ∧
          contents { s.outb with W := l, L := none } = committed s.outb))

/-! ## Family 45 -/

/-- Rule R102: CH_INIT. With bad arguments for either unit both units and the channel are `FAILED`; else both are empty,
unlocked and `READY`, and so is the channel; the storages, `IRQ_EN` and `TXLOG` are as before. -/
def Obligations.ChInitOutcome : Prop :=
  ∀ (sizeIn : Word16) (svIn : Bool) (sizeOut : Word16) (svOut : Bool) (s : State),
    (¬ (s.irqEn = false ∧ s.chPhase = .reset ∧ s.inb.phase = .reset ∧ s.outb.phase = .reset) →
      Refuses (.chInit sizeIn svIn sizeOut svOut) s) ∧
    (s.irqEn = false → s.chPhase = .reset → s.inb.phase = .reset → s.outb.phase = .reset →
      (svIn = false ∨ sizeIn.toNat = 0 ∨ s.config.maxSize < sizeIn.toNat ∨
          svOut = false ∨ sizeOut.toNat = 0 ∨ s.config.maxSize < sizeOut.toNat →
        exec (.chInit sizeIn svIn sizeOut svOut) s =
          .next { s with
            inb := { s.inb with phase := .failed }, outb := { s.outb with phase := .failed }, chPhase := .failed
            resp := some (failResponse .config) }) ∧
      (svIn = true → 1 ≤ sizeIn.toNat → sizeIn.toNat ≤ s.config.maxSize →
        svOut = true → 1 ≤ sizeOut.toNat → sizeOut.toNat ≤ s.config.maxSize →
        exec (.chInit sizeIn svIn sizeOut svOut) s =
          .next { s with
            inb := { s.inb with N := sizeIn.toNat, R := 0, W := 0, L := none, phase := .ready }
            outb := { s.outb with N := sizeOut.toNat, R := 0, W := 0, L := none, phase := .ready }
            chPhase := .ready
            resp := some (okResponse 0) }))

/-- Rules R63 and R101: RX on the command port pushes the byte into `IN`, whatever `IRQ_EN` is, and is answered
`respond(1, NONE, 0, [])`; nothing else changes. -/
def Obligations.RxPushesIntoInbound : Prop :=
  ∀ (v : Byte) (s : State),
    (s.chPhase ≠ .ready → exec (.rx v) s = .refused .notReady) ∧
    (s.chPhase = .ready → s.inb.inRange →
      ∃ F', push s.inb v = some F' ∧ exec (.rx v) s = .next { s with inb := F', resp := some (okResponse 0) } ∧
        contents F' = lastBytes (s.inb.N - 1) (contents s.inb ++ [v]) ∧
        ∀ a, a ≠ s.inb.W → slotByte F' a = slotByte s.inb a)

/-- Rules R101, R111, R120 and R123: a byte presented on the producer port is taken only while `IRQ_EN = 1`: it is pushed
into `IN`, with no response, and refused where the channel is not `READY`; while `IRQ_EN = 0` the turn is the foreground's,
on the whole unchanged state, the step is the foreground's own, and the byte stays where it is (the MODEL's form of rule R123's "the RX waits in the interrupt source", notes/assumptions/5.md). -/
def Obligations.ProducerActsOnlyWhenEnabled : Prop :=
  ∀ (v : Byte) (ts : List Turn) (s : State), s.schedule = .producer v :: ts →
    (s.irqEn = true → s.chPhase ≠ .ready → step s = .refused .notReady) ∧
    (s.irqEn = true → s.chPhase = .ready → s.inb.inRange →
      ∃ F', push s.inb v = some F' ∧ step s = .next { s with inb := F', schedule := ts, resp := none }) ∧
    (s.irqEn = false →
      nextTurn s = (.foreground, s) ∧ step s = foregroundTurn s ∧
        ∀ t, step s = .next t → t.schedule = .producer v :: ts)

/-- Rule R103: AVAIL answers the depth of `IN` and leaves `IRQ_EN = 1`, also when it was 0. -/
def Obligations.AvailCountsInbound : Prop :=
  ∀ s : State,
    (s.chPhase ≠ .ready → exec .avail s = .refused .notReady) ∧
    (s.chPhase = .ready → s.inb.legal →
      exec .avail s = .next { s with irqEn := true, resp := some (okResponse (written s.inb)) })

/-- Rule R104: CH_READ moves the oldest `c = min(n, readable(IN))` bytes of `IN` into `OUT` in order, answers `c`, never
fails, and leaves `IRQ_EN = 1`. -/
def Obligations.ChReadMovesBytes : Prop :=
  ∀ (n : Word16) (s : State),
    (s.chPhase ≠ .ready → exec (.chRead n) s = .refused .notReady) ∧
    (s.chPhase = .ready → s.inb.legal → s.inb.L = none → s.outb.inRange →
      ∃ c I O, c = min n.toNat (readable s.inb) ∧ I = { s.inb with R := (s.inb.R + c) % s.inb.N } ∧
        pushAll s.outb ((contents s.inb).take c) = some O ∧
        exec (.chRead n) s =
          .next { s with inb := I, outb := O, irqEn := true, resp := some (okResponse c) } ∧
        contents I = (contents s.inb).drop c ∧
        contents O = lastBytes (s.outb.N - 1) (contents s.outb ++ (contents s.inb).take c) ∧
        (∀ a, slotByte I a = slotByte s.inb a) ∧
        ∀ a, a ∉ pushSlots s.outb c → slotByte O a = slotByte s.outb a)

/-- Rule R105: CH_READALL moves every byte of `IN` into `OUT` in order, answers their number and leaves `IN` empty and
`IRQ_EN = 1`. -/
def Obligations.ChReadallDrainsInbound : Prop :=
  ∀ s : State,
    (s.chPhase ≠ .ready → exec .chReadall s = .refused .notReady) ∧
    (s.chPhase = .ready → s.inb.legal → s.inb.L = none → s.outb.inRange →
      ∃ I O, I = { s.inb with R := s.inb.W } ∧ pushAll s.outb (contents s.inb) = some O ∧
        exec .chReadall s =
          .next { s with inb := I, outb := O, irqEn := true, resp := some (okResponse (written s.inb)) } ∧
        contents I = [] ∧ contents O = lastBytes (s.outb.N - 1) (contents s.outb ++ contents s.inb) ∧
        (∀ a, slotByte I a = slotByte s.inb a) ∧
        ∀ a, a ∉ pushSlots s.outb (written s.inb) → slotByte O a = slotByte s.outb a)

/-- Rule R106: CH_WRITE hands the payload to the sink in order and always succeeds; nothing else changes. -/
def Obligations.ChWriteReachesSink : Prop :=
  ∀ (len : Word16) (p : List Byte) (s : State), p.length = len.toNat →
    (s.chPhase ≠ .ready → exec (.chWrite len p) s = .refused .notReady) ∧
    (s.chPhase = .ready →
      exec (.chWrite len p) s = .next { s with txLog := s.txLog ++ p, resp := some (okResponse 0) })

/-- Rule R107: CH_WRITESTR hands the characters to the sink, and a zero byte after them exactly when the parameter
`TX_STR_NUL` says so; nothing else changes. -/
def Obligations.ChWritestrReachesSink : Prop :=
  ∀ (len : Word16) (p : List Byte) (s : State), p.length = len.toNat →
    (s.chPhase ≠ .ready → exec (.chWritestr len p) s = .refused .notReady) ∧
    (s.chPhase = .ready →
      (s.config.txStrNul = true →
        exec (.chWritestr len p) s =
          .next { s with txLog := s.txLog ++ p ++ [0], resp := some (okResponse 0) }) ∧
      (s.config.txStrNul = false →
        exec (.chWritestr len p) s = .next { s with txLog := s.txLog ++ p, resp := some (okResponse 0) }))

/-- Rule R108: CH_CLEAR empties `IN`, touches neither `OUT` nor a storage nor `TXLOG`, and leaves `IRQ_EN = 1`. -/
def Obligations.ChClearEmptiesInbound : Prop :=
  ∀ s : State,
    (s.chPhase ≠ .ready → exec .chClear s = .refused .notReady) ∧
    (s.chPhase = .ready →
      exec .chClear s =
        .next { s with
          inb := { s.inb with R := 0, W := 0, L := none }, irqEn := true, resp := some (okResponse 0) })

/-- Rules R109 and R110: IRQ_DIS and IRQ_ENA write the one bit, in every phase, and nothing else. -/
def Obligations.IrqCommandsWriteMask : Prop :=
  ∀ s : State,
    exec .irqDis s = .next { s with irqEn := false, resp := some (okResponse 0) } ∧
      exec .irqEna s = .next { s with irqEn := true, resp := some (okResponse 0) }

/-! ## Rules about all commands -/

/-- Rule R69: admission of the 23 FIFO-unit commands: the checks in their order, and no other refusal. -/
def Obligations.FifoCommandAdmission : Prop :=
  ∀ (i : Instr) (k : FifoKind) (u : UnitSel) (s : State), fifoClass i = some (k, u) → i.wf →
    (u = .inbound → k = .transaction → exec i s = .refused .lockOnInbound) ∧
    (u = .inbound → k ≠ .transaction → s.irqEn = true → exec i s = .refused .unbracketedInbound) ∧
    ((u = .inbound → k ≠ .transaction ∧ s.irqEn = false) →
      (k = .init → (s.unit u).phase ≠ .reset → exec i s = .refused .reInit) ∧
      (k ≠ .init → (s.unit u).phase ≠ .ready → exec i s = .refused .notReady) ∧
      (k = .init → (s.unit u).phase = .reset → ∀ r, exec i s ≠ .refused r) ∧
      (k ≠ .init → (s.unit u).phase = .ready → ∀ r, exec i s ≠ .refused r))

/-- Rule R100: admission of the 10 channel commands. -/
def Obligations.ChannelCommandAdmission : Prop :=
  ∀ (i : Instr) (k : ChannelKind) (s : State), channelClass i = some k → i.wf →
    (k = .irq → ∀ r, exec i s ≠ .refused r) ∧
    (k = .init → s.irqEn = true → exec i s = .refused .unbracketedInbound) ∧
    (k = .init → s.irqEn = false → (s.chPhase ≠ .reset ∨ s.inb.phase ≠ .reset ∨ s.outb.phase ≠ .reset) →
      exec i s = .refused .reInit) ∧
    (k = .init → s.irqEn = false → s.chPhase = .reset → s.inb.phase = .reset → s.outb.phase = .reset →
      ∀ r, exec i s ≠ .refused r) ∧
    (k = .ordinary → s.chPhase ≠ .ready → exec i s = .refused .notReady) ∧
    (k = .ordinary → s.chPhase = .ready → ∀ r, exec i s ≠ .refused r)

/-- Rules R55 and R56: exactly the six payload commands have a payload, and a record whose payload length is not `len` is
refused with `BadPayload`; a well-formed command never is. -/
def Obligations.BadPayloadRefused : Prop :=
  ∀ (i : Instr) (s : State),
    (¬ i.wf → exec i s = .refused .badPayload) ∧ (i.wf → exec i s ≠ .refused .badPayload) ∧
      (i.payload?.isSome = true ↔
        (∃ u len p, i = .write u len p) ∨ (∃ u len p, i = .writestr u len p) ∨ (∃ u len p, i = .update u len p) ∨
          (∃ u idx len p, i = .updateat u idx len p) ∨ (∃ len p, i = .chWrite len p) ∨
          ∃ len p, i = .chWritestr len p)

/-- Rules R8 and R117: a step is refused for one of the five reasons of the closed list only, and `BadPayload` never on the
port. -/
def Obligations.RefusalsAreClosed : Prop :=
  (∀ (i : Instr) (s : State) (r : Refusal), exec i s = .refused r →
    r ∈ [.notReady, .reInit, .lockOnInbound, .unbracketedInbound, .badPayload]) ∧
  ∀ (s : State) (r : Refusal), step s = .refused r → r ∈ [.notReady, .reInit, .lockOnInbound, .unbracketedInbound]

/-- Rules R8 (a), R60 and R114: a failing response has `val = 0` and no payload-out and is `CONFIG` or `AVAIL`; after `AVAIL`
no state has changed at all; `CONFIG` comes from INIT and CH_INIT only. A successful one has `err = NONE`, and only READ has
a payload-out. -/
def Obligations.FailuresChangeNothing : Prop :=
  ∀ (i : Instr) (s t : State), exec i s = .next t →
    ∃ r, t.resp = some r ∧ (r.ok = true ↔ r.err = .none) ∧ r.err ≠ .illegal ∧
      (r.ok = false → r.val = 0 ∧ r.out = []) ∧ (r.err = .avail → t = { s with resp := some r }) ∧
      (r.err = .config →
        (∃ u size sv, i = .init u size sv) ∨ ∃ sizeIn svIn sizeOut svOut, i = .chInit sizeIn svIn sizeOut svOut) ∧
      (r.out ≠ [] → ∃ u n, i = .read u n)

/-- Rules R115 and R116: the commands of the last row of the table never fail, evicting or not. -/
def Obligations.AlwaysSafeCommandsSucceed : Prop :=
  ∀ (i : Instr) (s t : State), exec i s = .next t →
    ((∃ u, i ∈ [.clear u, .isempty u, .totalw u, .totalr u, .cap u, .islocked u, .lock u, .unlock u, .discard u]) ∨
      (∃ u v, i = .writeb u v) ∨ (∃ u len p, i = .write u len p) ∨ (∃ u len p, i = .writestr u len p) ∨
      (∃ v, i = .rx v) ∨ (∃ n, i = .chRead n) ∨ (∃ len p, i = .chWrite len p) ∨ (∃ len p, i = .chWritestr len p) ∨
      i ∈ [.avail, .chReadall, .chClear, .irqDis, .irqEna]) →
    ∃ r, t.resp = some r ∧ r.ok = true ∧ r.err = .none

/-- Rule R28, the "writes" column: whatever the state, a command leaves every register and storage that its row does not name
as it was, slot for slot; and no command changes the parameters, the ports or the schedule. -/
def Obligations.CommandsWriteOnlyTheirRegisters : Prop :=
  ∀ (i : Instr) (s t : State), exec i s = .next t →
    (∀ r, r ∉ mayWrite i → sameReg s t r) ∧ t.config = s.config ∧ t.cmdPort = s.cmdPort ∧ t.schedule = s.schedule

/-- Rule R112 (a): after AVAIL, CH_READ, CH_READALL or CH_CLEAR, `IRQ_EN = 1`. -/
def Obligations.BracketEndsEnabled : Prop :=
  ∀ (n : Word16) (s t : State),
    (exec .avail s = .next t ∨ exec (.chRead n) s = .next t ∨ exec .chReadall s = .next t ∨
      exec .chClear s = .next t) → t.irqEn = true

/-- Rules R27, R106 and R107: `TXLOG` only ever grows at its end between resets, and only by CH_WRITE and CH_WRITESTR. -/
def Obligations.TxLogOnlyGrows : Prop :=
  ∀ (i : Instr) (s t : State), exec i s = .next t →
    ∃ bs, t.txLog = s.txLog ++ bs ∧ (bs ≠ [] → (∃ len p, i = .chWrite len p) ∨ ∃ len p, i = .chWritestr len p)

/-- Rule R66: the commands that are special cases of others. -/
def Obligations.SpecialCasesAgree : Prop :=
  ∀ (u : UnitSel) (s : State), s.mayUse u → (s.unit u).inRange → (s.unit u).ordered → 1 ≤ s.config.maxSize →
    (∀ len p, exec (.update u len p) s = exec (.updateat u 0 len p) s) ∧
    (∀ v, exec (.updateb u v) s = exec (.updatebat u 0 v) s) ∧
    exec (.peekb u) s = exec (.peekat u 0) s ∧ exec (.deleteb u) s = exec (.delete u 1) s ∧
    (∀ v, ∃ t r, exec (.writeb u v) s = .next t ∧ exec (.write u 1 [v]) s = .next { t with resp := r }) ∧
    ∃ t r, exec (.readb u) s = .next t ∧ exec (.read u 1) s = .next { t with resp := r }

/-! ## Protocols -/

/-- Rule R98: a transaction without eviction on an unlocked `OUT`. The tentative bytes are held but not readable; UNLOCK makes
them readable; DISCARD restores the counts, the contents and the write position of before. -/
def Obligations.TransactionCommitsOrRollsBack : Prop :=
  ∀ (s : State) (len : Word16) (p : List Byte), s.outb.phase = .ready → s.outb.inRange → s.outb.L = none →
    p.length = len.toNat → len.toNat ≤ s.config.maxSize → written s.outb + len.toNat ≤ s.outb.N - 1 →
    ∃ t, execAll [.lock .outbound, .write .outbound len p] s = .next t ∧
      readable t.outb = readable s.outb ∧ written t.outb = written s.outb + len.toNat ∧
      committed t.outb = contents s.outb ∧ contents t.outb = contents s.outb ++ p ∧
      (∃ c, exec (.unlock .outbound) t = .next c ∧ readable c.outb = readable s.outb + len.toNat ∧
        committed c.outb = contents s.outb ++ p) ∧
      ∃ d, exec (.discard .outbound) t = .next d ∧ written d.outb = written s.outb ∧
        readable d.outb = readable s.outb ∧ d.outb.W = s.outb.W ∧ d.outb.L = none ∧ contents d.outb = contents s.outb

/-- Rule R99: in a locked unit, pushes that do not fit evict committed bytes first, one each; the committed bytes that
survive are what DISCARD leaves. -/
def Obligations.OverflowEvictsCommittedFirst : Prop :=
  ∀ (F : Fifo) (bs : List Byte), F.inRange → F.ordered → F.L ≠ none →
    ∃ F', pushAll F bs = some F' ∧ F'.L ≠ none ∧ F'.inRange ∧ F'.ordered ∧
      committed F' = (committed F).drop (written F + bs.length - (F.N - 1)) ∧
      written F' = min (written F + bs.length) (F.N - 1)

/-- The round trip of rule R84 (T3 of 95_test_vectors.md): what WRITE puts into an empty unlocked unit, READ of that length
returns, and the unit is empty again. -/
def Obligations.WriteThenReadRoundTrip : Prop :=
  ∀ (u : UnitSel) (s : State) (len : Word16) (p : List Byte), s.mayUse u → (s.unit u).inRange → (s.unit u).L = none →
    (s.unit u).R = (s.unit u).W → p.length = len.toNat → 1 ≤ len.toNat → len.toNat ≤ (s.unit u).N - 1 →
    len.toNat ≤ s.config.maxSize →
    ∃ t, execAll [.write u len p, .read u len] s = .next t ∧
      t.resp = some { ok := true, err := .none, val := len, out := p } ∧ contents (t.unit u) = []

/-- Rule R112 (c): bytes received into an empty `IN` that fit, then CH_READALL into an empty unlocked `OUT` that has room:
exactly those bytes arrive in order, and `IN` is empty. -/
def Obligations.ReceivedBytesReachOutbound : Prop :=
  ∀ (s : State) (bs : List Byte), s.chPhase = .ready → s.inb.legal → s.inb.L = none → s.inb.R = s.inb.W →
    s.outb.inRange → s.outb.L = none → s.outb.R = s.outb.W → bs.length ≤ s.inb.N - 1 → bs.length ≤ s.outb.N - 1 →
    ∃ t, execAll (bs.map .rx ++ [.chReadall]) s = .next t ∧ t.resp = some (okResponse bs.length) ∧
      contents t.inb = [] ∧ contents t.outb = bs ∧ committed t.outb = bs ∧ t.irqEn = true

/-- Rules R19, R37 and R130: from a state that meets the invariant, the unknown initial content of the storages reaches no
response and no register: with other contents, the same step answers the same. -/
def Obligations.InitialStorageNeverShows : Prop :=
  ∀ (s t : State) (k l : Nat), BlockInv s → step s = .next t →
    ∃ k' l', step (s.refill k l) = .next (t.refill k' l')

/-- The MODEL's choice (notes/assumptions/6.md; rule R51 gives no handshake): whenever the turn is the foreground's and the
command port holds less than the command needs, the step takes no byte and changes nothing but that there is no response.
That is so exactly with fewer bytes than a word, and with a legal word and fewer payload bytes than its `len`. -/
def Obligations.IncompleteCommandWaits : Prop :=
  (∀ s s' : State, nextTurn s = (.foreground, s') → decode s'.cmdPort = .incomplete →
    step s = .next { s' with resp := none }) ∧
  ∀ bs : List Byte,
    decode bs = .incomplete ↔
      bs.length < 6 ∨
        ∃ (w : CommandWord) (rest : List Byte) (row : Row), bs = bytesOfWord w ++ rest ∧ decodeWord w = .ok row ∧
          row.takesPayload = true ∧ rest.length < (lenOf w).toNat
end

