-- ==== Sys2Proof/Laws/State.lean ====
section
/-! SUPPORT. One lemma per field per update of the state and of a unit, true by `rfl`. -/

namespace Sys2Proof.Machine

open Sys2Proof

/-! ## Units of a state -/

@[simp] theorem unit_inbound (s : State) : s.unit .inbound = s.inb := rfl
@[simp] theorem unit_outbound (s : State) : s.unit .outbound = s.outb := rfl
@[simp] theorem setUnit_inbound (s : State) (F : Fifo) : s.setUnit .inbound F = { s with inb := F } := rfl
@[simp] theorem setUnit_outbound (s : State) (F : Fifo) : s.setUnit .outbound F = { s with outb := F } := rfl

@[simp] theorem setUnit_unit (s : State) (u : UnitSel) (F : Fifo) : (s.setUnit u F).unit u = F := by cases u <;> rfl

theorem setUnit_unit_ne (s : State) {u v : UnitSel} (F : Fifo) (h : v ≠ u) : (s.setUnit u F).unit v = s.unit v := by
  cases u <;> cases v <;> first | rfl | exact absurd rfl h

@[simp] theorem setUnit_self (s : State) (u : UnitSel) : s.setUnit u (s.unit u) = s := by cases u <;> rfl
@[simp] theorem setUnit_irqEn (s : State) (u : UnitSel) (F : Fifo) : (s.setUnit u F).irqEn = s.irqEn := by
  cases u <;> rfl
@[simp] theorem setUnit_txLog (s : State) (u : UnitSel) (F : Fifo) : (s.setUnit u F).txLog = s.txLog := by
  cases u <;> rfl
@[simp] theorem setUnit_chPhase (s : State) (u : UnitSel) (F : Fifo) : (s.setUnit u F).chPhase = s.chPhase := by
  cases u <;> rfl
@[simp] theorem setUnit_config (s : State) (u : UnitSel) (F : Fifo) : (s.setUnit u F).config = s.config := by
  cases u <;> rfl
@[simp] theorem setUnit_cmdPort (s : State) (u : UnitSel) (F : Fifo) : (s.setUnit u F).cmdPort = s.cmdPort := by
  cases u <;> rfl
@[simp] theorem setUnit_schedule (s : State) (u : UnitSel) (F : Fifo) : (s.setUnit u F).schedule = s.schedule := by
  cases u <;> rfl
@[simp] theorem setUnit_resp (s : State) (u : UnitSel) (F : Fifo) : (s.setUnit u F).resp = s.resp := by
  cases u <;> rfl
@[simp] theorem setUnit_fresh (s : State) (u : UnitSel) (F : Fifo) : (s.setUnit u F).fresh = s.fresh := by
  cases u <;> rfl

/-! ## Answering -/

/-- An answer whose result fits in `val` writes the response and nothing else. -/
theorem answer_of_fits (s : State) (r : Reply) (h : r.val < 65536) :
    s.answer r =
      { s with
        resp := some { ok := decide (r.err = .none), err := r.err, val := BitVec.ofNat 16 r.val, out := r.out } } := by
  simp [State.answer, h]

@[simp] theorem answer_inb (s : State) (r : Reply) : (s.answer r).inb = s.inb := by unfold State.answer; split <;> rfl
@[simp] theorem answer_outb (s : State) (r : Reply) : (s.answer r).outb = s.outb := by
  unfold State.answer; split <;> rfl
@[simp] theorem answer_unit (s : State) (r : Reply) (u : UnitSel) : (s.answer r).unit u = s.unit u := by
  cases u <;> simp
@[simp] theorem answer_irqEn (s : State) (r : Reply) : (s.answer r).irqEn = s.irqEn := by
  unfold State.answer; split <;> rfl
@[simp] theorem answer_txLog (s : State) (r : Reply) : (s.answer r).txLog = s.txLog := by
  unfold State.answer; split <;> rfl
@[simp] theorem answer_chPhase (s : State) (r : Reply) : (s.answer r).chPhase = s.chPhase := by
  unfold State.answer; split <;> rfl
@[simp] theorem answer_config (s : State) (r : Reply) : (s.answer r).config = s.config := by
  unfold State.answer; split <;> rfl
@[simp] theorem answer_cmdPort (s : State) (r : Reply) : (s.answer r).cmdPort = s.cmdPort := by
  unfold State.answer; split <;> rfl
@[simp] theorem answer_schedule (s : State) (r : Reply) : (s.answer r).schedule = s.schedule := by
  unfold State.answer; split <;> rfl

/-- Every answer puts a response on the port, with the reply's class and payload-out. -/
theorem answer_resp (s : State) (r : Reply) :
    ∃ v, (s.answer r).resp = some { ok := decide (r.err = .none), err := r.err, val := v, out := r.out } := by
  unfold State.answer; split <;> exact ⟨_, rfl⟩

@[simp] theorem answer_failWith (s : State) (e : Err) (h : e ≠ .none) :
    s.answer (failWith e) = { s with resp := some (failResponse e) } := by
  simp [answer_of_fits, failWith, failResponse, h]

@[simp] theorem silent_inb (s : State) : s.silent.inb = s.inb := rfl
@[simp] theorem silent_outb (s : State) : s.silent.outb = s.outb := rfl
@[simp] theorem silent_irqEn (s : State) : s.silent.irqEn = s.irqEn := rfl
@[simp] theorem silent_txLog (s : State) : s.silent.txLog = s.txLog := rfl
@[simp] theorem silent_chPhase (s : State) : s.silent.chPhase = s.chPhase := rfl
@[simp] theorem silent_config (s : State) : s.silent.config = s.config := rfl
@[simp] theorem silent_resp (s : State) : s.silent.resp = none := rfl

/-! ## Updates of one unit -/

@[simp] theorem cleared_mem (F : Fifo) : (cleared F).mem = F.mem := rfl
@[simp] theorem cleared_N (F : Fifo) : (cleared F).N = F.N := rfl
@[simp] theorem cleared_R (F : Fifo) : (cleared F).R = 0 := rfl
@[simp] theorem cleared_W (F : Fifo) : (cleared F).W = 0 := rfl
@[simp] theorem cleared_L (F : Fifo) : (cleared F).L = none := rfl
@[simp] theorem cleared_phase (F : Fifo) : (cleared F).phase = F.phase := rfl
@[simp] theorem cleared_fill (F : Fifo) : (cleared F).fill = F.fill := rfl
@[simp] theorem initialised_mem (F : Fifo) (n : Nat) : (initialised F n).mem = F.mem := rfl
@[simp] theorem initialised_N (F : Fifo) (n : Nat) : (initialised F n).N = n := rfl
@[simp] theorem initialised_R (F : Fifo) (n : Nat) : (initialised F n).R = 0 := rfl
@[simp] theorem initialised_W (F : Fifo) (n : Nat) : (initialised F n).W = 0 := rfl
@[simp] theorem initialised_L (F : Fifo) (n : Nat) : (initialised F n).L = none := rfl
@[simp] theorem initialised_phase (F : Fifo) (n : Nat) : (initialised F n).phase = .ready := rfl
@[simp] theorem initFailed_mem (F : Fifo) : (initFailed F).mem = F.mem := rfl
@[simp] theorem initFailed_phase (F : Fifo) : (initFailed F).phase = .failed := rfl
@[simp] theorem advanceRead_mem (F : Fifo) (n : Nat) : (advanceRead F n).mem = F.mem := rfl
@[simp] theorem advanceRead_N (F : Fifo) (n : Nat) : (advanceRead F n).N = F.N := rfl
@[simp] theorem advanceRead_R (F : Fifo) (n : Nat) : (advanceRead F n).R = (F.R + n) % F.N := rfl
@[simp] theorem advanceRead_W (F : Fifo) (n : Nat) : (advanceRead F n).W = F.W := rfl
@[simp] theorem advanceRead_L (F : Fifo) (n : Nat) : (advanceRead F n).L = F.L := rfl
@[simp] theorem advanceRead_phase (F : Fifo) (n : Nat) : (advanceRead F n).phase = F.phase := rfl
@[simp] theorem advanceRead_fill (F : Fifo) (n : Nat) : (advanceRead F n).fill = F.fill := rfl
@[simp] theorem advanceWrite_mem (F : Fifo) : (advanceWrite F).mem = F.mem := by
  unfold advanceWrite; split <;> rfl
@[simp] theorem advanceWrite_N (F : Fifo) : (advanceWrite F).N = F.N := by unfold advanceWrite; split <;> rfl
@[simp] theorem advanceWrite_W (F : Fifo) : (advanceWrite F).W = inc F F.W := by
  unfold advanceWrite; split <;> rfl
@[simp] theorem advanceWrite_phase (F : Fifo) : (advanceWrite F).phase = F.phase := by
  unfold advanceWrite; split <;> rfl
@[simp] theorem advanceWrite_fill (F : Fifo) : (advanceWrite F).fill = F.fill := by
  unfold advanceWrite; split <;> rfl
@[simp] theorem discarded_mem (F : Fifo) : (discarded F).mem = F.mem := by unfold discarded; split <;> rfl
@[simp] theorem discarded_N (F : Fifo) : (discarded F).N = F.N := by unfold discarded; split <;> rfl
@[simp] theorem discarded_R (F : Fifo) : (discarded F).R = F.R := by unfold discarded; split <;> rfl
@[simp] theorem discarded_W (F : Fifo) : (discarded F).W = eff F := by
  unfold discarded eff; split <;> simp_all
@[simp] theorem discarded_L (F : Fifo) : (discarded F).L = none := by unfold discarded; split <;> simp_all
@[simp] theorem discarded_phase (F : Fifo) : (discarded F).phase = F.phase := by unfold discarded; split <;> rfl

end Sys2Proof.Machine
end

