-- ==== Sys2Proof/Laws/Memory.lean ====
section
/-! SUPPORT. The laws of the storage (rules R37, R38): read after write, every other slot as before, and every
operation keeps the canonical form. -/

namespace Sys2Proof.Machine

open Sys2Proof

@[simp] theorem find_nil (a : Nat) : Memory.find [] a = none := rfl

@[simp] theorem find_set_self (m : Memory) (a : Nat) (v : Byte) : (m.set a v).find a = some v := by
  induction m with
  | nil => simp [Memory.set, Memory.find]
  | cons c rest ih =>
    unfold Memory.set
    split
    · simp [Memory.find]
    · split
      · simp [Memory.find]
      · rename_i h
        rw [Memory.find, if_neg fun e => h e.symm, ih]

theorem find_set_ne (m : Memory) {a b : Nat} (v : Byte) (h : b ≠ a) : (m.set a v).find b = m.find b := by
  have h' : ¬ a = b := fun e => h e.symm
  induction m with
  | nil => simp [Memory.set, Memory.find, h']
  | cons c rest ih =>
    unfold Memory.set
    split
    · simp [Memory.find, h']
    · split
      · rename_i e
        simp [Memory.find, h', ← e]
      · simp [Memory.find, ih]

theorem find_set (m : Memory) (a b : Nat) (v : Byte) :
    (m.set a v).find b = if b = a then some v else m.find b := by
  split
  · subst_vars; simp
  · exact find_set_ne m v ‹_›

/-- A slot listed after a write is the written slot or was listed before. -/
theorem mem_set {m : Memory} {a : Nat} {v : Byte} {c : Host.Cell} (h : c ∈ m.set a v) : c = (a, v) ∨ c ∈ m := by
  induction m with
  | nil => simpa [Memory.set] using h
  | cons d rest ih =>
    unfold Memory.set at h
    split at h
    · simpa using h
    · split at h
      · rcases List.mem_cons.1 h with h | h
        · exact .inl h
        · exact .inr (List.mem_cons_of_mem _ h)
      · rcases List.mem_cons.1 h with h | h
        · exact .inr (by simp [h])
        · rcases ih h with h | h
          · exact .inl h
          · exact .inr (List.mem_cons_of_mem _ h)

/-- The canonical form of `c :: m` says that `m` has it and that its first slot lies above `c`. -/
theorem wf_cons (c : Host.Cell) (m : Memory) :
    Memory.wf (c :: m) = true ↔ m.wf = true ∧ ∀ d ∈ m.head?, c.1 < d.1 := by
  cases m with
  | nil => simp [Memory.wf]
  | cons d rest => simp [Memory.wf, and_comm]

theorem head_set (m : Memory) (a : Nat) (v : Byte) :
    ∀ d ∈ (m.set a v).head?, d.1 = a ∨ ∃ e ∈ m.head?, d.1 = e.1 := by
  cases m with
  | nil => simp [Memory.set]
  | cons c rest =>
    unfold Memory.set
    split
    · simp
    · split <;> simp

/-- A write keeps the canonical form. -/
theorem wf_set {m : Memory} (h : m.wf = true) (a : Nat) (v : Byte) : (m.set a v).wf = true := by
  induction m with
  | nil => rfl
  | cons c rest ih =>
    rw [wf_cons] at h
    unfold Memory.set
    split
    · rw [wf_cons, wf_cons]
      exact ⟨h, by simpa⟩
    · split
      · rename_i e
        rw [wf_cons]
        exact ⟨h.1, fun d hd => by rw [e]; exact h.2 d hd⟩
      · rw [wf_cons]
        refine ⟨ih h.1, fun d hd => ?_⟩
        rcases head_set rest a v d hd with e | ⟨e, he, e'⟩
        · omega
        · rw [e']; exact h.2 e he

/-- The reset storage has the canonical form. -/
theorem wf_nil : Memory.wf [] = true := rfl

theorem memRead_eq {F : Fifo} {a : Nat} (h : a < F.N) : memRead F a = some (slotByte F a) := by simp [memRead, h]

theorem memWrite_eq {F : Fifo} {a : Nat} (h : a < F.N) (v : Byte) :
    memWrite F a v = some { F with mem := F.mem.set a v } := by simp [memWrite, h]

/-- All that MemRead can do: answer the byte of an existing slot. -/
theorem memRead_some {F : Fifo} {a : Nat} {b : Byte} (h : memRead F a = some b) : a < F.N ∧ b = slotByte F a := by
  unfold memRead at h
  split at h
  · exact ⟨‹_›, by simpa using h.symm⟩
  · cases h

/-- All that MemWrite can do: set one existing slot. -/
theorem memWrite_some {F F' : Fifo} {a : Nat} {v : Byte} (h : memWrite F a v = some F') :
    a < F.N ∧ F' = { F with mem := F.mem.set a v } := by
  unfold memWrite at h
  split at h
  · exact ⟨‹_›, by simpa using h.symm⟩
  · cases h

/-- Rule R38: the written slot holds the written byte, every other slot is as before. -/
theorem slotByte_set (F : Fifo) (a b : Nat) (v : Byte) :
    slotByte { F with mem := F.mem.set a v } b = if b = a then v else slotByte F b := by
  unfold slotByte
  simp only [find_set]
  split <;> simp

end Sys2Proof.Machine
end

