-- ==== Sys2Proof/Laws/Cursor.lean ====
section
/-! SUPPORT. Cursor arithmetic (rules R10, R11, R36) and the counts (rules R17, R20 to R24). -/

namespace Sys2Proof.Machine

open Sys2Proof

theorem mod_of_lt_two_mul {a n : Nat} (h : a < 2 * n) : a % n = if a < n then a else a - n := by
  split
  · exact Nat.mod_eq_of_lt ‹_›
  · rw [Nat.mod_eq_sub_mod (by omega), Nat.mod_eq_of_lt (by omega)]

theorem inc_eq {F : Fifo} {c : Nat} (h : c < F.N) : inc F c = if c + 1 = F.N then 0 else c + 1 := by
  unfold inc
  rw [mod_of_lt_two_mul (by omega)]
  split <;> split <;> omega

theorem inc_lt {F : Fifo} (h : 1 ≤ F.N) (c : Nat) : inc F c < F.N := Nat.mod_lt _ h

theorem ea_lt {F : Fifo} (h : 1 ≤ F.N) (i : Nat) : ea F i < F.N := Nat.mod_lt _ h

theorem ea_eq {F : Fifo} {i : Nat} (hR : F.R < F.N) (hi : i < F.N) :
    ea F i = if F.R + i < F.N then F.R + i else F.R + i - F.N := mod_of_lt_two_mul (by omega)

theorem ea_zero {F : Fifo} (hR : F.R < F.N) : ea F 0 = F.R := by simp [ea, Nat.mod_eq_of_lt hR]

/-- Two offsets below `N` name one slot only if they are equal. -/
theorem ea_inj {F : Fifo} (hR : F.R < F.N) {i j : Nat} (hi : i < F.N) (hj : j < F.N) (h : ea F i = ea F j) : i = j := by
  rw [ea_eq hR hi, ea_eq hR hj] at h
  split at h <;> split at h <;> omega

theorem span_lt {F : Fifo} {r w : Nat} (hr : r < F.N) (hw : w < F.N) : span F r w < F.N := by
  unfold span; split <;> omega

@[simp] theorem span_self (F : Fifo) (r : Nat) : span F r r = 0 := by simp [span]

theorem span_eq_zero {F : Fifo} {r w : Nat} (hr : r < F.N) : span F r w = 0 ↔ r = w := by
  unfold span; split <;> omega

/-- `span` is the cyclic distance (rule R11). -/
theorem span_eq_mod {F : Fifo} {r w : Nat} (hr : r < F.N) (hw : w < F.N) : span F r w = (w + F.N - r) % F.N := by
  rw [mod_of_lt_two_mul (by omega)]
  unfold span
  split <;> split <;> omega

/-- Going `span` slots on from `r` one is at `w`. -/
theorem add_span {F : Fifo} {r w : Nat} (hr : r < F.N) (hw : w < F.N) : (r + span F r w) % F.N = w := by
  have := span_lt hr hw
  rw [mod_of_lt_two_mul (by omega)]
  unfold span at *
  split <;> split <;> split at this <;> omega

/-- `span` depends on a unit only through its size. -/
theorem span_congr {F G : Fifo} (h : F.N = G.N) (r w : Nat) : span F r w = span G r w := by simp [span, h]

theorem eff_none {F : Fifo} (h : F.L = none) : eff F = F.W := by simp [eff, h]

theorem eff_some {F : Fifo} {l : Nat} (h : F.L = some l) : eff F = l := by simp [eff, h]

theorem eff_lt {F : Fifo} (h : F.inRange) : eff F < F.N := by
  cases hL : F.L with
  | none => rw [eff_none hL]; exact h.2.2.1
  | some l => rw [eff_some hL]; exact h.2.2.2 l hL

theorem written_lt {F : Fifo} (h : F.inRange) : written F < F.N := span_lt h.2.1 h.2.2.1

theorem readable_lt {F : Fifo} (h : F.inRange) : readable F < F.N := span_lt h.2.1 (eff_lt h)

theorem readable_unlocked {F : Fifo} (h : F.L = none) : readable F = written F := by
  simp [readable, written, eff_none h]

/-- `readable <= written` (rule R22). -/
theorem readable_le_written {F : Fifo} (ho : F.ordered) : readable F ≤ written F := by
  cases hL : F.L with
  | none => rw [readable_unlocked hL]
  | some l =>
    have := ho l hL
    simp only [readable, written, eff_some hL]
    omega

theorem written_eq_zero {F : Fifo} (h : F.inRange) : written F = 0 ↔ F.R = F.W := span_eq_zero h.2.1

/-- The slot behind the held bytes is the write cursor's. -/
theorem ea_written {F : Fifo} (h : F.inRange) : ea F (written F) = F.W := add_span h.2.1 h.2.2.1

/-- The slot of a held byte is not the write cursor's. -/
theorem ea_ne_W {F : Fifo} (h : F.inRange) {i : Nat} (hi : i < written F) : ea F i ≠ F.W := by
  have := written_lt h
  rw [← ea_written h]
  exact fun e => by have := ea_inj h.2.1 (by omega) (by omega) e; omega

/-- Moving the read cursor by `n` moves every offset by `n`. -/
theorem ea_advanceRead (F : Fifo) (n i : Nat) : ea (advanceRead F n) i = ea F (n + i) := by
  simp [ea, Nat.add_assoc]

/-- Moving the read cursor toward `w` shortens the span. -/
theorem span_advance {F : Fifo} {w n : Nat} (hR : F.R < F.N) (hw : w < F.N) (hn : n ≤ span F F.R w) :
    span F ((F.R + n) % F.N) w = span F F.R w - n := by
  have := span_lt hR hw
  rw [mod_of_lt_two_mul (by omega)]
  unfold span at *
  split_ifs at * <;> omega

theorem written_advanceRead {F : Fifo} (h : F.inRange) {n : Nat} (hn : n ≤ written F) :
    written (advanceRead F n) = written F - n := span_advance (F := F) h.2.1 h.2.2.1 hn

theorem eff_advanceRead (F : Fifo) (n : Nat) : eff (advanceRead F n) = eff F := rfl

theorem readable_advanceRead {F : Fifo} (h : F.inRange) {n : Nat} (hn : n ≤ readable F) :
    readable (advanceRead F n) = readable F - n := by
  have he := eff_lt h
  exact span_advance (F := F) h.2.1 he hn

theorem inRange_advanceRead {F : Fifo} (h : F.inRange) (n : Nat) : (advanceRead F n).inRange :=
  ⟨h.1, Nat.mod_lt _ h.1, h.2.2.1, h.2.2.2⟩

theorem ordered_advanceRead {F : Fifo} (h : F.inRange) (ho : F.ordered) {n : Nat} (hn : n ≤ readable F) :
    (advanceRead F n).ordered := by
  intro l hl
  have hl' : F.L = some l := hl
  have h1 := readable_advanceRead h hn
  have h2 := written_advanceRead h (Nat.le_trans hn (readable_le_written ho))
  have h3 := ho l hl
  simp only [readable, written, eff_advanceRead, eff_some hl', advanceRead_W] at h1 h2 hn
  have e : ∀ r w, span (advanceRead F n) r w = span F r w := span_congr rfl
  simp only [e, advanceRead_W] at *
  omega

/-- One step of the read cursor is an advance by 1. -/
theorem advanceRead_one (F : Fifo) : { F with R := inc F F.R } = advanceRead F 1 := rfl

theorem slotByte_advanceRead (F : Fifo) (n a : Nat) : slotByte (advanceRead F n) a = slotByte F a := rfl

theorem stored_advanceRead {F : Fifo} (h : F.inRange) (hs : F.stored) {n : Nat} (hn : n ≤ written F) :
    (advanceRead F n).stored := by
  intro i hi
  rw [written_advanceRead h hn] at hi
  rw [ea_advanceRead, advanceRead_mem]
  exact hs _ (by omega)

theorem wf_advanceRead {m : Nat} {F : Fifo} (h : F.wf m) {n : Nat} (hn : n ≤ readable F) : (advanceRead F n).wf m :=
  ⟨inRange_advanceRead h.1 n, ordered_advanceRead h.1 h.2.1 hn, h.2.2.1, h.2.2.2.1,
    stored_advanceRead h.1 h.2.2.2.2 (Nat.le_trans hn (readable_le_written h.2.1))⟩

theorem contents_length (F : Fifo) : (contents F).length = written F := by simp [contents]

theorem contents_getElem {F : Fifo} {i : Nat} (h : i < (contents F).length) :
    (contents F)[i] = slotByte F (ea F i) := by simp [contents]

theorem committed_length (F : Fifo) : (committed F).length = readable F := by simp [committed]

/-- The committed bytes are the first of the held bytes. -/
theorem committed_eq_take {F : Fifo} (ho : F.ordered) : committed F = (contents F).take (readable F) := by
  have := readable_le_written ho
  simp [committed, contents, ← List.map_take, List.take_range, Nat.min_eq_left this]

theorem contents_advanceRead {F : Fifo} (h : F.inRange) {n : Nat} (hn : n ≤ written F) :
    contents (advanceRead F n) = (contents F).drop n := by
  apply List.ext_getElem
  · simp [contents, written_advanceRead h hn]
  · intro i h1 h2
    simp [contents, ea_advanceRead, slotByte_advanceRead]

end Sys2Proof.Machine
end

