-- ==== Sys2Proof/Laws/Push.lean ====
section
/-! SUPPORT. The per-byte path (rule R78): what one push, and a run of pushes, does to a unit whose cursors are in
range. -/

namespace Sys2Proof.Machine

open Sys2Proof

/-- The unit `push` leaves when its write cursor is in range. -/
def pushed (F : Fifo) (b : Byte) : Fifo := advanceWrite { F with mem := F.mem.set F.W b }

theorem push_eq {F : Fifo} (h : F.W < F.N) (b : Byte) : push F b = some (pushed F b) := by
  simp [push, memWrite_eq h, pushed]

/-- All that `push` can do. -/
theorem push_some {F F' : Fifo} {b : Byte} (h : push F b = some F') : F.W < F.N ∧ F' = pushed F b := by
  unfold push at h
  cases hm : memWrite F F.W b with
  | none => simp [hm] at h
  | some G =>
    obtain ⟨hW, rfl⟩ := memWrite_some hm
    simp only [hm, Option.map_some, Option.some.injEq] at h
    exact ⟨hW, h.symm⟩

@[simp] theorem pushed_N (F : Fifo) (b : Byte) : (pushed F b).N = F.N := by simp [pushed]
@[simp] theorem pushed_W (F : Fifo) (b : Byte) : (pushed F b).W = inc F F.W := by simp [pushed, inc]
@[simp] theorem pushed_mem (F : Fifo) (b : Byte) : (pushed F b).mem = F.mem.set F.W b := by simp [pushed]
@[simp] theorem pushed_phase (F : Fifo) (b : Byte) : (pushed F b).phase = F.phase := by simp [pushed]
@[simp] theorem pushed_fill (F : Fifo) (b : Byte) : (pushed F b).fill = F.fill := by simp [pushed]

/-- The new read cursor: it moves only on a collision. -/
theorem pushed_R (F : Fifo) (b : Byte) : (pushed F b).R = if inc F F.W = F.R then inc F F.R else F.R := by
  by_cases h : inc F F.W = F.R
  · have h' : (F.W + 1) % F.N = F.R := h
    simp [pushed, advanceWrite, evict, inc, h']
  · have h' : ¬ (F.W + 1) % F.N = F.R := h
    simp [pushed, advanceWrite, inc, h']

/-- The new lock cursor: it moves only on a collision on its own slot. -/
theorem pushed_L (F : Fifo) (b : Byte) :
    (pushed F b).L = if inc F F.W = F.R ∧ F.L = some F.R then some (inc F F.R) else F.L := by
  by_cases h : inc F F.W = F.R
  · have h' : (F.W + 1) % F.N = F.R := h
    simp [pushed, advanceWrite, evict, inc, h']
  · have h' : ¬ (F.W + 1) % F.N = F.R := h
    simp [pushed, advanceWrite, inc, h']

theorem pushed_unlocked {F : Fifo} (h : F.L = none) (b : Byte) : (pushed F b).L = none := by simp [pushed_L, h]

/-- A collision is a push into a full unit. -/
theorem collision_iff_full {F : Fifo} (h : F.inRange) : inc F F.W = F.R ↔ written F = F.N - 1 := by
  obtain ⟨hN, hR, hW, _⟩ := h
  rw [inc_eq hW]
  unfold written span
  split_ifs <;> omega

theorem inRange_pushed {F : Fifo} (h : F.inRange) (b : Byte) : (pushed F b).inRange := by
  refine ⟨by simpa using h.1, ?_, by simpa using inc_lt h.1 _, ?_⟩
  · rw [pushed_R, pushed_N]
    split
    · exact inc_lt h.1 _
    · exact h.2.1
  · intro l hl
    rw [pushed_L] at hl
    rw [pushed_N]
    split at hl
    · simp only [Option.mem_def, Option.some.injEq] at hl
      exact hl ▸ inc_lt h.1 _
    · exact h.2.2.2 l hl

theorem span_pushed (F : Fifo) (b : Byte) (r w : Nat) : span (pushed F b) r w = span F r w := span_congr (by simp) r w

theorem inc_pushed (F : Fifo) (b : Byte) (c : Nat) : inc (pushed F b) c = inc F c := by simp [inc]

/-- Moving the far end one step on, not onto `r`, lengthens the span by one. -/
theorem span_inc_right {F : Fifo} {r w : Nat} (hr : r < F.N) (hw : w < F.N) (h : inc F w ≠ r) :
    span F r (inc F w) = span F r w + 1 := by
  rw [inc_eq hw] at *
  unfold span
  split_ifs at * <;> omega

/-- Moving the near end one step on shortens the span by one. -/
theorem span_inc_left {F : Fifo} {r w : Nat} (hr : r < F.N) (hw : w < F.N) (h : r ≠ w) :
    span F (inc F r) w = span F r w - 1 := by
  rw [inc_eq hr]
  unfold span
  split_ifs <;> omega

/-- From one slot on, round the ring, to the slot itself. -/
theorem span_inc_self {F : Fifo} {r : Nat} (hr : r < F.N) : span F (inc F r) r = F.N - 1 := by
  rw [inc_eq hr]
  unfold span
  split_ifs <;> omega

/-- The depth after a push (rule R78): one more, or still `N - 1` in a full unit. -/
theorem written_pushed {F : Fifo} (h : F.inRange) (b : Byte) :
    written (pushed F b) = if written F = F.N - 1 then F.N - 1 else written F + 1 := by
  have hc := collision_iff_full h
  obtain ⟨hN, hR, hW, _⟩ := h
  have e : written (pushed F b) = span F (if inc F F.W = F.R then inc F F.R else F.R) (inc F F.W) := by
    rw [written, span_pushed, pushed_W, pushed_R]
  rw [e]
  by_cases hf : inc F F.W = F.R
  · rw [if_pos hf, if_pos (hc.1 hf), hf, span_inc_self hR]
  · rw [if_neg hf, if_neg (fun e => hf (hc.2 e)), span_inc_right hR hW hf, written]

theorem ordered_pushed {F : Fifo} (h : F.inRange) (ho : F.ordered) (b : Byte) : (pushed F b).ordered := by
  intro l hl
  have hc := collision_iff_full h
  simp only [span_pushed, pushed_R, pushed_W]
  rw [pushed_L] at hl
  obtain ⟨hN, hR, hW, hL⟩ := h
  by_cases hf : inc F F.W = F.R
  · rw [if_pos hf, hf]
    by_cases hx : F.L = some F.R
    · rw [if_pos ⟨hf, hx⟩] at hl
      simp only [Option.mem_def, Option.some.injEq] at hl
      rw [← hl, span_self, Nat.zero_add]
    · rw [if_neg fun e => hx e.2] at hl
      have h1 := ho l hl
      have h2 := hL l hl
      have h3 : F.R ≠ l := fun e => hx (by rw [e]; exact hl)
      have h4 := span_inc_right h2 hW (hf ▸ h3)
      have h5 := hc.1 hf
      have h6 := (span_eq_zero (w := l) hR).not.2 h3
      rw [hf] at h4
      rw [span_inc_left hR h2 h3, span_inc_self hR, h4]
      simp only [written] at h5
      omega
  · rw [if_neg fun e => hf e.1] at hl
    have h1 := ho l hl
    have h2 := hL l hl
    have h3 := span_inc_right hR hW hf
    have h4 : inc F F.W ≠ l := fun e => by rw [← e] at h1; omega
    rw [if_neg hf, h3, span_inc_right h2 hW h4]
    omega

/-- The readable count after a push (rule R78): unlocked, it is the depth. -/
theorem readable_pushed_unlocked {F : Fifo} (hL : F.L = none) (b : Byte) :
    readable (pushed F b) = written (pushed F b) := readable_unlocked (pushed_unlocked hL b)

/-- The readable count of a locked unit after a push (rule R78): as before, or one less when a committed byte was
evicted. -/
theorem readable_pushed_locked {F : Fifo} (h : F.inRange) {l : Nat} (hL : F.L = some l) (b : Byte) :
    readable (pushed F b) = if written F = F.N - 1 then readable F - 1 else readable F := by
  have hc := collision_iff_full h
  have hl := h.2.2.2 l hL
  obtain ⟨hN, hR, hW, _⟩ := h
  have e1 : readable F = span F F.R l := by simp [readable, eff_some hL]
  by_cases hf : inc F F.W = F.R
  · rw [if_pos (hc.1 hf), e1]
    by_cases hx : l = F.R
    · have : (pushed F b).L = some (inc F F.R) := by simp [pushed_L, hf, hL, hx]
      simp [readable, eff_some this, pushed_R, hf, hx]
    · have : (pushed F b).L = some l := by simp [pushed_L, hL, hx]
      rw [readable, eff_some this, span_pushed, pushed_R, if_pos hf, span_inc_left hR hl fun e => hx e.symm]
  · have : (pushed F b).L = some l := by simp [pushed_L, hf, hL]
    rw [if_neg fun e => hf (hc.2 e), e1]
    simp [readable, eff_some this, span_pushed, pushed_R, hf]

theorem slotByte_pushed (F : Fifo) (b : Byte) (a : Nat) :
    slotByte (pushed F b) a = if a = F.W then b else slotByte F a := by
  have : slotByte (pushed F b) a = slotByte { F with mem := F.mem.set F.W b } a := by simp [slotByte]
  rw [this, slotByte_set]

theorem memOk_set {F : Fifo} (h : F.memOk) {a : Nat} (ha : a < F.N) (v : Byte) :
    (F.mem.set a v).wf = true ∧ ∀ c ∈ F.mem.set a v, c.1 < F.N := by
  refine ⟨wf_set h.1 a v, fun c hc => ?_⟩
  rcases mem_set hc with rfl | hc
  · exact ha
  · exact h.2 c hc

theorem memOk_pushed {F : Fifo} (h : F.memOk) (hW : F.W < F.N) (b : Byte) : (pushed F b).memOk := by
  have := memOk_set h hW b
  simpa [Fifo.memOk] using this

/-- Offsets of a unit after a push: as before, or one further when a byte was evicted. -/
theorem ea_pushed {F : Fifo} (h : F.inRange) (b : Byte) (i : Nat) :
    ea (pushed F b) i = if written F = F.N - 1 then ea F (i + 1) else ea F i := by
  have hc := collision_iff_full h
  unfold ea
  rw [pushed_R, pushed_N]
  by_cases hf : inc F F.W = F.R
  · rw [if_pos hf, if_pos (hc.1 hf)]
    simp only [inc, Nat.mod_add_mod]
    congr 1
    omega
  · rw [if_neg hf, if_neg fun e => hf (hc.2 e)]

theorem stored_pushed {F : Fifo} (h : F.inRange) (hs : F.stored) (b : Byte) : (pushed F b).stored := by
  intro i hi
  rw [written_pushed h] at hi
  rw [ea_pushed h, pushed_mem, find_set]
  have hlt := written_lt h
  have key : ∀ j, j ≤ written F → (if ea F j = F.W then some b else F.mem.find (ea F j)).isSome = true := by
    intro j hj
    by_cases e : j = written F
    · rw [if_pos (by rw [e, ea_written h])]; rfl
    · rw [if_neg (ea_ne_W h (by omega))]
      exact hs j (by omega)
  split
  · rename_i hf
    rw [if_pos hf] at hi
    exact key _ (by omega)
  · rename_i hf
    rw [if_neg hf] at hi
    exact key _ (by omega)

theorem wf_pushed {m : Nat} {F : Fifo} (h : F.wf m) (b : Byte) : (pushed F b).wf m :=
  ⟨inRange_pushed h.1 b, ordered_pushed h.1 h.2.1 b, by rw [pushed_N]; exact h.2.2.1,
    memOk_pushed h.2.2.2.1 h.1.2.2.1 b, stored_pushed h.1 h.2.2.2.2 b⟩

/-- What a unit holds after a push: the new byte is the newest; a full unit loses its oldest. -/
theorem contents_pushed {F : Fifo} (h : F.inRange) (b : Byte) :
    contents (pushed F b) =
      if written F = F.N - 1 then (contents F ++ [b]).drop 1 else contents F ++ [b] := by
  have hlt := written_lt h
  have key : ∀ j, j ≤ written F → slotByte (pushed F b) (ea F j) = (contents F ++ [b])[j]?.getD 0 := by
    intro j hj
    rw [slotByte_pushed]
    by_cases e : j = written F
    · rw [if_pos (by rw [e, ea_written h]), e, ← contents_length F]; simp
    · have hj' : j < (contents F).length := by rw [contents_length]; omega
      rw [if_neg (ea_ne_W h (by omega)), List.getElem?_append_left hj', List.getElem?_eq_getElem hj',
        contents_getElem]
      rfl
  have hw := written_pushed h b
  by_cases hf : written F = F.N - 1
  · rw [if_pos hf] at hw ⊢
    apply List.ext_getElem
    · simp [contents_length, hw, hf]
    · intro i h1 h2
      rw [contents_getElem, ea_pushed h, if_pos hf, key _ (by rw [contents_length, hw] at h1; omega)]
      rw [List.getElem_drop]
      have : i + 1 < (contents F ++ [b]).length := by simp at h2 ⊢; omega
      rw [List.getElem?_eq_getElem this]
      simp [Nat.add_comm]
  · rw [if_neg hf] at hw ⊢
    apply List.ext_getElem
    · simp [contents_length, hw]
    · intro i h1 h2
      rw [contents_getElem, ea_pushed h, if_neg hf, key _ (by rw [contents_length, hw] at h1; omega),
        List.getElem?_eq_getElem h2]
      rfl

/-! ## A run of pushes -/

theorem pushAll_eq {F : Fifo} (h : F.inRange) (bs : List Byte) : pushAll F bs = some (bs.foldl pushed F) := by
  induction bs generalizing F with
  | nil => rfl
  | cons b bs ih => simp [pushAll, push_eq h.2.2.1, ih (inRange_pushed h b)]

/-- All that `pushAll` can do. -/
theorem pushAll_some {F F' : Fifo} {bs : List Byte} (h : pushAll F bs = some F') : F' = bs.foldl pushed F := by
  induction bs generalizing F with
  | nil => simpa [pushAll] using h.symm
  | cons b bs ih =>
    simp only [pushAll, Option.bind_eq_some_iff] at h
    obtain ⟨G, hG, h⟩ := h
    obtain ⟨_, rfl⟩ := push_some hG
    exact ih h

theorem foldl_pushed_wf {m : Nat} {F : Fifo} (h : F.wf m) (bs : List Byte) : (bs.foldl pushed F).wf m := by
  induction bs generalizing F with
  | nil => exact h
  | cons b bs ih => exact ih (wf_pushed h b)

theorem foldl_pushed_inRange {F : Fifo} (h : F.inRange) (bs : List Byte) : (bs.foldl pushed F).inRange := by
  induction bs generalizing F with
  | nil => exact h
  | cons b bs ih => exact ih (inRange_pushed h b)

theorem foldl_pushed_ordered {F : Fifo} (h : F.inRange) (ho : F.ordered) (bs : List Byte) :
    (bs.foldl pushed F).ordered := by
  induction bs generalizing F with
  | nil => exact ho
  | cons b bs ih => exact ih (inRange_pushed h b) (ordered_pushed h ho b)

@[simp] theorem foldl_pushed_N (F : Fifo) (bs : List Byte) : (bs.foldl pushed F).N = F.N := by
  induction bs generalizing F with
  | nil => rfl
  | cons b bs ih => simp [ih]

@[simp] theorem foldl_pushed_phase (F : Fifo) (bs : List Byte) : (bs.foldl pushed F).phase = F.phase := by
  induction bs generalizing F with
  | nil => rfl
  | cons b bs ih => simp [ih]

@[simp] theorem foldl_pushed_fill (F : Fifo) (bs : List Byte) : (bs.foldl pushed F).fill = F.fill := by
  induction bs generalizing F with
  | nil => rfl
  | cons b bs ih => simp [ih]

theorem foldl_pushed_unlocked {F : Fifo} (h : F.L = none) (bs : List Byte) : (bs.foldl pushed F).L = none := by
  induction bs generalizing F with
  | nil => exact h
  | cons b bs ih => exact ih (pushed_unlocked h b)

end Sys2Proof.Machine
end

