-- ==== Sys2Proof/Laws/Runs.lean ====
section
/-! SUPPORT. Reading and writing runs of slots, `pop`, and the transfer loop (rules R83, R84, R90, R91, R104, R105). -/

namespace Sys2Proof.Machine

open Sys2Proof

/-! ## pop -/

theorem pop_eq {F : Fifo} (h : F.R < F.N) : pop F = some (slotByte F F.R, advanceRead F 1) := by
  simp [pop, memRead_eq h, advanceRead, inc]

/-- All that `pop` can do. -/
theorem pop_some {F : Fifo} {r : Byte × Fifo} (h : pop F = some r) :
    F.R < F.N ∧ r = (slotByte F F.R, advanceRead F 1) := by
  unfold pop at h
  cases hm : memRead F F.R with
  | none => simp [hm] at h
  | some b =>
    obtain ⟨hR, rfl⟩ := memRead_some hm
    simp only [hm, Option.map_some, Option.some.injEq] at h
    exact ⟨hR, by rw [← h]; rfl⟩

/-! ## readRun -/

/-- Reading a run answers the bytes at the named offsets, in order. -/
theorem readRun_eq {F : Fifo} (h : 1 ≤ F.N) (i n : Nat) :
    readRun F i n = some ((List.range n).map fun j => slotByte F (ea F (i + j))) := by
  induction n generalizing i with
  | zero => rfl
  | succ n ih =>
    have e : ((fun j => slotByte F (ea F (i + j))) ∘ Nat.succ) = fun j => slotByte F (ea F (i + 1 + j)) := by
      funext j
      simp only [Function.comp, Nat.succ_eq_add_one]
      congr 2
      omega
    simp [readRun, memRead_eq (ea_lt h i), ih, List.range_succ_eq_map, e]

/-- All that reading a run can do. -/
theorem readRun_some {F : Fifo} {i n : Nat} {bs : List Byte} (h : readRun F i n = some bs) :
    bs = (List.range n).map fun j => slotByte F (ea F (i + j)) := by
  cases n with
  | zero => simpa [readRun] using h.symm
  | succ n =>
    have hN : 1 ≤ F.N := by
      simp only [readRun, Option.bind_eq_some_iff] at h
      obtain ⟨b, hb, _⟩ := h
      have := (memRead_some hb).1
      omega
    rw [readRun_eq hN] at h
    exact (Option.some.inj h).symm

/-- A run of the first offsets is the first bytes the unit holds. -/
theorem run_eq_take_contents {F : Fifo} {n : Nat} (hn : n ≤ written F) :
    ((List.range n).map fun j => slotByte F (ea F (0 + j))) = (contents F).take n := by
  simp [contents, ← List.map_take, List.take_range, Nat.min_eq_left hn]

/-! ## writeRun -/

/-- The storage after writing `bs` to the offsets `i, i + 1, ...`. -/
def setRun (F : Fifo) (i : Nat) : List Byte → Memory
  | [] => F.mem
  | b :: bs => setRun { F with mem := F.mem.set (ea F i) b } (i + 1) bs

theorem writeRun_eq {F : Fifo} (h : 1 ≤ F.N) (i : Nat) (bs : List Byte) :
    writeRun F i bs = some { F with mem := setRun F i bs } := by
  induction bs generalizing F i with
  | nil => rfl
  | cons b bs ih =>
    simp only [writeRun, memWrite_eq (ea_lt h i), Option.bind_some, setRun]
    rw [ih (by exact h)]

/-- All that writing a run can do: only the storage changes. -/
theorem writeRun_some {F F' : Fifo} {i : Nat} {bs : List Byte} (h : writeRun F i bs = some F') :
    F' = { F with mem := setRun F i bs } := by
  induction bs generalizing F i with
  | nil => simpa [writeRun, setRun] using h.symm
  | cons b bs ih =>
    simp only [writeRun, Option.bind_eq_some_iff] at h
    obtain ⟨G, hG, h⟩ := h
    obtain ⟨_, rfl⟩ := memWrite_some hG
    exact ih h

/-- Every slot outside the run is as before. -/
theorem slotByte_setRun_ne (F : Fifo) (i : Nat) (bs : List Byte) {a : Nat}
    (ha : ∀ j < bs.length, a ≠ ea F (i + j)) : slotByte { F with mem := setRun F i bs } a = slotByte F a := by
  induction bs generalizing F i with
  | nil => rfl
  | cons b bs ih =>
    have := ih { F with mem := F.mem.set (ea F i) b } (i + 1) fun j hj => by
      have := ha (j + 1) (by simpa using hj)
      rwa [show i + 1 + j = i + (j + 1) by omega]
    simp only [setRun]
    rw [show slotByte { F with mem := setRun { F with mem := F.mem.set (ea F i) b } (i + 1) bs } a = _ from this,
      slotByte_set, if_neg (by simpa using ha 0 (by simp))]

/-- The slots of the run hold the new bytes. -/
theorem slotByte_setRun {F : Fifo} (hR : F.R < F.N) {i : Nat} {bs : List Byte} (hn : i + bs.length ≤ F.N) {j : Nat}
    (hj : j < bs.length) : slotByte { F with mem := setRun F i bs } (ea F (i + j)) = bs[j] := by
  induction bs generalizing F i j with
  | nil => simp at hj
  | cons b bs ih =>
    simp only [List.length_cons] at hn hj
    simp only [setRun]
    cases j with
    | zero =>
      have := slotByte_setRun_ne { F with mem := F.mem.set (ea F i) b } (i + 1) bs (a := ea F (i + 0)) fun j hj e => by
        have := ea_inj (F := F) hR (by omega) (by omega) e
        omega
      rw [show slotByte { F with mem := setRun { F with mem := F.mem.set (ea F i) b } (i + 1) bs } (ea F (i + 0)) = _
        from this, slotByte_set]
      simp
    | succ j =>
      have := ih (F := { F with mem := F.mem.set (ea F i) b }) (i := i + 1) (j := j) hR
        (show i + 1 + bs.length ≤ F.N by omega) (by omega)
      rw [show i + (j + 1) = i + 1 + j by omega]
      exact this

theorem setRun_memOk {F : Fifo} (hN : 1 ≤ F.N) (h : F.memOk) (i : Nat) (bs : List Byte) :
    ({ F with mem := setRun F i bs } : Fifo).memOk := by
  induction bs generalizing F i with
  | nil => exact h
  | cons b bs ih => exact ih (F := { F with mem := F.mem.set (ea F i) b }) hN (memOk_set h (ea_lt hN i) b) (i + 1)

/-- A slot that was written stays written. -/
theorem find_setRun {F : Fifo} (i : Nat) (bs : List Byte) {a : Nat} (h : (F.mem.find a).isSome = true) :
    ((setRun F i bs).find a).isSome = true := by
  induction bs generalizing F i with
  | nil => exact h
  | cons b bs ih =>
    refine ih (F := { F with mem := F.mem.set (ea F i) b }) (i + 1) ?_
    rw [find_set]
    split
    · rfl
    · exact h

theorem wf_setRun {m : Nat} {F : Fifo} (h : F.wf m) (i : Nat) (bs : List Byte) :
    ({ F with mem := setRun F i bs } : Fifo).wf m :=
  ⟨h.1, h.2.1, h.2.2.1, setRun_memOk h.1.1 h.2.2.2.1 i bs, fun j hj => find_setRun i bs (h.2.2.2.2 j hj)⟩

/-- What a unit holds after an update inside the held bytes: the bytes at `i, i + 1, ...` replaced. -/
theorem contents_setRun {F : Fifo} (h : F.inRange) {i : Nat} {bs : List Byte} (hn : i + bs.length ≤ written F) :
    contents { F with mem := setRun F i bs } =
      (contents F).take i ++ bs ++ (contents F).drop (i + bs.length) := by
  have hlt := written_lt h
  have hw : written { F with mem := setRun F i bs } = written F := rfl
  apply List.ext_getElem
  · simp [contents_length, hw]; omega
  · intro k h1 h2
    rw [contents_getElem]
    rw [contents_length, hw] at h1
    show slotByte { F with mem := setRun F i bs } (ea F k) = _
    by_cases hk : k < i
    · rw [slotByte_setRun_ne F i bs fun j hj e => by
        have := ea_inj h.2.1 (by omega) (by omega) e
        omega]
      rw [List.getElem_append_left (by simp [contents_length]; omega),
        List.getElem_append_left (by simp [contents_length]; omega), List.getElem_take, contents_getElem]
    · by_cases hk' : k < i + bs.length
      · obtain ⟨j, rfl⟩ : ∃ j, k = i + j := ⟨k - i, by omega⟩
        rw [slotByte_setRun h.2.1 (by omega) (by omega)]
        rw [List.getElem_append_left (by simp [contents_length]; omega), List.getElem_append_right (by simp)]
        congr 1
        simp [contents_length]
        omega
      · rw [slotByte_setRun_ne F i bs fun j hj e => by
          have := ea_inj h.2.1 (by omega) (by omega) e
          omega]
        rw [List.getElem_append_right (by simp [contents_length]; omega), List.getElem_drop, contents_getElem]
        congr 2
        simp [contents_length]
        omega

/-! ## transfer -/

/-- The transfer loop is a move of the first `min n (readable I)` bytes of `I`, pushed to `O` in order. -/
theorem transfer_eq {I O : Fifo} (hI : I.inRange) (hL : I.L = none) (hO : O.inRange) (n : Nat) :
    transfer I O n =
      some (advanceRead I (min n (readable I)), ((contents I).take (min n (readable I))).foldl pushed O,
        min n (readable I)) := by
  have hRW := readable_unlocked hL
  induction n generalizing I O with
  | zero => simp [transfer, advanceRead, Nat.mod_eq_of_lt hI.2.1]
  | succ n ih =>
    unfold transfer
    split
    · rename_i h0
      simp [h0, advanceRead, Nat.mod_eq_of_lt hI.2.1]
    · rename_i h0
      have h1 : 1 ≤ readable I := by omega
      have hI' := inRange_advanceRead hI 1
      have hr := readable_advanceRead hI h1
      have hc := contents_advanceRead hI (n := 1) (by omega)
      have hlen := contents_length I
      have hcons : contents I = slotByte I I.R :: (contents I).drop 1 := by
        apply List.ext_getElem
        · simp; omega
        · intro k h2 h3
          cases k with
          | zero => rw [contents_getElem, ea_zero hI.2.1]; simp
          | succ k => simp
      have hmin : min (n + 1) (readable I) = min n (readable I - 1) + 1 := by omega
      rw [pop_eq hI.2.1]
      simp only [Option.bind_some, push_eq hO.2.2.1]
      rw [ih hI' (by simpa using hL) (inRange_pushed hO _) (readable_unlocked (by simpa using hL)), hr, hc]
      simp only [Option.map_some, hmin]
      rw [hcons]
      simp [advanceRead, Nat.add_assoc, Nat.add_comm 1]

end Sys2Proof.Machine
end

