-- ==== Sys2Proof/Laws/Commands.lean ====
section
/-! SUPPORT. What the shared shapes of a command can do (rules R56, R69, R100, R123): one lemma per shape. -/

namespace Sys2Proof.Machine

open Sys2Proof

/-! ## Payload check -/

theorem withPayload_eq {len : Word16} {p : List Byte} (h : p.length = len.toNat) (r : StepResult) :
    withPayload len p r = r := by simp [withPayload, h]

/-- All a payload command can do when it answers a next state. -/
theorem withPayload_next {len : Word16} {p : List Byte} {r : StepResult} {t : State}
    (h : withPayload len p r = .next t) : p.length = len.toNat ∧ r = .next t := by
  unfold withPayload at h
  split at h
  · exact ⟨‹_›, h⟩
  · cases h

theorem withPayload_bad {len : Word16} {p : List Byte} (h : p.length ≠ len.toNat) (r : StepResult) :
    withPayload len p r = .refused .badPayload := by simp [withPayload, h]

/-! ## Admission -/

theorem admitFifo_ordinary {u : UnitSel} {s : State} (h : s.mayUse u) : admitFifo .ordinary u s = none := by
  obtain ⟨h1, h2⟩ := h
  cases u <;> simp_all [admitFifo]

theorem admitFifo_ordinary_iff (u : UnitSel) (s : State) : admitFifo .ordinary u s = none ↔ s.mayUse u := by
  unfold admitFifo State.mayUse
  by_cases hi : s.irqEn = true <;> cases u <;> simp [hi]

theorem admitFifo_init_iff (u : UnitSel) (s : State) :
    admitFifo .init u s = none ↔ (u = .inbound → s.irqEn = false) ∧ (s.unit u).phase = .reset := by
  unfold admitFifo
  by_cases hi : s.irqEn = true <;> cases u <;> simp [hi]

theorem admitFifo_transaction_iff (u : UnitSel) (s : State) :
    admitFifo .transaction u s = none ↔ u = .outbound ∧ s.outb.phase = .ready := by
  unfold admitFifo
  cases u <;> simp

theorem admitChannel_ordinary_iff (s : State) : admitChannel .ordinary s = none ↔ s.chPhase = .ready := by
  simp [admitChannel]

theorem admitChannel_init_iff (s : State) :
    admitChannel .init s = none ↔
      s.irqEn = false ∧ s.chPhase = .reset ∧ s.inb.phase = .reset ∧ s.outb.phase = .reset := by
  unfold admitChannel
  by_cases h : s.irqEn = true
  · simp [h]
  · simp only [h, Bool.false_eq_true, if_false, ite_eq_right_iff, reduceCtorEq, imp_false]
    simp

theorem admitChannel_irq (s : State) : admitChannel .irq s = none := rfl

/-- Admission never answers a refusal outside the list of rule R117. -/
theorem admitFifo_closed {k : FifoKind} {u : UnitSel} {s : State} {r : Refusal} (h : admitFifo k u s = some r) :
    r = .lockOnInbound ∨ r = .unbracketedInbound ∨ r = .reInit ∨ r = .notReady := by
  unfold admitFifo at h
  split_ifs at h
  all_goals simp_all

theorem admitChannel_closed {k : ChannelKind} {s : State} {r : Refusal} (h : admitChannel k s = some r) :
    r = .unbracketedInbound ∨ r = .reInit ∨ r = .notReady := by
  unfold admitChannel at h
  split at h
  · cases h
  · split_ifs at h <;> simp_all
  · split_ifs at h; simp_all

/-! ## FIFO-unit commands -/

theorem fifoCommand_eq {k : FifoKind} {u : UnitSel} {s : State} {body : Fifo → Option (Fifo × Reply)} {F : Fifo}
    {r : Reply} (ha : admitFifo k u s = none) (hb : body (s.unit u) = some (F, r)) :
    fifoCommand k u s body = .next ((s.setUnit u F).answer r) := by simp [fifoCommand, ha, hb]

/-- All a FIFO-unit command can do when it answers a next state: it was admitted, its own rule gave a unit and a
reply, and the state is that with the answer. -/
theorem fifoCommand_next {k : FifoKind} {u : UnitSel} {s t : State} {body : Fifo → Option (Fifo × Reply)}
    (h : fifoCommand k u s body = .next t) :
    ∃ F r, admitFifo k u s = none ∧ body (s.unit u) = some (F, r) ∧ t = (s.setUnit u F).answer r := by
  unfold fifoCommand at h
  split at h
  · cases h
  · split at h
    · cases h
    · exact ⟨_, _, ‹_›, ‹_›, by injection h with h; exact h.symm⟩

/-- When a FIFO-unit command is refused: exactly as its admission says. -/
theorem fifoCommand_refused {k : FifoKind} {u : UnitSel} {s : State} {body : Fifo → Option (Fifo × Reply)}
    {r : Refusal} : fifoCommand k u s body = .refused r ↔ admitFifo k u s = some r := by
  unfold fifoCommand
  split
  · simp_all
  · split <;> simp_all

/-- When a FIFO-unit command faults: admitted, and its own rule named a slot that does not exist. -/
theorem fifoCommand_fault {k : FifoKind} {u : UnitSel} {s : State} {body : Fifo → Option (Fifo × Reply)} {f : Fault}
    (h : fifoCommand k u s body = .fault f) : admitFifo k u s = none ∧ body (s.unit u) = none := by
  unfold fifoCommand at h
  split at h
  · cases h
  · split at h
    · exact ⟨‹_›, ‹_›⟩
    · cases h

/-- A FIFO-unit command that admission turns away is refused. -/
theorem fifoCommand_turned_away {k : FifoKind} {u : UnitSel} {s : State} {body : Fifo → Option (Fifo × Reply)}
    (h : admitFifo k u s ≠ none) : ∃ r, fifoCommand k u s body = .refused r := by
  cases hr : admitFifo k u s with
  | none => exact absurd hr h
  | some r => exact ⟨r, fifoCommand_refused.2 hr⟩

/-- A command on a unit that may not be used is refused. -/
theorem fifoCommand_ordinary_turned_away {u : UnitSel} {s : State} {body : Fifo → Option (Fifo × Reply)}
    (h : ¬ s.mayUse u) : ∃ r, fifoCommand .ordinary u s body = .refused r :=
  fifoCommand_turned_away fun e => h ((admitFifo_ordinary_iff u s).1 e)

/-- A command on a unit that may be used, whose result fits in `val`. -/
theorem fifoCommand_ordinary_answers {u : UnitSel} {s : State} {body : Fifo → Option (Fifo × Reply)} {F : Fifo}
    {r : Reply} (h : s.mayUse u) (hb : body (s.unit u) = some (F, r)) (hv : r.val < 65536) :
    fifoCommand .ordinary u s body =
      .next ({ s with
        resp := some { ok := decide (r.err = Err.none), err := r.err, val := BitVec.ofNat 16 r.val, out := r.out }
        }.setUnit u F) := by
  rw [fifoCommand_eq (admitFifo_ordinary h) hb, answer_of_fits _ _ hv]
  cases u <;> rfl

/-- The same, where its own rule fails with `AVAIL`. -/
theorem fifoCommand_ordinary_avail {u : UnitSel} {s : State} {body : Fifo → Option (Fifo × Reply)}
    (h : s.mayUse u) (hb : body (s.unit u) = some (s.unit u, failWith .avail)) :
    fifoCommand .ordinary u s body = .next { s with resp := some (failResponse .avail) } := by
  rw [fifoCommand_ordinary_answers h hb (by decide)]
  cases u <;> rfl

/-- The same, where it succeeds with no payload-out. -/
theorem fifoCommand_ordinary_succeeds {u : UnitSel} {s : State} {body : Fifo → Option (Fifo × Reply)} {F : Fifo}
    {v : Nat} (h : s.mayUse u) (hb : body (s.unit u) = some (F, success v)) (hv : v < 65536) :
    fifoCommand .ordinary u s body = .next ({ s with resp := some (okResponse v) }.setUnit u F) := by
  rw [fifoCommand_ordinary_answers h hb hv]
  rfl

/-- LOCK, UNLOCK and DISCARD on a `READY` `OUT`. -/
theorem fifoCommand_transaction_succeeds {s : State} {body : Fifo → Option (Fifo × Reply)} {F : Fifo} {v : Nat}
    (h : s.outb.phase = .ready) (hb : body s.outb = some (F, success v)) (hv : v < 65536) :
    fifoCommand .transaction .outbound s body = .next { s with outb := F, resp := some (okResponse v) } := by
  rw [fifoCommand_eq ((admitFifo_transaction_iff _ s).2 ⟨rfl, h⟩) hb, answer_of_fits _ _ hv]
  rfl

/-! ## Channel commands -/

theorem channelCommand_eq {k : ChannelKind} {s t : State} {body : State → Option (State × Reply)} {r : Reply}
    (ha : admitChannel k s = none) (hb : body s = some (t, r)) : channelCommand k s body = .next (t.answer r) := by
  simp [channelCommand, ha, hb]

/-- All a channel command can do when it answers a next state. -/
theorem channelCommand_next {k : ChannelKind} {s t : State} {body : State → Option (State × Reply)}
    (h : channelCommand k s body = .next t) :
    ∃ t' r, admitChannel k s = none ∧ body s = some (t', r) ∧ t = t'.answer r := by
  unfold channelCommand at h
  split at h
  · cases h
  · split at h
    · cases h
    · exact ⟨_, _, ‹_›, ‹_›, by injection h with h; exact h.symm⟩

/-- When a channel command is refused: exactly as its admission says. -/
theorem channelCommand_refused {k : ChannelKind} {s : State} {body : State → Option (State × Reply)} {r : Refusal} :
    channelCommand k s body = .refused r ↔ admitChannel k s = some r := by
  unfold channelCommand
  split
  · simp_all
  · split <;> simp_all

/-- When a channel command faults: admitted, and its own rule named a slot that does not exist. -/
theorem channelCommand_fault {k : ChannelKind} {s : State} {body : State → Option (State × Reply)} {f : Fault}
    (h : channelCommand k s body = .fault f) : admitChannel k s = none ∧ body s = none := by
  unfold channelCommand at h
  split at h
  · cases h
  · split at h
    · exact ⟨‹_›, ‹_›⟩
    · cases h

/-- A channel command that succeeds on a `READY` channel. -/
theorem channelCommand_ordinary_succeeds {s t : State} {body : State → Option (State × Reply)} {v : Nat}
    (h : s.chPhase = .ready) (hb : body s = some (t, success v)) (hv : v < 65536) :
    channelCommand .ordinary s body = .next { t with resp := some (okResponse v) } := by
  rw [channelCommand_eq ((admitChannel_ordinary_iff s).2 h) hb, answer_of_fits _ _ hv]
  rfl

/-- All the bracket can do: the body ran with the interrupt source disabled, and it is enabled afterwards. -/
theorem bracketed_some {s : State} {body : State → Option (State × Reply)} {p : State × Reply}
    (h : bracketed s body = some p) :
    ∃ t r, body { s with irqEn := false } = some (t, r) ∧ p = ({ t with irqEn := true }, r) := by
  unfold bracketed at h
  cases hb : body { s with irqEn := false } with
  | none => simp [hb] at h
  | some q => exact ⟨q.1, q.2, rfl, by simpa [hb] using h.symm⟩

theorem bracketed_eq {s t : State} {body : State → Option (State × Reply)} {r : Reply}
    (h : body { s with irqEn := false } = some (t, r)) : bracketed s body = some ({ t with irqEn := true }, r) := by
  simp [bracketed, h]

/-! ## The producer -/

theorem receive_eq {s : State} (h : s.inb.W < s.inb.N) (v : Byte) :
    receive v s = some { s with inb := pushed s.inb v } := by simp [receive, push_eq h]

/-- All that receiving a byte can do. -/
theorem receive_some {s t : State} {v : Byte} (h : receive v s = some t) :
    s.inb.W < s.inb.N ∧ t = { s with inb := pushed s.inb v } := by
  unfold receive at h
  cases hp : push s.inb v with
  | none => simp [hp] at h
  | some F =>
    obtain ⟨hW, rfl⟩ := push_some hp
    exact ⟨hW, by simpa [hp] using h.symm⟩

/-- All that RX on the producer port can do when it answers a next state. -/
theorem producerRx_next {s t : State} {v : Byte} (h : producerRx v s = .next t) :
    s.chPhase = .ready ∧ s.inb.W < s.inb.N ∧ t = State.silent { s with inb := pushed s.inb v } := by
  unfold producerRx at h
  split at h
  · cases h
  · rename_i ha
    split at h
    · cases h
    · rename_i t' hr
      obtain ⟨hW, rfl⟩ := receive_some hr
      injection h with h
      exact ⟨(admitChannel_ordinary_iff s).1 ha, hW, h.symm⟩

end Sys2Proof.Machine
end

