-- ==== Sys2Proof/Laws/Decode.lean ====
section
/-! SUPPORT. The fields of a packed command word, the mask check on one, and the bytes of a word (rules R52, R53). -/

namespace Sys2Proof

theorem toNat_appendBits {n m : Nat} (x : BitVec n) (y : BitVec m) : (x ++ y).toNat = x.toNat * 2 ^ m + y.toNat := by
  rw [BitVec.toNat_append, ← Nat.shiftLeft_add_eq_or_of_lt y.isLt, Nat.shiftLeft_eq]

/-- A packed word as a number. -/
theorem packWord_toNat (op : Byte) (svo sv u : Bool) (idx len : Word16) :
    (packWord op svo sv u idx len).toNat =
      op.toNat * 1099511627776 + svo.toNat * 17179869184 + sv.toNat * 8589934592 + u.toNat * 4294967296
        + idx.toNat * 65536 + len.toNat := by
  unfold packWord
  simp only [toNat_appendBits, BitVec.toNat_ofBool]
  simp
  omega

/-- The six bytes of a packed word. -/
theorem bytesOfWord_packWord (op : Byte) (svo sv u : Bool) (idx len : Word16) :
    bytesOfWord (packWord op svo sv u idx len) =
      [op, BitVec.ofNat 8 (svo.toNat * 4 + sv.toNat * 2 + u.toNat), idx.extractLsb' 8 8, idx.extractLsb' 0 8,
        len.extractLsb' 8 8, len.extractLsb' 0 8] := by
  have h1 := idx.isLt; have h2 := len.isLt; have h3 := op.isLt
  have h4 := svo.toNat_lt; have h5 := sv.toNat_lt; have h6 := u.toNat_lt
  simp only [bytesOfWord, List.cons.injEq, and_true]
  refine ⟨?_, ?_, ?_, ?_, ?_, ?_⟩ <;> apply BitVec.eq_of_toNat_eq <;>
    simp only [BitVec.extractLsb'_toNat, packWord_toNat, Nat.shiftRight_eq_div_pow, BitVec.toNat_ofNat] <;> omega

@[simp] theorem val8Field_high (v : Byte) : (val8Field v).extractLsb' 8 8 = 0 := by
  apply BitVec.eq_of_toNat_eq
  have := v.isLt
  simp [val8Field, BitVec.extractLsb'_toNat, Nat.shiftRight_eq_div_pow]
  omega

@[simp] theorem val8Field_low (v : Byte) : (val8Field v).extractLsb' 0 8 = v := by
  apply BitVec.eq_of_toNat_eq
  have := v.isLt
  simp [val8Field, BitVec.extractLsb'_toNat]
  omega

section fields

variable (op : Byte) (svo sv u : Bool) (idx len : Word16)

@[simp] theorem opOf_packWord : opOf (packWord op svo sv u idx len) = op := by
  apply BitVec.eq_of_toNat_eq
  have h1 := idx.isLt; have h2 := len.isLt; have h3 := op.isLt
  have h4 := svo.toNat_lt; have h5 := sv.toNat_lt; have h6 := u.toNat_lt
  simp only [opOf, BitVec.extractLsb'_toNat, packWord_toNat, Nat.shiftRight_eq_div_pow]
  omega

@[simp] theorem idxOf_packWord : idxOf (packWord op svo sv u idx len) = idx := by
  apply BitVec.eq_of_toNat_eq
  have h1 := idx.isLt; have h2 := len.isLt; have h3 := op.isLt
  have h4 := svo.toNat_lt; have h5 := sv.toNat_lt; have h6 := u.toNat_lt
  simp only [idxOf, BitVec.extractLsb'_toNat, packWord_toNat, Nat.shiftRight_eq_div_pow]
  omega

@[simp] theorem lenOf_packWord : lenOf (packWord op svo sv u idx len) = len := by
  apply BitVec.eq_of_toNat_eq
  have h1 := idx.isLt; have h2 := len.isLt; have h3 := op.isLt
  have h4 := svo.toNat_lt; have h5 := sv.toNat_lt; have h6 := u.toNat_lt
  simp only [lenOf, BitVec.extractLsb'_toNat, packWord_toNat, Nat.shiftRight_eq_div_pow]
  omega

@[simp] theorem val8Of_packWord (v : Byte) : val8Of (packWord op svo sv u idx (val8Field v)) = v := by
  apply BitVec.eq_of_toNat_eq
  have h1 := idx.isLt; have h2 := v.isLt; have h3 := op.isLt
  have h4 := svo.toNat_lt; have h5 := sv.toNat_lt; have h6 := u.toNat_lt
  have h7 : (val8Field v).toNat = v.toNat := by
    rw [val8Field, BitVec.toNat_setWidth]
    exact Nat.mod_eq_of_lt (by omega)
  simp only [val8Of, BitVec.extractLsb'_toNat, packWord_toNat, Nat.shiftRight_eq_div_pow, h7]
  omega

@[simp] theorem svoOf_packWord : svoOf (packWord op svo sv u idx len) = svo := by
  have h1 := idx.isLt; have h2 := len.isLt; have h3 := op.isLt
  have h5 := sv.toNat_lt; have h6 := u.toNat_lt
  simp only [svoOf, BitVec.getLsbD, packWord_toNat, Nat.testBit_eq_decide_div_mod_eq]
  cases svo <;> simp at * <;> omega

@[simp] theorem svOf_packWord : svOf (packWord op svo sv u idx len) = sv := by
  have h1 := idx.isLt; have h2 := len.isLt; have h3 := op.isLt
  have h4 := svo.toNat_lt; have h6 := u.toNat_lt
  simp only [svOf, BitVec.getLsbD, packWord_toNat, Nat.testBit_eq_decide_div_mod_eq]
  cases sv <;> simp at * <;> omega

@[simp] theorem unitOf_packWord (u : UnitSel) : unitOf (packWord op svo sv (unitBit u) idx len) = u := by
  have h1 := idx.isLt; have h2 := len.isLt; have h3 := op.isLt
  have h4 := svo.toNat_lt; have h5 := sv.toNat_lt
  have h : (packWord op svo sv (unitBit u) idx len).getLsbD 32 = unitBit u := by
    simp only [BitVec.getLsbD, packWord_toNat, Nat.testBit_eq_decide_div_mod_eq]
    cases u <;> simp [unitBit] at * <;> omega
  rw [unitOf, h]
  cases u <;> rfl

end fields

/-! ## The mask check (rule R53) -/

/-- A word as the concatenation of all its fields, the reserved bits among them. -/
def fullWord (op : Byte) (rsv : BitVec 5) (svo sv u : Bool) (idx len : Word16) : CommandWord :=
  op ++ rsv ++ BitVec.ofBool svo ++ BitVec.ofBool sv ++ BitVec.ofBool u ++ idx ++ len

theorem ofBool_and (a b : Bool) : BitVec.ofBool a &&& BitVec.ofBool b = BitVec.ofBool (a && b) := by
  cases a <;> cases b <;> rfl

theorem and_concat (a a' : BitVec 8) (r r' : BitVec 5) (b b' c c' d d' : BitVec 1) (e e' f f' : BitVec 16) :
    (a ++ r ++ b ++ c ++ d ++ e ++ f) &&& (a' ++ r' ++ b' ++ c' ++ d' ++ e' ++ f') =
      (a &&& a') ++ (r &&& r') ++ (b &&& b') ++ (c &&& c') ++ (d &&& d') ++ (e &&& e') ++ (f &&& f') := by
  simp only [BitVec.and_append]

/-- The bits of a packed word that a mask with `op` and the reserved bits fixed selects. -/
theorem packWord_and_fullWord (op : Byte) (svo sv u svo' sv' u' : Bool) (idx len idx' len' : Word16) :
    packWord op svo sv u idx len &&& fullWord 255#8 31#5 svo' sv' u' idx' len' =
      packWord op (svo && svo') (sv && sv') (u && u') (idx &&& idx') (len &&& len') := by
  refine (and_concat op 255 0 31 _ _ _ _ _ _ idx idx' len len').trans ?_
  rw [ofBool_and, ofBool_and, ofBool_and, show (op &&& 255 : Byte) = op from BitVec.and_allOnes]
  rfl

theorem matchOf_eq (op : Byte) : matchOf op = packWord op false false false 0 0 := by
  apply BitVec.eq_of_toNat_eq
  have := op.isLt
  rw [packWord_toNat, matchOf, BitVec.toNat_shiftLeft, BitVec.toNat_setWidth, Nat.shiftLeft_eq]
  simp
  omega

theorem val8Field_and (v : Byte) : val8Field v &&& 65280 = 0 := by
  apply BitVec.eq_of_getLsbD_eq
  intro i hi
  simp only [val8Field, BitVec.getLsbD_and, BitVec.getLsbD_setWidth]
  by_cases h : i < 8
  · have : (65280#16).getLsbD i = false := by
      revert h; revert i; decide
    simp_all
  · simp [BitVec.getLsbD_of_ge v i (by omega)]

/-- Which fields each format lets vary: a 1 in its mask fixes the bit to `match`. -/
theorem maskOf_eq (f : Format) :
    maskOf f =
      match f with
      | .Z => fullWord 255 31 true true false 65535 65535
      | .S => fullWord 255 31 true false false 65535 0
      | .B => fullWord 255 31 true true false 65535 65280
      | .L => fullWord 255 31 true true false 65535 0
      | .I => fullWord 255 31 true true false 0 65535
      | .IB => fullWord 255 31 true true false 0 65280
      | .IL => fullWord 255 31 true true false 0 0
      | .CZ => fullWord 255 31 true true true 65535 65535
      | .CL => fullWord 255 31 true true true 65535 0
      | .CB => fullWord 255 31 true true true 65535 65280
      | .CS => fullWord 255 31 false false true 0 0 := by
  cases f <;> decide

section masks

variable (op : Byte) (u : UnitSel) (idx len : Word16) (v : Byte)

theorem mask_Z : unitWord op u 0 0 &&& maskOf .Z = matchOf op := by
  rw [maskOf_eq, matchOf_eq, unitWord]; exact (packWord_and_fullWord ..).trans (by simp)

theorem mask_S (sv : Bool) : packWord op false sv (unitBit u) 0 len &&& maskOf .S = matchOf op := by
  rw [maskOf_eq, matchOf_eq]; exact (packWord_and_fullWord ..).trans (by simp)

theorem mask_B : unitWord op u 0 (val8Field v) &&& maskOf .B = matchOf op := by
  rw [maskOf_eq, matchOf_eq, unitWord]
  exact (packWord_and_fullWord ..).trans (by rw [val8Field_and]; simp)

theorem mask_L : unitWord op u 0 len &&& maskOf .L = matchOf op := by
  rw [maskOf_eq, matchOf_eq, unitWord]; exact (packWord_and_fullWord ..).trans (by simp)

theorem mask_I : unitWord op u idx 0 &&& maskOf .I = matchOf op := by
  rw [maskOf_eq, matchOf_eq, unitWord]; exact (packWord_and_fullWord ..).trans (by simp)

theorem mask_IB : unitWord op u idx (val8Field v) &&& maskOf .IB = matchOf op := by
  rw [maskOf_eq, matchOf_eq, unitWord]
  exact (packWord_and_fullWord ..).trans (by rw [val8Field_and]; simp)

theorem mask_IL : unitWord op u idx len &&& maskOf .IL = matchOf op := by
  rw [maskOf_eq, matchOf_eq, unitWord]; exact (packWord_and_fullWord ..).trans (by simp)

theorem mask_CZ : channelWord op 0 &&& maskOf .CZ = matchOf op := by
  rw [maskOf_eq, matchOf_eq, channelWord]; exact (packWord_and_fullWord ..).trans (by simp)

theorem mask_CL : channelWord op len &&& maskOf .CL = matchOf op := by
  rw [maskOf_eq, matchOf_eq, channelWord]; exact (packWord_and_fullWord ..).trans (by simp)

theorem mask_CB : channelWord op (val8Field v) &&& maskOf .CB = matchOf op := by
  rw [maskOf_eq, matchOf_eq, channelWord]
  exact (packWord_and_fullWord ..).trans (by rw [val8Field_and]; simp)

theorem mask_CS (svo sv : Bool) : packWord op svo sv false idx len &&& maskOf .CS = matchOf op := by
  rw [maskOf_eq, matchOf_eq]; exact (packWord_and_fullWord ..).trans (by simp)

end masks

/-! ## The bytes of a word (rule R52) -/

/-- The six bytes of a word carry it. -/
theorem wordOfBytes_bytesOfWord (w : CommandWord) :
    wordOfBytes (w.extractLsb' 40 8) (w.extractLsb' 32 8) (w.extractLsb' 24 8) (w.extractLsb' 16 8)
      (w.extractLsb' 8 8) (w.extractLsb' 0 8) = w := by
  apply BitVec.eq_of_toNat_eq
  have := w.isLt
  unfold wordOfBytes
  simp only [toNat_appendBits, BitVec.extractLsb'_toNat, Nat.shiftRight_eq_div_pow]
  omega

/-- The word of six bytes is carried by those bytes. -/
theorem bytesOfWord_wordOfBytes (b0 b1 b2 b3 b4 b5 : Byte) :
    bytesOfWord (wordOfBytes b0 b1 b2 b3 b4 b5) = [b0, b1, b2, b3, b4, b5] := by
  have h0 := b0.isLt; have h1 := b1.isLt; have h2 := b2.isLt
  have h3 := b3.isLt; have h4 := b4.isLt; have h5 := b5.isLt
  simp only [bytesOfWord, List.cons.injEq, and_true]
  refine ⟨?_, ?_, ?_, ?_, ?_, ?_⟩ <;> apply BitVec.eq_of_toNat_eq <;>
    simp only [wordOfBytes, BitVec.extractLsb'_toNat, toNat_appendBits, Nat.shiftRight_eq_div_pow] <;> omega

/-- Decoding what `bytesOfWord` put on the port. -/
theorem decode_bytesOfWord (w : CommandWord) (rest : List Byte) :
    decode (bytesOfWord w ++ rest) =
      match decodeWord w with
      | .error why => .illegal why rest
      | .ok row => decodePayload row w rest := by
  unfold bytesOfWord
  simp only [List.cons_append, List.nil_append, decode, wordOfBytes_bytesOfWord]
  all_goals rfl

end Sys2Proof
end

