-- ==== Sys2Proof/Laws/PerInstr.lean ====
section
/-! SUPPORT. Statements for all instructions, one lemma per constructor. -/

namespace Sys2Proof

/-- A word whose `op` selects a row and that passes the row's mask check decodes to the row. -/
theorem decodeWord_of_row {w : CommandWord} {op : Byte} {row : Row} (h : opOf w = op) (h1 : rowOf op = some row)
    (h2 : w &&& maskOf row.format = matchOf row.op) : decodeWord w = .ok row := by
  simp [decodeWord, h, h1, h2]

namespace Laws.WordDecodes

/-- The word of a command is a legal instance of its row (rules R53, R57): the row takes a payload exactly when the
command has one (rule R55), whose length is the word's `len`, and the row makes the command again of the word's fields
and the payload. -/
def Statement (i : Instr) : Prop :=
  ∃ row, decodeWord (encodeWord i) = .ok row ∧ row.takesPayload = i.payload?.isSome ∧
    (∀ x ∈ i.payload?, lenOf (encodeWord i) = x.1) ∧ row.build (encodeWord i) i.payload = i

theorem init (u : UnitSel) (size : Word16) (sv : Bool) : Statement (.init u size sv) :=
  ⟨_, decodeWord_of_row (opOf_packWord 0x01 ..) rfl (mask_S _ _ _ _), rfl,
    nofun, by simp [encodeWord]⟩

theorem clear (u : UnitSel) : Statement (.clear u) :=
  ⟨_, decodeWord_of_row (opOf_packWord 0x02 ..) rfl (mask_Z _ _), rfl,
    nofun, by simp [encodeWord, unitWord]⟩

theorem isempty (u : UnitSel) : Statement (.isempty u) :=
  ⟨_, decodeWord_of_row (opOf_packWord 0x03 ..) rfl (mask_Z _ _), rfl,
    nofun, by simp [encodeWord, unitWord]⟩

theorem totalw (u : UnitSel) : Statement (.totalw u) :=
  ⟨_, decodeWord_of_row (opOf_packWord 0x04 ..) rfl (mask_Z _ _), rfl,
    nofun, by simp [encodeWord, unitWord]⟩

theorem totalr (u : UnitSel) : Statement (.totalr u) :=
  ⟨_, decodeWord_of_row (opOf_packWord 0x05 ..) rfl (mask_Z _ _), rfl,
    nofun, by simp [encodeWord, unitWord]⟩

theorem cap (u : UnitSel) : Statement (.cap u) :=
  ⟨_, decodeWord_of_row (opOf_packWord 0x06 ..) rfl (mask_Z _ _), rfl,
    nofun, by simp [encodeWord, unitWord]⟩

theorem islocked (u : UnitSel) : Statement (.islocked u) :=
  ⟨_, decodeWord_of_row (opOf_packWord 0x07 ..) rfl (mask_Z _ _), rfl,
    nofun, by simp [encodeWord, unitWord]⟩

theorem writeb (u : UnitSel) (v : Byte) : Statement (.writeb u v) :=
  ⟨_, decodeWord_of_row (opOf_packWord 0x10 ..) rfl (mask_B _ _ _), rfl,
    nofun, by simp [encodeWord, unitWord]⟩

theorem write (u : UnitSel) (len : Word16) (p : List Byte) : Statement (.write u len p) :=
  ⟨_, decodeWord_of_row (opOf_packWord 0x11 ..) rfl (mask_L _ _ _), rfl,
    fun x hx => by obtain rfl := Option.some.inj hx; exact lenOf_packWord .., by simp [encodeWord, unitWord, Instr.payload, Instr.payload?]⟩

theorem writestr (u : UnitSel) (len : Word16) (p : List Byte) : Statement (.writestr u len p) :=
  ⟨_, decodeWord_of_row (opOf_packWord 0x12 ..) rfl (mask_L _ _ _), rfl,
    fun x hx => by obtain rfl := Option.some.inj hx; exact lenOf_packWord .., by simp [encodeWord, unitWord, Instr.payload, Instr.payload?]⟩

theorem read (u : UnitSel) (len : Word16) : Statement (.read u len) :=
  ⟨_, decodeWord_of_row (opOf_packWord 0x20 ..) rfl (mask_L _ _ _), rfl,
    nofun, by simp [encodeWord, unitWord]⟩

theorem readb (u : UnitSel) : Statement (.readb u) :=
  ⟨_, decodeWord_of_row (opOf_packWord 0x21 ..) rfl (mask_Z _ _), rfl,
    nofun, by simp [encodeWord, unitWord]⟩

theorem peekb (u : UnitSel) : Statement (.peekb u) :=
  ⟨_, decodeWord_of_row (opOf_packWord 0x22 ..) rfl (mask_Z _ _), rfl,
    nofun, by simp [encodeWord, unitWord]⟩

theorem peekat (u : UnitSel) (idx : Word16) : Statement (.peekat u idx) :=
  ⟨_, decodeWord_of_row (opOf_packWord 0x23 ..) rfl (mask_I _ _ _), rfl,
    nofun, by simp [encodeWord, unitWord]⟩

theorem delete (u : UnitSel) (len : Word16) : Statement (.delete u len) :=
  ⟨_, decodeWord_of_row (opOf_packWord 0x30 ..) rfl (mask_L _ _ _), rfl,
    nofun, by simp [encodeWord, unitWord]⟩

theorem deleteb (u : UnitSel) : Statement (.deleteb u) :=
  ⟨_, decodeWord_of_row (opOf_packWord 0x31 ..) rfl (mask_Z _ _), rfl,
    nofun, by simp [encodeWord, unitWord]⟩

theorem update (u : UnitSel) (len : Word16) (p : List Byte) : Statement (.update u len p) :=
  ⟨_, decodeWord_of_row (opOf_packWord 0x32 ..) rfl (mask_L _ _ _), rfl,
    fun x hx => by obtain rfl := Option.some.inj hx; exact lenOf_packWord .., by simp [encodeWord, unitWord, Instr.payload, Instr.payload?]⟩

theorem updateat (u : UnitSel) (idx : Word16) (len : Word16) (p : List Byte) : Statement (.updateat u idx len p) :=
  ⟨_, decodeWord_of_row (opOf_packWord 0x33 ..) rfl (mask_IL _ _ _ _), rfl,
    fun x hx => by obtain rfl := Option.some.inj hx; exact lenOf_packWord .., by simp [encodeWord, unitWord, Instr.payload, Instr.payload?]⟩

theorem updateb (u : UnitSel) (v : Byte) : Statement (.updateb u v) :=
  ⟨_, decodeWord_of_row (opOf_packWord 0x34 ..) rfl (mask_B _ _ _), rfl,
    nofun, by simp [encodeWord, unitWord]⟩

theorem updatebat (u : UnitSel) (idx : Word16) (v : Byte) : Statement (.updatebat u idx v) :=
  ⟨_, decodeWord_of_row (opOf_packWord 0x35 ..) rfl (mask_IB _ _ _ _), rfl,
    nofun, by simp [encodeWord, unitWord]⟩

theorem lock (u : UnitSel) : Statement (.lock u) :=
  ⟨_, decodeWord_of_row (opOf_packWord 0x40 ..) rfl (mask_Z _ _), rfl,
    nofun, by simp [encodeWord, unitWord]⟩

theorem unlock (u : UnitSel) : Statement (.unlock u) :=
  ⟨_, decodeWord_of_row (opOf_packWord 0x41 ..) rfl (mask_Z _ _), rfl,
    nofun, by simp [encodeWord, unitWord]⟩

theorem discard (u : UnitSel) : Statement (.discard u) :=
  ⟨_, decodeWord_of_row (opOf_packWord 0x42 ..) rfl (mask_Z _ _), rfl,
    nofun, by simp [encodeWord, unitWord]⟩

theorem chInit (sizeIn : Word16) (svIn : Bool) (sizeOut : Word16) (svOut : Bool) : Statement (.chInit sizeIn svIn sizeOut svOut) :=
  ⟨_, decodeWord_of_row (opOf_packWord 0x50 ..) rfl (mask_CS _ _ _ _ _), rfl,
    nofun, by simp [encodeWord]⟩

theorem rx (v : Byte) : Statement (.rx v) :=
  ⟨_, decodeWord_of_row (opOf_packWord 0x51 ..) rfl (mask_CB _ _), rfl,
    nofun, by simp [encodeWord, channelWord]⟩

theorem avail : Statement .avail :=
  ⟨_, decodeWord_of_row (opOf_packWord 0x52 ..) rfl (mask_CZ _), rfl,
    nofun, rfl⟩

theorem chRead (len : Word16) : Statement (.chRead len) :=
  ⟨_, decodeWord_of_row (opOf_packWord 0x53 ..) rfl (mask_CL _ _), rfl,
    nofun, by simp [encodeWord, channelWord]⟩

theorem chReadall : Statement .chReadall :=
  ⟨_, decodeWord_of_row (opOf_packWord 0x54 ..) rfl (mask_CZ _), rfl,
    nofun, rfl⟩

theorem chWrite (len : Word16) (p : List Byte) : Statement (.chWrite len p) :=
  ⟨_, decodeWord_of_row (opOf_packWord 0x55 ..) rfl (mask_CL _ _), rfl,
    fun x hx => by obtain rfl := Option.some.inj hx; exact lenOf_packWord .., by simp [encodeWord, channelWord, Instr.payload, Instr.payload?]⟩

theorem chWritestr (len : Word16) (p : List Byte) : Statement (.chWritestr len p) :=
  ⟨_, decodeWord_of_row (opOf_packWord 0x56 ..) rfl (mask_CL _ _), rfl,
    fun x hx => by obtain rfl := Option.some.inj hx; exact lenOf_packWord .., by simp [encodeWord, channelWord, Instr.payload, Instr.payload?]⟩

theorem chClear : Statement .chClear :=
  ⟨_, decodeWord_of_row (opOf_packWord 0x57 ..) rfl (mask_CZ _), rfl,
    nofun, rfl⟩

theorem irqDis : Statement .irqDis :=
  ⟨_, decodeWord_of_row (opOf_packWord 0x58 ..) rfl (mask_CZ _), rfl,
    nofun, rfl⟩

theorem irqEna : Statement .irqEna :=
  ⟨_, decodeWord_of_row (opOf_packWord 0x59 ..) rfl (mask_CZ _), rfl,
    nofun, rfl⟩

end Laws.WordDecodes

end Sys2Proof
end

