-- ==== Sys2Proof/Laws/Ports.lean ====
section
/-! SUPPORT. What the schedule, the ports and a step can do (rules R7, R44, R51, R111): one lemma per operation. -/

namespace Sys2Proof.Machine

open Sys2Proof

/-- Whose turn it can be, and what is used up: in every case nothing but the schedule changes. -/
theorem nextTurn_cases (s : State) :
    (s.schedule = [] ∧ nextTurn s = (.foreground, s)) ∨
      (∃ ts, s.schedule = .foreground :: ts ∧ nextTurn s = (.foreground, { s with schedule := ts })) ∨
      (∃ ts, s.schedule = .reset :: ts ∧ nextTurn s = (.reset, { s with schedule := ts })) ∨
      (∃ v ts, s.schedule = .producer v :: ts ∧ s.irqEn = true ∧
        nextTurn s = (.producer v, { s with schedule := ts })) ∨
      ∃ v ts, s.schedule = .producer v :: ts ∧ s.irqEn = false ∧ nextTurn s = (.foreground, s) := by
  unfold nextTurn
  split
  · exact .inl ⟨‹_›, rfl⟩
  · exact .inr (.inl ⟨_, ‹_›, rfl⟩)
  · exact .inr (.inr (.inl ⟨_, ‹_›, rfl⟩))
  · split
    · exact .inr (.inr (.inr (.inl ⟨_, _, ‹_›, ‹_›, rfl⟩)))
    · exact .inr (.inr (.inr (.inr ⟨_, _, ‹_›, Bool.eq_false_iff.2 ‹_›, rfl⟩)))

/-- Taking a turn changes nothing but the schedule. -/
theorem nextTurn_state (s : State) : ∃ ts, (nextTurn s).2 = { s with schedule := ts } := by
  obtain ⟨-, h⟩ | ⟨ts, -, h⟩ | ⟨ts, -, h⟩ | ⟨v, ts, -, -, h⟩ | ⟨v, ts, -, -, h⟩ := nextTurn_cases s
  all_goals exact ⟨_, by rw [h]⟩

/-- All the foreground's turn can do when it answers a next state. -/
theorem foregroundTurn_next {s t : State} (h : foregroundTurn s = .next t) :
    (∃ i rest, decode s.cmdPort = .command i rest ∧ exec i { s with cmdPort := rest } = .next t) ∨
      (∃ why rest, decode s.cmdPort = .illegal why rest ∧ t = answerIllegal { s with cmdPort := rest }) ∨
      decode s.cmdPort = .incomplete ∧ t = s.silent := by
  unfold foregroundTurn at h
  split at h
  · exact .inl ⟨_, _, ‹_›, h⟩
  · injection h with h
    exact .inr (.inl ⟨_, _, ‹_›, h.symm⟩)
  · injection h with h
    exact .inr (.inr ⟨‹_›, h.symm⟩)

/-- All a step can do when it answers a next state: the foreground's turn, a byte of the producer, or a reset. -/
theorem step_next {s t : State} (h : step s = .next t) :
    ∃ s', (nextTurn s = (.foreground, s') ∧ foregroundTurn s' = .next t) ∨
      (∃ v, nextTurn s = (.producer v, s') ∧ producerRx v s' = .next t) ∨
      nextTurn s = (.reset, s') ∧ t = hardwareReset s' := by
  refine ⟨(nextTurn s).2, ?_⟩
  unfold step takeTurn at h
  split at h
  · exact .inl ⟨Prod.ext ‹_› rfl, h⟩
  · exact .inr (.inl ⟨_, Prod.ext ‹_› rfl, h⟩)
  · injection h with h
    exact .inr (.inr ⟨Prod.ext ‹_› rfl, h.symm⟩)

end Sys2Proof.Machine
end

