-- ==== Sys2Proof/Tests/Slice0.lean ====
section
/-! SUPPORT. The model's own tests. Expected values come from spec/95_test_vectors.md (a vector's id stands beside its
test) or from the worked example of the rule that is named; then, for every statement of
Certificates/Slice0/Obligations.lean that has premises, a state and operands that meet them, clause by clause. -/

namespace Sys2Proof.Tests

open Sys2Proof Sys2Proof.Machine

/-! ## Small states -/

/-- A `READY` unit, in the notation of spec/95_test_vectors.md. -/
def ring (N R W : Nat) (L : Option Nat) (mem : Memory) : Fifo :=
  { mem := mem, N := N, R := R, W := W, L := L, phase := .ready, fill := 0 }

/-- A `READY` channel with the given units and interrupt mask. -/
def block (I O : Fifo) (irq : Bool) : State :=
  { State.reset with inb := I, outb := O, irqEn := irq, chPhase := .ready }

def empty8 : Fifo := ring 8 0 0 none []
def three8 : Fifo := ring 8 0 3 none [(0, 0x11), (1, 0x22), (2, 0x33)]
def five8 : Fifo := ring 8 0 5 none [(0, 0x0A), (1, 0x14), (2, 0x1E), (3, 0x28), (4, 0x32)]
def full8 : Fifo :=
  ring 8 1 0 none [(0, 1), (1, 2), (2, 3), (3, 4), (4, 5), (5, 6), (6, 7), (7, 8)]
def locked8 : Fifo := ring 8 0 5 (some 3) [(0, 0x11), (1, 0x22), (2, 0x33), (3, 0xAA), (4, 0xBB)]
def tentative8 : Fifo := ring 8 2 4 (some 2) [(2, 0x5A), (3, 0x5B)]
def wrapped8 : Fifo := ring 8 6 3 none [(0, 0x0C), (1, 0x0D), (2, 0x0E), (6, 0x0A), (7, 0x0B)]
def pinned4 : Fifo := ring 4 2 1 (some 2) [(0, 0xA3), (2, 0xA1), (3, 0xA2)]
def one : Fifo := ring 1 0 0 none []

/-- The response, and the unit `OUT`, after a command on `OUT`; `none` where the command stops. -/
def onOut (i : Instr) (O : Fifo) : Option (Option Response × Fifo) :=
  match exec i (block empty8 O false) with
  | .next t => some (t.resp, t.outb)
  | .fault _ => none
  | .refused _ => none

/-- The response, both units and the mask after a channel command. -/
def onChannel (i : Instr) (s : State) : Option (Option Response × Fifo × Fifo × Bool) :=
  match exec i s with
  | .next t => some (t.resp, t.inb, t.outb, t.irqEn)
  | .fault _ => none
  | .refused _ => none

/-- The phases after a command. -/
def phasesAfter (i : Instr) (s : State) : Option (Phase × Phase × Phase) :=
  match exec i s with
  | .next t => some (t.inb.phase, t.outb.phase, t.chPhase)
  | .fault _ => none
  | .refused _ => none

/-- Why a command is refused. -/
def refusal (i : Instr) (s : State) : Option Refusal :=
  match exec i s with
  | .next _ => none
  | .fault _ => none
  | .refused r => some r

/-- The sink's log after a command, with the two values of `TX_STR_NUL`. -/
def sunk (i : Instr) (nul : Bool) : Option (List Byte) :=
  match exec i { block empty8 empty8 false with config := { maxSize := 16384, txStrNul := nul } } with
  | .next t => some t.txLog
  | .fault _ => none
  | .refused _ => none

/-! ## Well-formedness (rule R56): an ill-formed record of each payload command is refused -/

theorem test_write_illFormed : ¬ (Instr.write .outbound 2 [0xAA]).wf := by decide
theorem test_writestr_illFormed : ¬ (Instr.writestr .outbound 0 [0xAA]).wf := by decide
theorem test_update_illFormed : ¬ (Instr.update .outbound 3 [1, 2]).wf := by decide
theorem test_updateat_illFormed : ¬ (Instr.updateat .outbound 0 1 []).wf := by decide
theorem test_chWrite_illFormed : ¬ (Instr.chWrite 65535 []).wf := by decide
theorem test_chWritestr_illFormed : ¬ (Instr.chWritestr 1 [1, 2]).wf := by decide
theorem test_write_wellFormed : (Instr.write .outbound 2 [0xAA, 0xBB]).wf := by decide
theorem test_illFormed_refused : refusal (.write .outbound 2 [1]) (block empty8 empty8 false) = some .badPayload := by
  decide

/-! ## Decoding: a word written out for every command (rules R52, R53, R62; 95_test_vectors.md 2.1) -/

theorem test_decode_status :
    decode [0x01, 0x03, 0, 0, 0, 0x08] = .command (.init .outbound 8 true) [] ∧
    decode [0x01, 0x02, 0, 0, 0, 0x10] = .command (.init .inbound 16 true) [] ∧
    decode [0x01, 0x01, 0, 0, 0, 0x08] = .command (.init .outbound 8 false) [] ∧
    decode [0x01, 0x03, 0, 0, 0xFF, 0xFF] = .command (.init .outbound 65535 true) [] ∧
    decode [0x02, 0, 0, 0, 0, 0] = .command (.clear .inbound) [] ∧
    decode [0x03, 1, 0, 0, 0, 0] = .command (.isempty .outbound) [] ∧
    decode [0x04, 1, 0, 0, 0, 0] = .command (.totalw .outbound) [] ∧
    decode [0x05, 1, 0, 0, 0, 0] = .command (.totalr .outbound) [] ∧
    decode [0x06, 1, 0, 0, 0, 0] = .command (.cap .outbound) [] ∧
    decode [0x07, 0, 0, 0, 0, 0] = .command (.islocked .inbound) [] := by decide

theorem test_decode_write :
    decode [0x10, 1, 0, 0, 0, 0x77] = .command (.writeb .outbound 0x77) [] ∧
    decode [0x11, 1, 0, 0, 0, 3, 0x0A, 0x0B, 0x0C, 0xFF] = .command (.write .outbound 3 [0x0A, 0x0B, 0x0C]) [0xFF] ∧
    decode [0x12, 1, 0, 0, 0, 2, 0x48, 0x69] = .command (.writestr .outbound 2 [0x48, 0x69]) [] ∧
    decode [0x11, 1, 0, 0, 0, 3, 0x0A] = .incomplete := by decide

theorem test_decode_read :
    decode [0x20, 1, 0, 0, 0, 7] = .command (.read .outbound 7) [] ∧
    decode [0x21, 1, 0, 0, 0, 0] = .command (.readb .outbound) [] ∧
    decode [0x22, 1, 0, 0, 0, 0] = .command (.peekb .outbound) [] ∧
    decode [0x23, 1, 0xFF, 0xFF, 0, 0] = .command (.peekat .outbound 65535) [] ∧
    decode [0x23, 0, 0, 0, 0, 0] = .command (.peekat .inbound 0) [] := by decide

theorem test_decode_delete_update :
    decode [0x30, 1, 0, 0, 0, 4] = .command (.delete .outbound 4) [] ∧
    decode [0x31, 1, 0, 0, 0, 0] = .command (.deleteb .outbound) [] ∧
    decode [0x32, 1, 0, 0, 0, 2, 9, 8] = .command (.update .outbound 2 [9, 8]) [] ∧
    decode [0x33, 1, 0, 2, 0, 2, 0xAA, 0xBB] = .command (.updateat .outbound 2 2 [0xAA, 0xBB]) [] ∧
    decode [0x34, 1, 0, 0, 0, 0xFF] = .command (.updateb .outbound 0xFF) [] ∧
    decode [0x35, 1, 0, 1, 0, 0x5A] = .command (.updatebat .outbound 1 0x5A) [] := by decide

theorem test_decode_transaction :
    decode [0x40, 0, 0, 0, 0, 0] = .command (.lock .inbound) [] ∧
    decode [0x41, 1, 0, 0, 0, 0] = .command (.unlock .outbound) [] ∧
    decode [0x42, 1, 0, 0, 0, 0] = .command (.discard .outbound) [] := by decide

theorem test_decode_channel :
    decode [0x50, 0x06, 0x00, 0x40, 0x00, 0x20] = .command (.chInit 64 true 32 true) [] ∧
    decode [0x50, 0x02, 0, 8, 0, 8] = .command (.chInit 8 true 8 false) [] ∧
    decode [0x51, 0, 0, 0, 0, 0xFF] = .command (.rx 0xFF) [] ∧
    decode [0x52, 0, 0, 0, 0, 0] = .command .avail [] ∧
    decode [0x53, 0, 0, 0, 0, 3] = .command (.chRead 3) [] ∧
    decode [0x54, 0, 0, 0, 0, 0] = .command .chReadall [] ∧
    decode [0x55, 0, 0, 0, 0, 2, 0x4F, 0x4B] = .command (.chWrite 2 [0x4F, 0x4B]) [] ∧
    decode [0x56, 0, 0, 0, 0, 2, 0x4F, 0x4B] = .command (.chWritestr 2 [0x4F, 0x4B]) [] ∧
    decode [0x57, 0, 0, 0, 0, 0] = .command .chClear [] ∧
    decode [0x58, 0, 0, 0, 0, 0] = .command .irqDis [] ∧
    decode [0x59, 0, 0, 0, 0, 0] = .command .irqEna [] := by decide

/-- The same numbering of bits as spec/opcode_table.json: bit 0 the least significant bit of the word. -/
theorem test_decodeTableWord :
    decodeTableWord 48 0x010300000008 = some (.init .outbound 8 true) ∧
    decodeTableWord 48 0x110100000002 = some (.write .outbound 2 [0, 0]) ∧
    decodeTableWord 48 0x500600400020 = some (.chInit 64 true 32 true) ∧
    decodeTableWord 48 0x590000000000 = some .irqEna ∧ decodeTableWord 48 0 = none := by decide

/-- Whether six bytes are an illegal word. -/
def illegalWord (w : Nat) : Bool :=
  match decode (bytesOfWord (BitVec.ofNat 48 w)) with
  | .illegal _ _ => true
  | .command _ _ => false
  | .incomplete => false

/-- The illegal words of 95_test_vectors.md 2.2. -/
theorem test_illegal_words :
    ∀ w ∈ [0x000000000000, 0xFF0000000000, 0x080100000000, 0x130100000000, 0x240100000000, 0x360100000000,
        0x430100000000, 0x5A0000000000, 0x020900000000, 0x028100000000, 0x020100000001, 0x020100010000,
        0x400300000000, 0x010700000008, 0x010300010008, 0x100100000141, 0x100100010041, 0x200100010004,
        0x230100040001, 0x350100010155, 0x330500010002, 0x520100000000, 0x540000000001, 0x530000010002,
        0x550200000002, 0x51000001000A, 0x51000000010A, 0x500700080008, 0x500E00080008],
      illegalWord w = true := by decide

/-! ## Primitives (95_test_vectors.md section 5) and response words (2.3) -/

theorem test_inc : inc empty8 0 = 1 ∧ inc empty8 7 = 0 ∧ inc one 0 = 0 := by decide
theorem test_span : span empty8 1 0 = 7 ∧ span empty8 7 6 = 7 ∧ span empty8 5 2 = 5 ∧ span empty8 3 3 = 0 := by decide
theorem test_ea : ea wrapped8 1 = 7 ∧ ea wrapped8 2 = 0 ∧ ea wrapped8 3 = 1 := by decide
theorem test_counts : eff locked8 = 3 ∧ written locked8 = 5 ∧ readable locked8 = 3 ∧ readable tentative8 = 0 := by
  decide
theorem test_full : fullFlag full8 = true ∧ fullFlag one = true ∧ emptyFlag tentative8 = false := by decide
theorem test_responseWord :
    responseWord (okResponse 0xBB) = 0x0400BB ∧ responseWord (okResponse 65535) = 0x04FFFF ∧
    responseWord (failResponse .config) = 0x010000 ∧ responseWord (failResponse .avail) = 0x020000 ∧
    responseWord (failResponse .illegal) = 0x030000 := by decide

/-! ## One step of each command -/

/-- V40-1, V40-4: INIT from reset, and a size above `MAX_SIZE`. -/
theorem test_init : phasesAfter (.init .outbound 8 true) State.reset = some (.reset, .ready, .reset) ∧
    phasesAfter (.init .outbound 16385 true) State.reset = some (.reset, .failed, .reset) := by decide
/-- VR-4, VR-19. -/
theorem test_init_refused : refusal (.init .outbound 8 true) (block empty8 empty8 false) = some .reInit ∧
    refusal (.init .inbound 8 true) { State.reset with irqEn := true } = some .unbracketedInbound := by decide
/-- V44-21: the bytes stay in the storage. -/
theorem test_clear : onOut (.clear .outbound) (ring 8 3 6 (some 5) [(3, 1), (4, 2), (5, 3)]) =
    some (some (okResponse 0), ring 8 0 0 none [(3, 1), (4, 2), (5, 3)]) := by decide
/-- V40-13, V40-15. -/
theorem test_isempty : onOut (.isempty .outbound) (ring 8 2 2 none []) = some (some (okResponse 1), ring 8 2 2 none []) ∧
    onOut (.isempty .outbound) tentative8 = some (some (okResponse 0), tentative8) := by decide
/-- V40-20, V40-23. -/
theorem test_totalw : onOut (.totalw .outbound) full8 = some (some (okResponse 7), full8) ∧
    onOut (.totalw .outbound) locked8 = some (some (okResponse 5), locked8) := by decide
/-- V40-22, V40-16. -/
theorem test_totalr : onOut (.totalr .outbound) locked8 = some (some (okResponse 3), locked8) ∧
    onOut (.totalr .outbound) tentative8 = some (some (okResponse 0), tentative8) := by decide
/-- V40-8, V40-21. -/
theorem test_cap : onOut (.cap .outbound) one = some (some (okResponse 0), one) ∧
    onOut (.cap .outbound) full8 = some (some (okResponse 7), full8) := by decide
/-- V40-18, V40-26. -/
theorem test_islocked : onOut (.islocked .outbound) tentative8 = some (some (okResponse 1), tentative8) ∧
    onOut (.islocked .outbound) three8 = some (some (okResponse 0), three8) := by decide
/-- V41-12: the evicted slot is the lock cursor's. -/
theorem test_writeb : onOut (.writeb .outbound 0xA4) pinned4 =
    some (some (okResponse 0), ring 4 3 2 (some 3) [(0, 0xA3), (1, 0xA4), (2, 0xA1), (3, 0xA2)]) := by decide
/-- V41-9: allocated size 1. -/
theorem test_writeb_one : onOut (.writeb .outbound 0x77) one = some (some (okResponse 0), ring 1 0 0 none [(0, 0x77)]) := by
  decide
/-- V41-4. -/
theorem test_write : onOut (.write .outbound 5 [1, 2, 3, 4, 5]) (ring 4 0 0 none []) =
    some (some (okResponse 5), ring 4 2 1 none [(0, 5), (1, 2), (2, 3), (3, 4)]) := by decide
/-- V41-13: the iteration ceiling, `MAX_SIZE = 4`. -/
theorem test_write_ceiling : onChannel (.write .outbound 6 [1, 2, 3, 4, 5, 6])
      { block empty8 (ring 4 0 0 none []) false with config := { maxSize := 4, txStrNul := false } } =
    some (some (okResponse 4), empty8, ring 4 1 0 none [(0, 1), (1, 2), (2, 3), (3, 4)], false) := by decide
/-- V41-15, V41-7. -/
theorem test_writestr : onOut (.writestr .outbound 3 [0x61, 0x62, 0x63]) (ring 4 0 0 none []) =
      some (some (okResponse 4), ring 4 1 0 none [(0, 0x61), (1, 0x62), (2, 0x63), (3, 0)]) ∧
    onOut (.writestr .outbound 0 []) empty8 = some (some (okResponse 1), ring 8 0 1 none [(0, 0)]) := by decide
/-- V42-7: a read across the end of the storage. -/
theorem test_read : onOut (.read .outbound 5) wrapped8 =
    some (some { ok := true, err := .none, val := 5, out := [0x0A, 0x0B, 0x0C, 0x0D, 0x0E] },
      ring 8 3 3 none [(0, 0x0C), (1, 0x0D), (2, 0x0E), (6, 0x0A), (7, 0x0B)]) := by decide
/-- V42-3, V42-4, V42-8: length 0 on an empty and on a non-empty unit, and more than is committed. -/
theorem test_read_bounds : onOut (.read .outbound 0) empty8 = some (some (failResponse .avail), empty8) ∧
    onOut (.read .outbound 0) three8 = some (some (okResponse 0), three8) ∧
    onOut (.read .outbound 4) locked8 = some (some (failResponse .avail), locked8) := by decide
/-- The example of R85, and its corner case of a locked unit without committed bytes. -/
theorem test_readb : onOut (.readb .outbound) (ring 8 0 2 none [(0, 0x0A), (1, 0x0B)]) =
      some (some (okResponse 0x0A), ring 8 1 2 none [(0, 0x0A), (1, 0x0B)]) ∧
    onOut (.readb .outbound) tentative8 = some (some (failResponse .avail), tentative8) := by decide
/-- R86: an empty unit, and the first tentative byte. -/
theorem test_peekb : onOut (.peekb .outbound) empty8 = some (some (failResponse .avail), empty8) ∧
    onOut (.peekb .outbound) tentative8 = some (some (okResponse 0x5A), tentative8) := by decide
/-- V42-9, and the next offset. -/
theorem test_peekat : onOut (.peekat .outbound 4) locked8 = some (some (okResponse 0xBB), locked8) ∧
    onOut (.peekat .outbound 5) locked8 = some (some (failResponse .avail), locked8) := by decide
/-- The example of R88, and one byte too many. -/
theorem test_delete : onOut (.delete .outbound 4) wrapped8 = some (some (okResponse 0), ring 8 2 3 none wrapped8.mem) ∧
    onOut (.delete .outbound 6) wrapped8 = some (some (failResponse .avail), wrapped8) := by decide
/-- The example of R89, and nothing readable. -/
theorem test_deleteb : onOut (.deleteb .outbound) (ring 8 7 2 none []) = some (some (okResponse 0), ring 8 0 2 none []) ∧
    onOut (.deleteb .outbound) tentative8 = some (some (failResponse .avail), tentative8) := by decide
/-- The example of R90. -/
theorem test_update : onOut (.update .outbound 2 [9, 8]) (ring 8 0 3 none [(0, 1), (1, 2), (2, 3)]) =
    some (some (okResponse 0), ring 8 0 3 none [(0, 9), (1, 8), (2, 3)]) := by decide
/-- The example of R91, and its locked corner case `2 + 2 > 3`. -/
theorem test_updateat : onOut (.updateat .outbound 1 2 [0x58, 0x59]) wrapped8 =
      some (some (okResponse 0), ring 8 6 3 none [(0, 0x59), (1, 0x0D), (2, 0x0E), (6, 0x0A), (7, 0x58)]) ∧
    onOut (.updateat .outbound 2 2 [1, 2]) locked8 = some (some (failResponse .avail), locked8) := by decide
/-- The example of R92, and its locked corner case. -/
theorem test_updateb : onOut (.updateb .outbound 0xFF) (ring 8 2 4 none [(2, 0x10), (3, 0x11)]) =
      some (some (okResponse 0), ring 8 2 4 none [(2, 0xFF), (3, 0x11)]) ∧
    onOut (.updateb .outbound 0xFF) tentative8 = some (some (failResponse .avail), tentative8) := by decide
/-- The example of R93, and P2 step 8. -/
theorem test_updatebat : onOut (.updatebat .outbound 2 0x55) (ring 8 6 1 none [(0, 3), (6, 1), (7, 2)]) =
      some (some (okResponse 0), ring 8 6 1 none [(0, 0x55), (6, 1), (7, 2)]) ∧
    onOut (.updatebat .outbound 3 0x55) locked8 = some (some (failResponse .avail), locked8) := by decide
/-- V44-9; VR-5. -/
theorem test_lock : onOut (.lock .outbound) locked8 = some (some (okResponse 0), ring 8 0 5 (some 5) locked8.mem) ∧
    refusal (.lock .inbound) (block empty8 empty8 false) = some .lockOnInbound := by decide
/-- V44-5; VR-8. -/
theorem test_unlock : onOut (.unlock .outbound) locked8 = some (some (okResponse 0), ring 8 0 5 none locked8.mem) ∧
    refusal (.unlock .inbound) (block empty8 empty8 true) = some .lockOnInbound := by decide
/-- V44-7, V44-12. -/
theorem test_discard : onOut (.discard .outbound) locked8 = some (some (okResponse 0), ring 8 0 3 none locked8.mem) ∧
    onOut (.discard .outbound) three8 = some (some (okResponse 0), three8) := by decide
/-- V45-4, V45-2. -/
theorem test_chInit : phasesAfter (.chInit 64 true 32 true) State.reset = some (.ready, .ready, .ready) ∧
    phasesAfter (.chInit 8 true 8 false) State.reset = some (.failed, .failed, .failed) := by decide
/-- V45-6; VR-13. -/
theorem test_rx : onChannel (.rx 0xFF) (block (ring 8 0 1 none [(0, 0x0A)]) empty8 true) =
      some (some (okResponse 0), ring 8 0 2 none [(0, 0x0A), (1, 0xFF)], empty8, true) ∧
    refusal (.rx 1) State.reset = some .notReady := by decide
/-- V45-9: the mask is 1 afterwards. -/
theorem test_avail : onChannel .avail (block five8 empty8 false) = some (some (okResponse 5), five8, empty8, true) := by
  decide
/-- V45-10. -/
theorem test_chRead : onChannel (.chRead 3) (block five8 empty8 true) =
    some (some (okResponse 3), ring 8 3 5 none five8.mem, ring 8 0 3 none [(0, 0x0A), (1, 0x14), (2, 0x1E)], true) := by
  decide
/-- V45-13: a count of 0 still ends the bracket. -/
theorem test_chRead_zero : onChannel (.chRead 0) (block five8 empty8 false) =
    some (some (okResponse 0), five8, empty8, true) := by decide
/-- V45-14: `OUT` overflows. -/
theorem test_chReadall : onChannel .chReadall (block five8 (ring 4 0 1 none [(0, 0x99)]) true) =
    some (some (okResponse 5), ring 8 5 5 none five8.mem,
      ring 4 3 2 none [(0, 0x28), (1, 0x32), (2, 0x14), (3, 0x1E)], true) := by decide
/-- V45-15: the transferred bytes are tentative in a locked `OUT`. -/
theorem test_chReadall_locked :
    onChannel .chReadall (block (ring 8 0 2 none [(0, 0x0A), (1, 0x14)]) (ring 8 0 2 (some 2) [(0, 0x11), (1, 0x22)]) true) =
      some (some (okResponse 2), ring 8 2 2 none [(0, 0x0A), (1, 0x14)],
        ring 8 0 4 (some 2) [(0, 0x11), (1, 0x22), (2, 0x0A), (3, 0x14)], true) := by decide
/-- V45-16. -/
theorem test_chWrite : sunk (.chWrite 2 [0x4F, 0x4B]) true = some [0x4F, 0x4B] := by decide
/-- V45-25. -/
theorem test_chWritestr : sunk (.chWritestr 3 [0x41, 0, 0x42]) false = some [0x41, 0, 0x42] ∧
    sunk (.chWritestr 3 [0x41, 0, 0x42]) true = some [0x41, 0, 0x42, 0] := by decide
/-- V45-18. -/
theorem test_chClear : onChannel .chClear (block (ring 8 3 7 none [(3, 1), (4, 2), (5, 3), (6, 4)]) three8 true) =
    some (some (okResponse 0), ring 8 0 0 none [(3, 1), (4, 2), (5, 3), (6, 4)], three8, true) := by decide
/-- V45-19, V45-22: admitted in every phase. -/
theorem test_irq : onChannel .irqDis (block empty8 empty8 true) = some (some (okResponse 0), empty8, empty8, false) ∧
    (match exec .irqEna State.reset with
      | .next t => t.irqEn
      | .fault _ => false
      | .refused _ => false) = true := by decide
/-- VR-7, VR-1, VR-17. -/
theorem test_refusals : refusal (.totalw .inbound) (block empty8 empty8 true) = some .unbracketedInbound ∧
    refusal (.writeb .outbound 1) State.reset = some .notReady ∧
    refusal (.chInit 8 true 8 true) { State.reset with chPhase := .failed } = some .reInit := by decide

/-! ## Witnesses: for each statement with premises, values that meet them -/

theorem witness_DecodeOfEncode :
    (Instr.write .outbound 2 [0xAA, 0xBB]).wf ∧ (Instr.updateat .inbound 65535 0 []).wf ∧ Instr.avail.wf := by decide

theorem witness_EncodeOfDecode :
    decode [0x11, 1, 0, 0, 0, 1, 7, 8] = .command (.write .outbound 1 [7]) [8] ∧
    decode [0x55, 0, 0, 0, 0, 0] = .command (.chWrite 0 []) [] := by decide

theorem witness_BytesOfEveryCommand : ∃ (hi lo : Word16 → Byte) (ub svb svob : Byte),
    hi = (fun w => w.extractLsb' 8 8) ∧ lo = (fun w => w.extractLsb' 0 8) ∧
    ub = (if UnitSel.outbound = .outbound then 1 else 0) ∧ svb = (if true then 2 else 0) ∧
    svob = (if false then 4 else 0) := ⟨_, _, _, _, _, rfl, rfl, rfl, rfl, rfl⟩

theorem witness_IllegalWordAnswered_reservedOp :
    (∀ i : Instr, encodeWord i ≠ 0) ∧ nextTurn { State.reset with cmdPort := [0, 0, 0, 0, 0, 0] } =
      (.foreground, { State.reset with cmdPort := bytesOfWord 0 ++ [] }) := by
  refine ⟨fun i h => ?_, rfl⟩
  have := congrArg opOf h
  cases i <;> simp [encodeWord, unitWord, channelWord] at this <;> revert this <;> decide

/-- A legal `op` with a bit its format fixes to 0: CLEAR with `sv = 1`. -/
theorem witness_IllegalWordAnswered_fixedBit : ∀ i : Instr, encodeWord i ≠ 0x020300000000 := by
  intro i h
  have h1 := congrArg opOf h
  have h2 := congrArg svOf h
  cases i <;> simp [encodeWord, unitWord, channelWord] at h1 h2 <;>
    first | (revert h1; decide) | (revert h1 h2; decide)

theorem witness_StepRunsDecodedCommand :
    (block empty8 empty8 false).schedule = [] ∧
    ({ State.reset with schedule := [.foreground, .reset] } : State).schedule = .foreground :: [.reset] ∧
    ({ State.reset with schedule := [.producer 7] } : State).schedule = .producer 7 :: [] ∧ State.reset.irqEn = false ∧
    nextTurn { State.reset with cmdPort := [0x59, 0, 0, 0, 0, 0] } =
      (.foreground, { State.reset with cmdPort := [0x59, 0, 0, 0, 0, 0] }) ∧
    decode [0x59, 0, 0, 0, 0, 0] = .command .irqEna [] := by decide

theorem witness_FetchWordRunsCommand :
    decodeTableWord 48 0x590000000000 = some .irqEna ∧ decodeTableWord 48 0x010300000008 = some (.init .outbound 8 true) := by
  decide

theorem witness_ResetMeetsBlockInv :
    (Config.mk 1 true).wf ∧ (Config.mk 65535 false).wf ∧ Config.suggested.wf := by decide

/-- For `StepKeepsBlockInv`, `NoStepFaultsUnderBlockInv` and `InitialStorageNeverShows`: a command, an RX of the
producer and a hardware reset, from a state with bytes in a locked `OUT`. -/
theorem witness_BlockInv_command : BlockInv (block five8 locked8 false) ∧
    ∃ t, step { block five8 locked8 false with cmdPort := [0x54, 0, 0, 0, 0, 0] } = .next t := by
  exact ⟨⟨by decide, by decide, by decide, by decide⟩, _, rfl⟩

theorem witness_BlockInv_producer : BlockInv { block full8 pinned4 true with schedule := [.producer 9] } ∧
    ∃ t, step { block full8 pinned4 true with schedule := [.producer 9] } = .next t := by
  exact ⟨⟨by decide, by decide, by decide, by decide⟩, _, rfl⟩

theorem witness_BlockInv_reset : BlockInv { block one tentative8 true with schedule := [.reset] } ∧
    ∃ t, step { block one tentative8 true with schedule := [.reset] } = .next t := by
  exact ⟨⟨by decide, by decide, by decide, by decide⟩, _, rfl⟩

theorem witness_HardwareResetValues :
    ({ block five8 locked8 true with schedule := [.reset] } : State).schedule = .reset :: [] ∧
    (∀ ts, (block five8 locked8 true).schedule ≠ .reset :: ts) ∧ (block five8 locked8 true).outb.phase ≠ .reset ∧
    (block five8 locked8 true).chPhase ≠ .reset ∧
    ∃ t, step { block five8 locked8 true with cmdPort := [0x58, 0, 0, 0, 0, 0] } = .next t := by
  exact ⟨rfl, nofun, by decide, by decide, _, rfl⟩

theorem witness_CursorArithmetic : 1 ≤ one.N ∧ 0 < one.N ∧ 1 ≤ empty8.N ∧ 7 < empty8.N := by decide

theorem witness_CountsOfUnit :
    (locked8.inRange ∧ locked8.ordered ∧ locked8.L = some 3) ∧ (full8.inRange ∧ full8.ordered ∧ full8.L = none) ∧
    (pinned4.inRange ∧ pinned4.ordered) ∧ (one.inRange ∧ one.ordered ∧ one.N = 1) := by decide

/-- Full and not full, unlocked and locked, the lock cursor on the evicted slot, allocated size 1. -/
theorem witness_PushStoresAdvancesEvicts :
    (full8.inRange ∧ written full8 = full8.N - 1 ∧ full8.L = none) ∧
    (locked8.inRange ∧ written locked8 ≠ locked8.N - 1 ∧ locked8.L = some 3) ∧
    (pinned4.inRange ∧ written pinned4 = pinned4.N - 1 ∧ pinned4.L = some pinned4.R) ∧
    (one.inRange ∧ written one = one.N - 1) := by decide

theorem witness_PushesKeepNewestBytes : full8.inRange ∧ pinned4.inRange ∧ one.inRange := by decide

theorem witness_StatusOutputsShowState :
    (Fifo.afterReset 0).phase ≠ .ready ∧ (locked8.phase = .ready ∧ locked8.legal ∧ locked8.ordered ∧ locked8.L = some 3) ∧
    ((ring 65535 65534 0 none []).phase = .ready ∧ (ring 65535 65534 0 none []).legal ∧
      (ring 65535 65534 0 none []).ordered ∧ (ring 65535 65534 0 none []).L = none) := by decide

theorem witness_InitOutcome :
    ¬ ((UnitSel.inbound = .inbound → ({ State.reset with irqEn := true } : State).irqEn = false) ∧
      (({ State.reset with irqEn := true } : State).unit .inbound).phase = .reset) ∧
    ¬ ((UnitSel.outbound = .inbound → (block empty8 empty8 false).irqEn = false) ∧
      ((block empty8 empty8 false).unit .outbound).phase = .reset) ∧
    (State.reset.irqEn = false ∧ (State.reset.unit .inbound).phase = .reset ∧ (State.reset.unit .outbound).phase = .reset) ∧
    (0 : Word16).toNat = 0 ∧ State.reset.config.maxSize < (16385 : Word16).toNat ∧
    (1 ≤ (1 : Word16).toNat ∧ (16384 : Word16).toNat ≤ State.reset.config.maxSize) := by decide

/-- A unit that may be used, and one that may not, of each kind: for the statements about FIFO-unit commands. -/
theorem witness_mayUse :
    (block empty8 locked8 false).mayUse .inbound ∧ (block empty8 locked8 true).mayUse .outbound ∧
    ¬ (block empty8 locked8 true).mayUse .inbound ∧ ¬ State.reset.mayUse .outbound := by decide

theorem witness_ClearEmptiesUnit : (block empty8 locked8 true).mayUse .outbound ∧ ¬ State.reset.mayUse .inbound := by decide

theorem witness_QueriesAnswer : ¬ State.reset.mayUse .inbound ∧
    (block one locked8 false).mayUse .inbound ∧ ((block one locked8 false).unit .inbound).legal ∧
    (block one locked8 false).mayUse .outbound ∧ ((block one locked8 false).unit .outbound).legal := by decide

theorem witness_WritebPushes : ¬ State.reset.mayUse .outbound ∧
    (block one full8 false).mayUse .outbound ∧ ((block one full8 false).unit .outbound).inRange ∧
    (block one full8 false).mayUse .inbound ∧ ((block one full8 false).unit .inbound).inRange := by decide

/-- No byte, and more bytes than `MAX_SIZE`. -/
theorem witness_WritePushesPayload :
    ([] : List Byte).length = (0 : Word16).toNat ∧ ([1, 2, 3] : List Byte).length = (3 : Word16).toNat ∧
    ({ block one full8 false with config := { maxSize := 2, txStrNul := false } } : State).config.maxSize < 3 ∧
    ({ block one full8 false with config := { maxSize := 2, txStrNul := false } } : State).mayUse .outbound ∧
    full8.inRange ∧ ¬ State.reset.mayUse .outbound := by decide

/-- A count that fits in `val`, and the one that does not. -/
theorem witness_WritestrPushesTerminated :
    (block one full8 false).mayUse .outbound ∧ full8.inRange ∧ ¬ State.reset.mayUse .outbound ∧
    (([] : List Byte).length = (0 : Word16).toNat ∧ min (0 : Word16).toNat 16384 + 1 < 65536) ∧
    ((List.replicate 65535 (0 : Byte)).length = (65535 : Word16).toNat ∧
      ¬ min (65535 : Word16).toNat 65535 + 1 < 65536) := by
  refine ⟨by decide, by decide, by decide, by decide, ?_, by decide⟩
  rw [List.length_replicate]
  rfl

theorem witness_ReadTakesOldest :
    ((block empty8 locked8 false).mayUse .outbound ∧ locked8.inRange ∧ locked8.ordered) ∧
    (empty8.inRange ∧ empty8.ordered ∧ empty8.R = empty8.W) ∧ readable locked8 < (4 : Word16).toNat ∧
    (locked8.R ≠ locked8.W ∧ (3 : Word16).toNat ≤ readable locked8) ∧
    (tentative8.R ≠ tentative8.W ∧ (0 : Word16).toNat ≤ readable tentative8) ∧ ¬ State.reset.mayUse .outbound := by decide

theorem witness_ReadbPopsOldest :
    ((block empty8 locked8 false).mayUse .outbound ∧ locked8.inRange ∧ locked8.ordered ∧ readable locked8 ≠ 0) ∧
    ((block empty8 tentative8 false).mayUse .outbound ∧ tentative8.inRange ∧ tentative8.ordered ∧
      readable tentative8 = 0) ∧ ¬ State.reset.mayUse .outbound := by decide

theorem witness_PeeksShowHeldBytes :
    ((block empty8 locked8 false).mayUse .outbound ∧ locked8.inRange ∧ (contents locked8)[0]? = some 0x11 ∧
      written locked8 ≤ (5 : Word16).toNat ∧ (4 : Word16).toNat < written locked8) ∧
    ((block empty8 empty8 false).mayUse .inbound ∧ empty8.inRange ∧ written empty8 = 0) ∧
    ¬ State.reset.mayUse .outbound := by decide

theorem witness_DeletesDropOldest :
    ((block empty8 locked8 false).mayUse .outbound ∧ locked8.inRange ∧ locked8.ordered ∧
      readable locked8 < (4 : Word16).toNat ∧ (3 : Word16).toNat ≤ readable locked8 ∧ readable locked8 ≠ 0) ∧
    ((block empty8 tentative8 false).mayUse .outbound ∧ readable tentative8 = 0) ∧ ¬ State.reset.mayUse .outbound := by
  decide

/-- The last committed bytes, one offset too far, and no bytes at the end of the committed ones. -/
theorem witness_UpdatesOverwriteCommitted :
    ((block empty8 locked8 false).mayUse .outbound ∧ locked8.inRange ∧ locked8.ordered) ∧
    ([1, 2] : List Byte).length = (2 : Word16).toNat ∧ (1 : Word16).toNat + (2 : Word16).toNat ≤ readable locked8 ∧
    readable locked8 < (2 : Word16).toNat + (2 : Word16).toNat ∧ (2 : Word16).toNat ≤ readable locked8 ∧
    (([7, 8, 9, 10] : List Byte).length = (4 : Word16).toNat ∧ readable locked8 < (4 : Word16).toNat) ∧
    (([] : List Byte).length = (0 : Word16).toNat ∧ (3 : Word16).toNat + (0 : Word16).toNat ≤ readable locked8) ∧
    ¬ State.reset.mayUse .outbound := by decide

theorem witness_ByteUpdatesOverwriteCommitted :
    ((block empty8 locked8 false).mayUse .outbound ∧ locked8.inRange ∧ locked8.ordered) ∧
    readable locked8 ≤ (3 : Word16).toNat ∧ (2 : Word16).toNat < readable locked8 ∧ readable locked8 ≠ 0 ∧
    ((block empty8 tentative8 false).mayUse .outbound ∧ tentative8.inRange ∧ tentative8.ordered ∧
      readable tentative8 = 0) ∧ ¬ State.reset.mayUse .outbound := by decide

/-- For LOCK, UNLOCK and DISCARD. -/
theorem witness_LockMarksWritePosition :
    State.reset.outb.phase ≠ .ready ∧ (block empty8 locked8 true).outb.phase = .ready := by decide

theorem witness_UnlockCommits :
    State.reset.outb.phase ≠ .ready ∧ (block empty8 three8 false).outb.phase = .ready := by decide

theorem witness_DiscardRollsBack : State.reset.outb.phase ≠ .ready ∧
    ((block empty8 three8 false).outb.phase = .ready ∧ (block empty8 three8 false).outb.L = none) ∧
    ((block empty8 locked8 true).outb.phase = .ready ∧ (block empty8 locked8 true).outb.L = some 3) := by decide

theorem witness_ChInitOutcome :
    (State.reset.irqEn = false ∧ State.reset.chPhase = .reset ∧ State.reset.inb.phase = .reset ∧
      State.reset.outb.phase = .reset) ∧
    ¬ ((block empty8 empty8 false).irqEn = false ∧ (block empty8 empty8 false).chPhase = .reset ∧
      (block empty8 empty8 false).inb.phase = .reset ∧ (block empty8 empty8 false).outb.phase = .reset) ∧
    (0 : Word16).toNat = 0 ∧ State.reset.config.maxSize < (16385 : Word16).toNat ∧
    (1 ≤ (1 : Word16).toNat ∧ (16384 : Word16).toNat ≤ State.reset.config.maxSize) := by decide

/-- For RX, AVAIL, CH_READ, CH_READALL, CH_WRITE, CH_WRITESTR and CH_CLEAR: a channel that is `READY` and one that is
not, `IN` full, and units of allocated size 1. -/
theorem witness_channel_ready :
    State.reset.chPhase ≠ .ready ∧
    ((block full8 locked8 true).chPhase = .ready ∧ (block full8 locked8 true).inb.legal ∧
      (block full8 locked8 true).inb.L = none ∧ (block full8 locked8 true).outb.inRange) ∧
    ((block one one false).chPhase = .ready ∧ (block one one false).inb.legal ∧ (block one one false).inb.L = none ∧
      (block one one false).outb.inRange) := by decide

theorem witness_RxPushesIntoInbound : State.reset.chPhase ≠ .ready ∧
    (block full8 one true).chPhase = .ready ∧ (block full8 one true).inb.inRange := by decide

theorem witness_AvailCountsInbound : State.reset.chPhase ≠ .ready ∧
    (block full8 one true).chPhase = .ready ∧ (block full8 one true).inb.legal := by decide

theorem witness_ChReadMovesBytes : State.reset.chPhase ≠ .ready ∧
    (block full8 locked8 false).chPhase = .ready ∧ (block full8 locked8 false).inb.legal ∧
    (block full8 locked8 false).inb.L = none ∧ (block full8 locked8 false).outb.inRange := by decide

theorem witness_ChReadallDrainsInbound : State.reset.chPhase ≠ .ready ∧
    (block five8 pinned4 true).chPhase = .ready ∧ (block five8 pinned4 true).inb.legal ∧
    (block five8 pinned4 true).inb.L = none ∧ (block five8 pinned4 true).outb.inRange := by decide

theorem witness_ChWriteReachesSink : ([] : List Byte).length = (0 : Word16).toNat ∧
    ([1, 2] : List Byte).length = (2 : Word16).toNat ∧ State.reset.chPhase ≠ .ready ∧
    (block five8 pinned4 true).chPhase = .ready := by decide

theorem witness_ChWritestrReachesSink : ([1, 2] : List Byte).length = (2 : Word16).toNat ∧
    State.reset.chPhase ≠ .ready ∧ (block five8 pinned4 true).chPhase = .ready ∧
    (block five8 pinned4 true).config.txStrNul = false ∧
    ({ block five8 pinned4 true with config := { maxSize := 1, txStrNul := true } } : State).config.txStrNul = true := by
  decide

theorem witness_ChClearEmptiesInbound :
    State.reset.chPhase ≠ .ready ∧ (block five8 pinned4 false).chPhase = .ready := by decide

theorem witness_ProducerActsOnlyWhenEnabled :
    ({ State.reset with irqEn := true, schedule := [.producer 9] } : State).chPhase ≠ .ready ∧
    (({ block full8 one true with schedule := [.producer 9] } : State).schedule = .producer 9 :: [] ∧
      (block full8 one true).irqEn = true ∧ (block full8 one true).chPhase = .ready ∧ full8.inRange) ∧
    (({ block full8 one false with schedule := [.producer 9] } : State).schedule = .producer 9 :: [] ∧
      (block full8 one false).irqEn = false ∧
      ∃ t, step { block full8 one false with schedule := [.producer 9] } = .next t) := by
  exact ⟨by decide, by decide, rfl, rfl, _, rfl⟩

theorem witness_FifoCommandAdmission :
    (fifoClass (.lock .inbound) = some (.transaction, .inbound) ∧ (Instr.lock .inbound).wf) ∧
    (fifoClass (.cap .inbound) = some (.ordinary, .inbound) ∧ (block empty8 empty8 true).irqEn = true) ∧
    (fifoClass (.init .outbound 8 true) = some (.init, .outbound) ∧ (block empty8 empty8 true).outb.phase ≠ .reset ∧
      State.reset.outb.phase = .reset) ∧
    (fifoClass (.write .inbound 1 [7]) = some (.ordinary, .inbound) ∧ (Instr.write .inbound 1 [7]).wf ∧
      State.reset.inb.phase ≠ .ready ∧ (block empty8 empty8 false).inb.phase = .ready) := by decide

theorem witness_ChannelCommandAdmission :
    channelClass .irqDis = some .irq ∧
    (channelClass (.chInit 8 true 8 true) = some .init ∧ (block empty8 empty8 true).irqEn = true ∧
      (block empty8 empty8 false).chPhase ≠ .reset ∧ State.reset.chPhase = .reset) ∧
    (channelClass (.chWrite 1 [7]) = some .ordinary ∧ (Instr.chWrite 1 [7]).wf ∧ State.reset.chPhase ≠ .ready ∧
      (block empty8 empty8 true).chPhase = .ready) := by decide

theorem witness_BadPayloadRefused : ¬ (Instr.update .outbound 3 [1, 2]).wf ∧ (Instr.update .outbound 2 [1, 2]).wf := by
  decide

theorem witness_RefusalsAreClosed : exec (.lock .inbound) State.reset = .refused .lockOnInbound ∧
    step { State.reset with cmdPort := [0x52, 0, 0, 0, 0, 0] } = .refused .notReady := ⟨rfl, rfl⟩

/-- An `AVAIL` failure, a `CONFIG` failure and a payload-out. -/
theorem witness_FailuresChangeNothing :
    exec (.deleteb .outbound) (block empty8 empty8 false) =
        .next { block empty8 empty8 false with resp := some (failResponse .avail) } ∧
      (∃ t, exec (.init .inbound 0 true) State.reset = .next t ∧ t.resp = some (failResponse .config)) ∧
      ∃ t, exec (.read .outbound 1) (block empty8 three8 true) = .next t ∧
        t.resp = some { ok := true, err := .none, val := 1, out := [0x11] } :=
  ⟨rfl, ⟨_, rfl, rfl⟩, ⟨_, rfl, rfl⟩⟩

theorem witness_AlwaysSafeCommandsSucceed : (∃ t, exec (.writeb .outbound 1) (block one full8 true) = .next t) ∧
    (∃ t, exec .chReadall (block full8 one true) = .next t) ∧ ∃ t, exec (.rx 1) (block full8 one true) = .next t :=
  ⟨⟨_, rfl⟩, ⟨_, rfl⟩, ⟨_, rfl⟩⟩

theorem witness_CommandsWriteOnlyTheirRegisters : (∃ t, exec (.writeb .outbound 1) (block one full8 true) = .next t) ∧
    Reg.size .outbound ∉ mayWrite (.writeb .outbound 1) ∧ Reg.mem .inbound ∉ mayWrite (.writeb .outbound 1) :=
  ⟨⟨_, rfl⟩, by decide, by decide⟩

theorem witness_BracketEndsEnabled : (∃ t, exec .avail (block one one false) = .next t) ∧
    (∃ t, exec (.chRead 0) (block one one false) = .next t) ∧ (∃ t, exec .chReadall (block one one false) = .next t) ∧
    ∃ t, exec .chClear (block one one false) = .next t := ⟨⟨_, rfl⟩, ⟨_, rfl⟩, ⟨_, rfl⟩, ⟨_, rfl⟩⟩

theorem witness_TxLogOnlyGrows : (∃ t, exec (.chWrite 1 [7]) (block one one false) = .next t) ∧
    ∃ t, exec .avail (block one one false) = .next t := ⟨⟨_, rfl⟩, ⟨_, rfl⟩⟩

theorem witness_SpecialCasesAgree :
    ((block empty8 locked8 false).mayUse .outbound ∧ locked8.inRange ∧ locked8.ordered ∧
      1 ≤ (block empty8 locked8 false).config.maxSize) ∧
    ((block one tentative8 false).mayUse .inbound ∧ one.inRange ∧ one.ordered) := by decide

/-- Exactly as many bytes as fit. -/
theorem witness_TransactionCommitsOrRollsBack :
    (block empty8 three8 false).outb.phase = .ready ∧ three8.inRange ∧ three8.L = none ∧
    ([1, 2, 3, 4] : List Byte).length = (4 : Word16).toNat ∧
    (4 : Word16).toNat ≤ (block empty8 three8 false).config.maxSize ∧ written three8 + (4 : Word16).toNat ≤ three8.N - 1 := by
  decide

theorem witness_OverflowEvictsCommittedFirst :
    (locked8.inRange ∧ locked8.ordered ∧ locked8.L ≠ none) ∧ (pinned4.inRange ∧ pinned4.ordered ∧ pinned4.L ≠ none) := by
  decide

/-- A payload of the whole usable capacity, across the end of the storage. -/
theorem witness_WriteThenReadRoundTrip :
    (block empty8 (ring 4 3 3 none []) true).mayUse .outbound ∧ (ring 4 3 3 none []).inRange ∧
    ([1, 2, 3] : List Byte).length = (3 : Word16).toNat ∧ 1 ≤ (3 : Word16).toNat ∧
    (3 : Word16).toNat ≤ (ring 4 3 3 none []).N - 1 ∧
    (3 : Word16).toNat ≤ (block empty8 (ring 4 3 3 none []) true).config.maxSize := by decide

theorem witness_ReceivedBytesReachOutbound :
    (block empty8 (ring 4 3 3 none []) false).chPhase = .ready ∧ empty8.legal ∧ empty8.L = none ∧ empty8.R = empty8.W ∧
    (ring 4 3 3 none []).inRange ∧ (ring 4 3 3 none []).L = none ∧
    (ring 4 3 3 none []).R = (ring 4 3 3 none []).W ∧ ([1, 2, 3] : List Byte).length ≤ empty8.N - 1 ∧
    ([1, 2, 3] : List Byte).length ≤ (ring 4 3 3 none []).N - 1 := by decide

/-- Five bytes of a word; a word of WRITE with one of its two payload bytes; the latter with a byte waiting on the producer
port while `IRQ_EN = 0`. -/
theorem witness_IncompleteCommandWaits :
    (nextTurn { State.reset with cmdPort := [0x59, 0, 0, 0, 0] } =
        (.foreground, { State.reset with cmdPort := [0x59, 0, 0, 0, 0] }) ∧
      decode [0x59, 0, 0, 0, 0] = .incomplete) ∧
    decode [0x11, 1, 0, 0, 0, 2, 0xAA] = .incomplete ∧
    nextTurn { State.reset with schedule := [.producer 9], cmdPort := [0x11, 1, 0, 0, 0, 2, 0xAA] } =
      (.foreground, { State.reset with schedule := [.producer 9], cmdPort := [0x11, 1, 0, 0, 0, 2, 0xAA] }) := by decide

end Sys2Proof.Tests
end

section
/-! The family "scope" (00_scope.md): what a command can answer and why a step is refused, in one form that every
command has; the order of the turns; the state after reset; the cursor arithmetic. -/

namespace Sys2Proof.Machine

open Sys2Proof

/-! ## Cursor arithmetic (rules R10, R11) -/

/-- Advancing by `k` is an addition modulo the size (rule R10). -/
theorem inc_iterate {F : Fifo} {c : Nat} (hc : c < F.N) (k : Nat) : (inc F)^[k] c = (c + k) % F.N := by
  induction k with
  | zero => exact (Nat.mod_eq_of_lt hc).symm
  | succ k ih => rw [Function.iterate_succ_apply', ih, inc, Nat.mod_add_mod, Nat.add_assoc]

/-- Settles O13: `k` advances by induction on `k`, `span` by its two laws `span_lt` and `span_eq_mod`. -/
theorem cursorArithmetic : Obligations.CursorArithmetic := by
  intro F _
  refine ⟨fun c => rfl, fun c hc k => inc_iterate hc k, fun r hr w hw => ⟨rfl, ?_, span_eq_mod hr hw⟩⟩
  have := span_lt hr hw
  omega

/-! ## The state after reset (rules R33, R129) -/

/-- A unit after hardware reset is not `READY`, and nothing was written to it. -/
theorem afterReset_ok (m k : Nat) : (Fifo.afterReset k).ok m := ⟨nofun, fun _ => rfl⟩

theorem blockInv_resetWith {c : Config} (hc : c.wf) : BlockInv (State.resetWith c) :=
  ⟨hc, afterReset_ok _ 0, afterReset_ok _ 1, nofun, nofun, nofun, nofun⟩

/-- The suggested parameter values are in the range of rule R5. -/
theorem suggested_wf : Config.suggested.wf := by decide

/-- Settles O9: no phase is `READY` or `FAILED` after reset, so the invariant asks for empty storages only. -/
theorem resetMeetsBlockInv : Obligations.ResetMeetsBlockInv :=
  ⟨fun _ hc => blockInv_resetWith hc, blockInv_resetWith suggested_wf⟩

/-! ## Turns (rules R44, R51, R123) -/

theorem nextTurn_nil {s : State} (h : s.schedule = []) : nextTurn s = (.foreground, s) := by simp [nextTurn, h]

theorem nextTurn_foreground {s : State} {ts : List Turn} (h : s.schedule = .foreground :: ts) :
    nextTurn s = (.foreground, { s with schedule := ts }) := by simp [nextTurn, h]

/-- A byte on the producer port waits while `IRQ_EN = 0` (rule R123). -/
theorem nextTurn_producer_waits {s : State} {v : Byte} {ts : List Turn} (h : s.schedule = .producer v :: ts)
    (hirq : s.irqEn = false) : nextTurn s = (.foreground, s) := by simp [nextTurn, h, hirq]

theorem step_foreground {s s' : State} (h : nextTurn s = (.foreground, s')) : step s = foregroundTurn s' := by
  simp [step, h, takeTurn]

theorem foregroundTurn_command {s : State} {i : Instr} {rest : List Byte} (h : decode s.cmdPort = .command i rest) :
    foregroundTurn s = exec i { s with cmdPort := rest } := by simp [foregroundTurn, h]

/-- Settles O6: one lemma for each way the turn is the foreground's, then the foreground's turn itself. -/
theorem stepRunsDecodedCommand : Obligations.StepRunsDecodedCommand := by
  intro s
  refine ⟨nextTurn_nil, fun ts => nextTurn_foreground, fun v ts => nextTurn_producer_waits, ?_⟩
  intro s' i rest hturn hdec
  rw [step_foreground hturn, foregroundTurn_command hdec]

/-! ## The form of a command (rules R56, R60, R69, R100, R114) -/

/-- What a command's own rule may reply from state `s`, with `t` the state it leaves: a success; `AVAIL` with nothing
changed; `CONFIG`, which only INIT and CH_INIT reply; the payload-out of READ. -/
inductive RepliesWith (i : Instr) (s : State) : State → Reply → Prop
  | success (t : State) (v : Nat) : RepliesWith i s t (success v)
  | avail : RepliesWith i s s (failWith .avail)
  | config (t : State) (h : (∃ u size sv, i = .init u size sv) ∨
      ∃ sizeIn svIn sizeOut svOut, i = .chInit sizeIn svIn sizeOut svOut) : RepliesWith i s t (failWith .config)
  | payloadOut (t : State) (out : List Byte) (h : ∃ u n, i = .read u n) : RepliesWith i s t (successOut out)

/-- Every result of a command's own rule, if there is one, meets `P`. -/
def Results {α : Type} (P : α → Reply → Prop) (x : Option (α × Reply)) : Prop := ∀ a r, x = some (a, r) → P a r

/-- The form of a command: the check of its record (rule R56), then one of two shapes, admitted by the command's class,
whose rule replies as `RepliesWith` says. -/
inductive CommandForm (i : Instr) (s : State) : Prop
  | fifo {k : FifoKind} {u : UnitSel} {body : Fifo → Option (Fifo × Reply)}
      (hexec : exec i s = if i.wf then fifoCommand k u s body else .refused .badPayload)
      (hclass : fifoClass i = some (k, u))
      (hbody : Results (fun F r => RepliesWith i s (s.setUnit u F) r) (body (s.unit u)))
  | channel {k : ChannelKind} {body : State → Option (State × Reply)}
      (hexec : exec i s = if i.wf then channelCommand k s body else .refused .badPayload)
      (hclass : channelClass i = some k) (hbody : Results (RepliesWith i s) (body s))

section results
variable {α β : Type} {P : α → Reply → Prop}

theorem results_some {a : α} {r : Reply} (h : P a r) : Results P (some (a, r)) := by
  rintro a' r' ⟨⟩
  exact h

theorem results_map {o : Option β} {f : β → α} {g : β → Reply} (h : ∀ b, P (f b) (g b)) :
    Results P (o.map fun b => (f b, g b)) := by
  intro a r hr
  obtain ⟨b, -, hb⟩ := Option.map_eq_some_iff.1 hr
  cases hb
  exact h b

theorem results_ite {c : Prop} [Decidable c] {x y : Option (α × Reply)} (hx : Results P x) (hy : Results P y) :
    Results P (if c then x else y) := by
  split
  · exact hx
  · exact hy

end results

section rules
variable {i : Instr} {s : State}

/-- A rule that answers `AVAIL` on the unit as it was, or else replies as `x` does. -/
theorem results_avail_or {u : UnitSel} {c : Prop} [Decidable c] {x : Option (Fifo × Reply)}
    (hx : Results (fun F r => RepliesWith i s (s.setUnit u F) r) x) :
    Results (fun F r => RepliesWith i s (s.setUnit u F) r)
      (if c then some (s.unit u, failWith .avail) else x) := by
  refine results_ite (results_some ?_) hx
  rw [setUnit_self]
  exact .avail

/-- A bracketed rule that can only succeed. -/
theorem results_bracketed {body : State → Option (State × Reply)}
    (h : Results (fun _ r => ∃ v, r = success v) (body { s with irqEn := false })) :
    Results (RepliesWith i s) (bracketed s body) := by
  intro t r hr
  obtain ⟨t', r', hb, e⟩ := bracketed_some hr
  cases e
  obtain ⟨v, rfl⟩ := h _ _ hb
  exact .success _ v

/-- The payload check is the check that the record is well formed (rule R56). -/
theorem withPayload_eq_ite {len : Word16} {p : List Byte} (h : i.payload? = some (len, p)) (c : StepResult) :
    withPayload len p c = if i.wf then c else .refused .badPayload := by
  have hwf : i.wf ↔ p.length = len.toNat := by simp [Instr.wf, h]
  simp only [withPayload, hwf]

/-- A command without payload is always well formed. -/
theorem wf_of_no_payload (h : i.payload? = none) : i.wf := by simp [Instr.wf, h]

/-- A command without payload passes the check of its record. -/
theorem exec_eq_ite (c : StepResult) (h : i.payload? = none) (he : exec i s = c) :
    exec i s = if i.wf then c else .refused .badPayload := by rw [if_pos (wf_of_no_payload h), he]

/-- A command that answers a next state passed the check of its record. -/
theorem eq_next_of_ite {c : StepResult} {t : State}
    (h : (if i.wf then c else .refused .badPayload) = Host.Outcome.next t) : c = .next t := by
  split at h
  · exact h
  · cases h

/-- A command that is refused failed the check of its record, or was refused behind it. -/
theorem eq_refused_of_ite {c : StepResult} {r : Refusal}
    (h : (if i.wf then c else .refused .badPayload) = Host.Outcome.refused r) :
    (¬ i.wf ∧ r = .badPayload) ∨ c = .refused r := by
  split at h
  · exact .inr h
  · cases h
    exact .inl ⟨‹_›, rfl⟩

end rules

/-- Every command is a payload check, then admission by its class, then a rule whose replies are those of
`RepliesWith`. What holds of commands as a whole is derived from this form. -/
theorem exec_form (i : Instr) (s : State) : CommandForm i s := by
  cases i with
  | init u size sv =>
    refine .fifo (exec_eq_ite (execInit u size sv s) rfl rfl) rfl ?_
    exact results_ite (results_some (.config _ (.inl ⟨_, _, _, rfl⟩))) (results_some (.success _ _))
  | clear u =>
    refine .fifo (exec_eq_ite (execClear u s) rfl rfl) rfl ?_
    exact results_some (.success _ _)
  | isempty u =>
    refine .fifo (exec_eq_ite (execIsempty u s) rfl rfl) rfl ?_
    exact results_some (.success _ _)
  | totalw u =>
    refine .fifo (exec_eq_ite (execTotalw u s) rfl rfl) rfl ?_
    exact results_some (.success _ _)
  | totalr u =>
    refine .fifo (exec_eq_ite (execTotalr u s) rfl rfl) rfl ?_
    exact results_some (.success _ _)
  | cap u =>
    refine .fifo (exec_eq_ite (execCap u s) rfl rfl) rfl ?_
    exact results_some (.success _ _)
  | islocked u =>
    refine .fifo (exec_eq_ite (execIslocked u s) rfl rfl) rfl ?_
    exact results_some (.success _ _)
  | writeb u v =>
    refine .fifo (exec_eq_ite (execWriteb u v s) rfl rfl) rfl ?_
    exact results_map fun _ => .success _ _
  | write u len p =>
    refine .fifo (withPayload_eq_ite rfl _) rfl ?_
    exact results_map fun _ => .success _ _
  | writestr u len p =>
    refine .fifo (withPayload_eq_ite rfl _) rfl ?_
    exact results_map fun _ => .success _ _
  | read u len =>
    refine .fifo (exec_eq_ite (execRead u len s) rfl rfl) rfl ?_
    exact results_avail_or (results_map fun _ => .payloadOut _ _ ⟨_, _, rfl⟩)
  | readb u =>
    refine .fifo (exec_eq_ite (execReadb u s) rfl rfl) rfl ?_
    exact results_avail_or (results_map fun _ => .success _ _)
  | peekb u =>
    refine .fifo (exec_eq_ite (execPeekb u s) rfl rfl) rfl ?_
    exact results_avail_or (results_map fun _ => .success _ _)
  | peekat u idx =>
    refine .fifo (exec_eq_ite (execPeekat u idx s) rfl rfl) rfl ?_
    exact results_avail_or (results_map fun _ => .success _ _)
  | delete u len =>
    refine .fifo (exec_eq_ite (execDelete u len s) rfl rfl) rfl ?_
    exact results_avail_or (results_some (.success _ _))
  | deleteb u =>
    refine .fifo (exec_eq_ite (execDeleteb u s) rfl rfl) rfl ?_
    exact results_avail_or (results_some (.success _ _))
  | update u len p =>
    refine .fifo (withPayload_eq_ite rfl _) rfl ?_
    exact results_avail_or (results_map fun _ => .success _ _)
  | updateat u idx len p =>
    refine .fifo (withPayload_eq_ite rfl _) rfl ?_
    exact results_avail_or (results_map fun _ => .success _ _)
  | updateb u v =>
    refine .fifo (exec_eq_ite (execUpdateb u v s) rfl rfl) rfl ?_
    exact results_avail_or (results_map fun _ => .success _ _)
  | updatebat u idx v =>
    refine .fifo (exec_eq_ite (execUpdatebat u idx v s) rfl rfl) rfl ?_
    exact results_avail_or (results_map fun _ => .success _ _)
  | lock u =>
    refine .fifo (exec_eq_ite (execLock u s) rfl rfl) rfl ?_
    exact results_some (.success _ _)
  | unlock u =>
    refine .fifo (exec_eq_ite (execUnlock u s) rfl rfl) rfl ?_
    exact results_some (.success _ _)
  | discard u =>
    refine .fifo (exec_eq_ite (execDiscard u s) rfl rfl) rfl ?_
    exact results_some (.success _ _)
  | chInit sizeIn svIn sizeOut svOut =>
    refine .channel (exec_eq_ite (execChInit sizeIn svIn sizeOut svOut s) rfl rfl) rfl ?_
    exact results_ite (results_some (.config _ (.inr ⟨_, _, _, _, rfl⟩))) (results_some (.success _ _))
  | rx v =>
    refine .channel (exec_eq_ite (execRx v s) rfl rfl) rfl ?_
    exact results_map fun _ => .success _ _
  | avail =>
    refine .channel (exec_eq_ite (execAvail s) rfl rfl) rfl ?_
    exact results_bracketed (results_some ⟨_, rfl⟩)
  | chRead len =>
    refine .channel (exec_eq_ite (execChRead len s) rfl rfl) rfl ?_
    exact results_bracketed (results_map fun _ => ⟨_, rfl⟩)
  | chReadall =>
    refine .channel (exec_eq_ite (execChReadall s) rfl rfl) rfl ?_
    exact results_bracketed (results_map fun _ => ⟨_, rfl⟩)
  | chWrite len p =>
    refine .channel (withPayload_eq_ite rfl _) rfl ?_
    exact results_some (.success _ _)
  | chWritestr len p =>
    refine .channel (withPayload_eq_ite rfl _) rfl ?_
    exact results_some (.success _ _)
  | chClear =>
    refine .channel (exec_eq_ite (execChClear s) rfl rfl) rfl ?_
    exact results_bracketed (results_some ⟨_, rfl⟩)
  | irqDis =>
    refine .channel (exec_eq_ite (execIrqDis s) rfl rfl) rfl ?_
    exact results_some (.success _ _)
  | irqEna =>
    refine .channel (exec_eq_ite (execIrqEna s) rfl rfl) rfl ?_
    exact results_some (.success _ _)

/-! ## Failures (rules R60, R61, R113 to R115) -/

/-- All a command can do when it answers a next state: its own rule left a state and one of the replies of
`RepliesWith`, and that reply is put on the response port. -/
theorem exec_next {i : Instr} {s t : State} (h : exec i s = .next t) :
    ∃ t' r, RepliesWith i s t' r ∧ t = t'.answer r := by
  cases exec_form i s with
  | fifo hexec _ hbody =>
    obtain ⟨F, r, -, hr, rfl⟩ := fifoCommand_next (eq_next_of_ite (hexec ▸ h))
    exact ⟨_, r, hbody F r hr, rfl⟩
  | channel hexec _ hbody =>
    obtain ⟨t', r, -, hr, rfl⟩ := channelCommand_next (eq_next_of_ite (hexec ▸ h))
    exact ⟨t', r, hbody t' r hr, rfl⟩

/-- Settles O47: by the four replies of `RepliesWith`. -/
theorem failuresChangeNothing : Obligations.FailuresChangeNothing := by
  intro i s t h
  obtain ⟨t', r, hr, rfl⟩ := exec_next h
  cases hr with
  | success _ v =>
    obtain ⟨val, hresp⟩ := answer_resp t' (success v)
    exact ⟨_, hresp, by simp [success]⟩
  | avail => exact ⟨failResponse .avail, by simp, by simp [failResponse]⟩
  | config _ hi => exact ⟨failResponse .config, by simp, by decide, by decide, fun _ => ⟨rfl, rfl⟩, nofun,
      fun _ => hi, nofun⟩
  | payloadOut _ out hi =>
    obtain ⟨val, hresp⟩ := answer_resp t' (successOut out)
    exact ⟨_, hresp, by simp [successOut, hi]⟩

/-! ## Refusals (rules R8, R56, R117) -/

/-- Why a command is refused: an ill-formed record, or the admission of its class. -/
theorem exec_refused {i : Instr} {s : State} {r : Refusal} (h : exec i s = .refused r) :
    (¬ i.wf ∧ r = .badPayload) ∨ (∃ k u, fifoClass i = some (k, u) ∧ admitFifo k u s = some r) ∨
      ∃ k, channelClass i = some k ∧ admitChannel k s = some r := by
  cases exec_form i s with
  | fifo hexec hclass _ =>
    obtain hbad | hc := eq_refused_of_ite (hexec ▸ h)
    · exact .inl hbad
    · exact .inr (.inl ⟨_, _, hclass, fifoCommand_refused.1 hc⟩)
  | channel hexec hclass _ =>
    obtain hbad | hc := eq_refused_of_ite (hexec ▸ h)
    · exact .inl hbad
    · exact .inr (.inr ⟨_, hclass, channelCommand_refused.1 hc⟩)

/-- The refusals that admission can give: the list of rule R117 without `BadPayload`. -/
def portRefusals : List Refusal := [.notReady, .reInit, .lockOnInbound, .unbracketedInbound]

theorem admitFifo_mem {k : FifoKind} {u : UnitSel} {s : State} {r : Refusal} (h : admitFifo k u s = some r) :
    r ∈ portRefusals := by
  obtain rfl | rfl | rfl | rfl := admitFifo_closed h <;> decide

theorem admitChannel_mem {k : ChannelKind} {s : State} {r : Refusal} (h : admitChannel k s = some r) :
    r ∈ portRefusals := by
  obtain rfl | rfl | rfl := admitChannel_closed h <;> decide

/-- A command is refused for its record, if that is ill formed, or for one of the four reasons of admission. -/
theorem exec_refused_mem {i : Instr} {s : State} {r : Refusal} (h : exec i s = .refused r) :
    (¬ i.wf ∧ r = .badPayload) ∨ r ∈ portRefusals := by
  obtain hbad | ⟨k, u, -, ha⟩ | ⟨k, -, ha⟩ := exec_refused h
  · exact .inl hbad
  · exact .inr (admitFifo_mem ha)
  · exact .inr (admitChannel_mem ha)

/-- The command a row of the opcode map makes has a payload exactly when the row takes one: the bytes given, with
the word's `len` (rule R55). -/
theorem payload_build {row : Row} (h : row ∈ opcodeMap) (w : CommandWord) (p : List Byte) :
    (row.build w p).payload? = if row.takesPayload then some (lenOf w, p) else none := by
  simp only [opcodeMap, rowsStatusWriteRead, rowsDeleteUpdateLock, rowsChannel, List.cons_append, List.nil_append] at h
  fin_cases h <;> rfl

/-- A word decodes to a row of the opcode map. -/
theorem decodeWord_mem {w : CommandWord} {row : Row} (h : decodeWord w = .ok row) : row ∈ opcodeMap := by
  unfold decodeWord at h
  split at h
  · cases h
  · rename_i hrow
    split at h
    · cases h
      exact List.mem_of_find?_eq_some hrow
    · cases h

/-- The payload part of decoding takes exactly `len` bytes, so it makes well-formed commands only. -/
theorem decodePayload_wf {row : Row} (hrow : row ∈ opcodeMap) {w : CommandWord} {bs rest : List Byte} {i : Instr}
    (h : decodePayload row w bs = .command i rest) : i.wf := by
  unfold decodePayload at h
  split at h
  · rename_i htakes
    split at h
    · rename_i hlen
      cases h
      intro x hx
      rw [payload_build hrow, if_pos htakes] at hx
      cases hx
      exact List.length_take_of_le hlen
    · cases h
  · rename_i htakes
    cases h
    exact wf_of_no_payload (by simp [payload_build hrow, htakes])

/-- A command that the port carries is well formed (rules R55 to R57). -/
theorem decode_wf {bs rest : List Byte} {i : Instr} (h : decode bs = .command i rest) : i.wf := by
  unfold decode at h
  split at h
  · split at h
    · cases h
    · rename_i hw
      exact decodePayload_wf (decodeWord_mem hw) h
  · cases h

/-- Why the foreground's turn is refused: a decoded command is. -/
theorem foregroundTurn_refused {s : State} {r : Refusal} (h : foregroundTurn s = .refused r) :
    ∃ i rest, decode s.cmdPort = .command i rest ∧ exec i { s with cmdPort := rest } = .refused r := by
  unfold foregroundTurn at h
  split at h
  · exact ⟨_, _, ‹_›, h⟩
  · cases h
  · cases h

/-- Why RX on the producer port is refused: its admission. -/
theorem producerRx_refused {s : State} {v : Byte} {r : Refusal} (h : producerRx v s = .refused r) :
    admitChannel .ordinary s = some r := by
  unfold producerRx at h
  split at h
  · cases h
    assumption
  · split at h <;> cases h

/-- A step is refused for one of the four reasons of admission: what is decoded from the port is well formed. -/
theorem step_refused_mem {s : State} {r : Refusal} (h : step s = .refused r) : r ∈ portRefusals := by
  unfold step takeTurn at h
  split at h
  · obtain ⟨i, rest, hdec, hexec⟩ := foregroundTurn_refused h
    obtain ⟨hill, -⟩ | hmem := exec_refused_mem hexec
    · exact absurd (decode_wf hdec) hill
    · exact hmem
  · exact admitChannel_mem (producerRx_refused h)
  · cases h

/-- Settles O46: the refusals of a command are those of its record and of its admission, those of a step the latter. -/
theorem refusalsAreClosed : Obligations.RefusalsAreClosed := by
  refine ⟨fun i s r h => ?_, fun s r h => step_refused_mem h⟩
  obtain ⟨-, rfl⟩ | hmem := exec_refused_mem h
  · decide
  · exact List.mem_append_left [Refusal.badPayload] hmem

end Sys2Proof.Machine
end

section
/-! The family "state" (10_state.md): the counts and status outputs of a unit, what it holds after a run of pushes, the
changes a command can make to the registers, the invariant of the block, and that no step shows an unknown byte. -/

namespace Sys2Proof.Machine

open Sys2Proof

/-! ## Counts and status outputs (rules R17 to R22, R30, R31) -/

theorem written_le_usable {F : Fifo} (h : F.inRange) : written F ≤ F.N - 1 := by
  have := written_lt h
  omega

theorem emptyFlag_iff (F : Fifo) : emptyFlag F = true ↔ F.R = F.W := decide_eq_true_iff

theorem fullFlag_iff (F : Fifo) : fullFlag F = true ↔ written F = F.N - 1 := decide_eq_true_iff

theorem lockedFlag_iff (F : Fifo) : lockedFlag F = true ↔ F.L ≠ none := Option.isSome_iff_ne_none

/-- The tentative bytes of a locked unit are those from the lock cursor to the write cursor (rule R22). -/
theorem written_sub_readable {F : Fifo} (ho : F.ordered) {l : Nat} (hl : F.L = some l) :
    written F - readable F = span F l F.W := by
  have := ho l hl
  simp only [readable, written, eff_some hl]
  omega

/-- Settles O14: each count from its own law of the cursors. -/
theorem countsOfUnit : Obligations.CountsOfUnit := by
  intro F hr ho
  have hle := written_le_usable hr
  exact ⟨hle, written_eq_zero hr, emptyFlag_iff F, readable_le_written ho, readable_unlocked,
    fun l => written_sub_readable ho, fun hN => by omega⟩

theorem unitOutputs_not_ready {F : Fifo} (h : F.phase ≠ .ready) : unitOutputs F = none := if_neg h

/-- What a `READY` unit with legal cursors drives: every count and cursor is below `2 ^ 16`, so none is truncated. -/
theorem unitOutputs_ready {F : Fifo} (h : F.phase = .ready) (hl : F.legal) (ho : F.ordered) :
    ∃ o, unitOutputs F = some o ∧ o.size.toNat = F.N ∧ o.usable.toNat = F.N - 1 ∧ o.rcur.toNat = F.R ∧
      o.wcur.toNat = F.W ∧ (o.locked = true ↔ F.L ≠ none) ∧ (F.L = none → o.lcur = 0) ∧
      (∀ l, F.L = some l → o.lcur.toNat = l) ∧ (o.empty = true ↔ F.R = F.W) ∧
      (o.full = true ↔ written F = F.N - 1) ∧ o.depth.toNat = written F ∧ o.readable.toNat = readable F := by
  obtain ⟨hrange, hsize⟩ := hl
  have hw := written_lt hrange
  have hrw := readable_le_written ho
  obtain ⟨-, hR, hW, hL⟩ := hrange
  have exact16 : ∀ n ≤ F.N, (BitVec.ofNat 16 n).toNat = n := fun n hn => by
    rw [BitVec.toNat_ofNat, Nat.mod_eq_of_lt (by omega)]
  refine ⟨_, if_pos h, exact16 _ le_rfl, exact16 _ (Nat.sub_le ..), exact16 _ hR.le, exact16 _ hW.le, lockedFlag_iff F,
    fun hnone => ?_, fun l hsome => ?_, emptyFlag_iff F, fullFlag_iff F, exact16 _ hw.le, exact16 _ (hrw.trans hw.le)⟩
  · simp [hnone]
  · simpa [hsome] using exact16 l (hL l hsome).le

/-- Settles O17: the phases and `IRQ_EN` by definition, the unit's outputs by the two lemmas above. -/
theorem statusOutputsShowState : Obligations.StatusOutputsShowState := fun _ =>
  ⟨rfl, rfl, rfl, rfl, rfl, rfl, rfl, rfl, rfl, fun _ => ⟨unitOutputs_not_ready, unitOutputs_ready⟩⟩

/-! ## Runs of pushes (rules R25, R78, R82) -/

theorem lastBytes_of_length_le {n : Nat} {bs : List Byte} (h : bs.length ≤ n) : lastBytes n bs = bs := by
  simp [lastBytes, Nat.sub_eq_zero_of_le h]

/-- What falls out of a window of `n` bytes stays out when more bytes follow. -/
theorem lastBytes_lastBytes_append (n : Nat) (xs ys : List Byte) :
    lastBytes n (lastBytes n xs ++ ys) = lastBytes n (xs ++ ys) := by
  have hdrop : lastBytes n xs ++ ys = (xs ++ ys).drop (xs.length - n) :=
    (List.drop_append_of_le_length (Nat.sub_le ..)).symm
  rw [hdrop]
  simp only [lastBytes, List.drop_drop, List.length_drop, List.length_append]
  congr 1
  omega

/-- One push keeps the newest `N - 1` bytes. -/
theorem contents_pushed_eq_lastBytes {F : Fifo} (h : F.inRange) (b : Byte) :
    contents (pushed F b) = lastBytes (F.N - 1) (contents F ++ [b]) := by
  have hle := written_le_usable h
  have hlen : (contents F ++ [b]).length = written F + 1 := by simp [contents_length]
  rw [contents_pushed h]
  split
  · rename_i hfull
    rw [lastBytes, hlen, hfull, Nat.add_sub_cancel_left]
  · exact (lastBytes_of_length_le (by omega)).symm

/-- A run of pushes keeps the newest `N - 1` bytes. -/
theorem contents_foldl_pushed {F : Fifo} (h : F.inRange) (bs : List Byte) :
    contents (bs.foldl pushed F) = lastBytes (F.N - 1) (contents F ++ bs) := by
  induction bs generalizing F with
  | nil =>
    have hle := written_le_usable h
    simp [lastBytes_of_length_le, contents_length, hle]
  | cons b bs ih =>
    rw [List.foldl_cons, ih (inRange_pushed h b), pushed_N, contents_pushed_eq_lastBytes h, lastBytes_lastBytes_append,
      List.append_assoc, List.singleton_append]

/-- Settles O16, by induction on the bytes pushed. -/
theorem pushesKeepNewestBytes : Obligations.PushesKeepNewestBytes := fun F bs h =>
  ⟨bs.foldl pushed F, pushAll_eq h bs, foldl_pushed_inRange h bs, foldl_pushed_N F bs, contents_foldl_pushed h bs⟩

/-! ## Operations on a unit in use (rules R28, R71, R78, R88, R90, R95 to R97) -/

/-- The changes a command may make to a unit in use, one at a time; `w` is what it may write. A command's own rule is a
sequence of them, so what each of them keeps, every command keeps. -/
inductive UnitOp (u : UnitSel) (w : List Reg) (F : Fifo) : Fifo → Prop
  | consume {n : Nat} (hw : .rd u ∈ w) (hn : n ≤ readable F) : UnitOp u w F (advanceRead F n)
  | push (b : Byte) (hw : pushRegs u ⊆ w) : UnitOp u w F (pushed F b)
  | store {a : Nat} (v : Byte) (hw : .mem u ∈ w) (ha : a < F.N) : UnitOp u w F { F with mem := F.mem.set a v }
  | clear (hw : [.rd u, .wr u, .lk u] ⊆ w) : UnitOp u w F (cleared F)
  | lock (hw : .lk u ∈ w) (hu : u = .outbound) : UnitOp u w F (locked F)
  | unlock (hw : .lk u ∈ w) : UnitOp u w F (unlocked F)
  | discard (hw : [.wr u, .lk u] ⊆ w) : UnitOp u w F (discarded F)

/-- A sequence of such operations. -/
abbrev UnitOps (u : UnitSel) (w : List Reg) : Fifo → Fifo → Prop := Relation.ReflTransGen (UnitOp u w)

/-! ### Sequences of operations in the shared runs -/

theorem unitOps_foldl_pushed {u : UnitSel} {w : List Reg} (hw : pushRegs u ⊆ w) (F : Fifo) (bs : List Byte) :
    UnitOps u w F (bs.foldl pushed F) := by
  induction bs generalizing F with
  | nil => exact .refl
  | cons b bs ih => exact .head (.push b hw) (ih _)

theorem unitOps_push {u : UnitSel} {w : List Reg} (hw : pushRegs u ⊆ w) {F F' : Fifo} {b : Byte}
    (h : push F b = some F') : UnitOps u w F F' := by
  obtain ⟨-, rfl⟩ := push_some h
  exact .single (.push b hw)

theorem unitOps_pushAll {u : UnitSel} {w : List Reg} (hw : pushRegs u ⊆ w) {F F' : Fifo} {bs : List Byte}
    (h : pushAll F bs = some F') : UnitOps u w F F' :=
  pushAll_some h ▸ unitOps_foldl_pushed hw F bs

theorem unitOps_memWrite {u : UnitSel} {w : List Reg} (hw : .mem u ∈ w) {F F' : Fifo} {a : Nat} {v : Byte}
    (h : memWrite F a v = some F') : UnitOps u w F F' := by
  obtain ⟨ha, rfl⟩ := memWrite_some h
  exact .single (.store v hw ha)

theorem unitOps_writeRun {u : UnitSel} {w : List Reg} (hw : .mem u ∈ w) {F F' : Fifo} {i : Nat} {bs : List Byte}
    (h : writeRun F i bs = some F') : UnitOps u w F F' := by
  induction bs generalizing F i with
  | nil =>
    cases h
    exact .refl
  | cons b bs ih =>
    obtain ⟨G, hG, hrest⟩ := Option.bind_eq_some_iff.1 h
    exact (unitOps_memWrite hw hG).trans (ih hrest)

/-- `pop` is an advance by one byte, which is there. -/
theorem unitOps_pop {u : UnitSel} {w : List Reg} (hw : .rd u ∈ w) {F : Fifo} {p : Byte × Fifo}
    (hr : readable F ≠ 0) (h : pop F = some p) : UnitOps u w F p.2 := by
  obtain ⟨-, rfl⟩ := pop_some h
  exact .single (.consume hw (by omega))

/-- The transfer loop consumes from the one unit and pushes into the other. -/
theorem unitOps_transfer {u v : UnitSel} {w : List Reg} (hu : .rd u ∈ w) (hv : pushRegs v ⊆ w) {I O : Fifo} {n : Nat}
    {r : Fifo × Fifo × Nat} (h : transfer I O n = some r) : UnitOps u w I r.1 ∧ UnitOps v w O r.2.1 := by
  induction n generalizing I O r with
  | zero =>
    cases h
    exact ⟨.refl, .refl⟩
  | succ n ih =>
    unfold transfer at h
    split at h
    · cases h
      exact ⟨.refl, .refl⟩
    · rename_i hread
      obtain ⟨p, hpop, h⟩ := Option.bind_eq_some_iff.1 h
      obtain ⟨O', hpush, h⟩ := Option.bind_eq_some_iff.1 h
      obtain ⟨r', hrest, rfl⟩ := Option.map_eq_some_iff.1 h
      obtain ⟨hI, hO⟩ := ih hrest
      exact ⟨(unitOps_pop hu hread hpop).trans hI, (unitOps_push hv hpush).trans hO⟩

/-! ### What the operations keep -/

section wellFormed
variable {m : Nat} {F : Fifo}

/-- An empty unlocked unit is well formed when its size and storage are. -/
theorem wf_of_empty (h1 : 1 ≤ F.N) (hm : F.N ≤ m) (hmem : F.memOk) (hR : F.R = 0) (hW : F.W = 0) (hL : F.L = none) :
    F.wf m := by
  have hempty : written F = 0 := by simp [written, hR, hW]
  refine ⟨⟨h1, by omega, by omega, by simp [hL]⟩, by simp [Fifo.ordered, hL], hm, hmem, fun i hi => ?_⟩
  omega

theorem wf_cleared (h : F.wf m) : (cleared F).wf m := by
  obtain ⟨hrange, -, hm, hmem, -⟩ := h
  exact wf_of_empty hrange.1 hm hmem rfl rfl rfl

theorem wf_store (h : F.wf m) {a : Nat} (ha : a < F.N) (v : Byte) :
    ({ F with mem := F.mem.set a v } : Fifo).wf m := by
  obtain ⟨hrange, hord, hm, hmem, hstored⟩ := h
  refine ⟨hrange, hord, hm, memOk_set hmem ha v, fun i hi => ?_⟩
  show ((F.mem.set a v).find (ea F i)).isSome = true
  rw [find_set]
  split
  · rfl
  · exact hstored i hi

/-- Moving the lock cursor anywhere that keeps the cyclic order keeps a unit well formed. -/
theorem wf_setLock (h : F.wf m) {L : Option Nat} (hL : ∀ l ∈ L, l < F.N)
    (hord : ∀ l ∈ L, span F F.R l + span F l F.W = span F F.R F.W) : ({ F with L := L } : Fifo).wf m := by
  obtain ⟨⟨hN, hR, hW, -⟩, -, hm, hmem, hstored⟩ := h
  exact ⟨⟨hN, hR, hW, hL⟩, hord, hm, hmem, hstored⟩

theorem wf_locked (h : F.wf m) : (locked F).wf m := by
  refine wf_setLock h ?_ ?_
  · rintro l ⟨⟩
    exact h.1.2.2.1
  · rintro l ⟨⟩
    simp

theorem wf_unlocked (h : F.wf m) : (unlocked F).wf m := wf_setLock h nofun nofun

/-- Rolling back drops the tentative bytes; the committed ones stay written. -/
theorem wf_discarded (h : F.wf m) : (discarded F).wf m := by
  obtain ⟨hrange, hord, hm, hmem, hstored⟩ := h
  have hle := readable_le_written hord
  have hwritten : written (discarded F) = readable F := by simp [written, readable, span]
  refine ⟨⟨by simpa using hrange.1, by simpa using hrange.2.1, by simpa using eff_lt hrange, by simp⟩, ?_,
    by simpa using hm, by simpa [Fifo.memOk] using hmem, fun i hi => ?_⟩
  · simp [Fifo.ordered]
  · have := hstored i (by omega)
    simpa [ea] using this

end wellFormed

section unitOp
variable {u : UnitSel} {w : List Reg} {F F' : Fifo}

theorem unitOp_wf {m : Nat} (h : UnitOp u w F F') (hF : F.wf m) : F'.wf m := by
  cases h with
  | consume _ hn => exact wf_advanceRead hF hn
  | push b _ => exact wf_pushed hF b
  | store v _ ha => exact wf_store hF ha v
  | clear _ => exact wf_cleared hF
  | lock _ _ => exact wf_locked hF
  | unlock _ => exact wf_unlocked hF
  | discard _ => exact wf_discarded hF

/-- Only LOCK sets a lock cursor, and only on `OUT`. -/
theorem unitOp_inbound_unlocked (h : UnitOp .inbound w F F') (hF : F.L = none) : F'.L = none := by
  cases h with
  | consume _ _ => exact hF
  | push b _ => exact pushed_unlocked hF b
  | store _ _ _ => exact hF
  | clear _ => rfl
  | lock _ hu => cases hu
  | unlock _ => rfl
  | discard _ => exact discarded_L F

theorem unitOp_phase (h : UnitOp u w F F') : F'.phase = F.phase := by
  cases h with
  | push b _ => exact pushed_phase F b
  | discard _ => exact discarded_phase F
  | _ => rfl

/-- Of the registers and the storage of unit `u`, those outside `w` are the same in both. -/
structure UnitFrame (u : UnitSel) (w : List Reg) (F F' : Fifo) : Prop where
  phase : .phase u ∉ w → F'.phase = F.phase
  size : .size u ∉ w → F'.N = F.N
  rd : .rd u ∉ w → F'.R = F.R
  wr : .wr u ∉ w → F'.W = F.W
  lk : .lk u ∉ w → F'.L = F.L
  mem : .mem u ∉ w → ∀ a, slotByte F' a = slotByte F a

theorem UnitFrame.refl (u : UnitSel) (w : List Reg) (F : Fifo) : UnitFrame u w F F :=
  ⟨fun _ => rfl, fun _ => rfl, fun _ => rfl, fun _ => rfl, fun _ => rfl, fun _ _ => rfl⟩

theorem UnitFrame.trans {G : Fifo} (h : UnitFrame u w F F') (h' : UnitFrame u w F' G) : UnitFrame u w F G where
  phase hw := (h'.phase hw).trans (h.phase hw)
  size hw := (h'.size hw).trans (h.size hw)
  rd hw := (h'.rd hw).trans (h.rd hw)
  wr hw := (h'.wr hw).trans (h.wr hw)
  lk hw := (h'.lk hw).trans (h.lk hw)
  mem hw a := (h'.mem hw a).trans (h.mem hw a)

/-- Each operation writes only registers of `w`. -/
theorem unitOp_frame (h : UnitOp u w F F') : UnitFrame u w F F' := by
  cases h with
  | consume hw _ => exact { UnitFrame.refl u w F with rd := fun h => absurd hw h }
  | push b hw =>
    simp only [pushRegs, List.cons_subset] at hw
    obtain ⟨hwr, hmem, hrd, hlk, -⟩ := hw
    exact {
      phase := fun _ => pushed_phase F b
      size := fun _ => pushed_N F b
      rd := fun h => absurd hrd h
      wr := fun h => absurd hwr h
      lk := fun h => absurd hlk h
      mem := fun h => absurd hmem h }
  | store v hw _ => exact { UnitFrame.refl u w F with mem := fun h => absurd hw h }
  | clear hw =>
    simp only [List.cons_subset] at hw
    obtain ⟨hrd, hwr, hlk, -⟩ := hw
    exact { UnitFrame.refl u w F with
      rd := fun h => absurd hrd h
      wr := fun h => absurd hwr h
      lk := fun h => absurd hlk h }
  | lock hw _ => exact { UnitFrame.refl u w F with lk := fun h => absurd hw h }
  | unlock hw => exact { UnitFrame.refl u w F with lk := fun h => absurd hw h }
  | discard hw =>
    simp only [List.cons_subset] at hw
    obtain ⟨hwr, hlk, -⟩ := hw
    exact {
      phase := fun _ => discarded_phase F
      size := fun _ => discarded_N F
      rd := fun _ => discarded_R F
      wr := fun h => absurd hwr h
      lk := fun h => absurd hlk h
      mem := fun _ a => by cases hL : F.L <;> simp [slotByte, discarded, hL] }

theorem unitOps_wf {m : Nat} (h : UnitOps u w F F') (hF : F.wf m) : F'.wf m := by
  induction h with
  | refl => exact hF
  | tail _ hop ih => exact unitOp_wf hop ih

theorem unitOps_inbound_unlocked (h : UnitOps .inbound w F F') (hF : F.L = none) : F'.L = none := by
  induction h with
  | refl => exact hF
  | tail _ hop ih => exact unitOp_inbound_unlocked hop ih

theorem unitOps_phase (h : UnitOps u w F F') : F'.phase = F.phase := by
  induction h with
  | refl => rfl
  | tail _ hop ih => exact (unitOp_phase hop).trans ih

theorem unitOps_frame (h : UnitOps u w F F') : UnitFrame u w F F' := by
  induction h with
  | refl => exact .refl u w F
  | tail _ hop ih => exact ih.trans (unitOp_frame hop)

end unitOp

/-! ## The change of one unit, and of the state, in a command -/

/-- What a command that may write `w` can do to unit `u`: nothing; initialise it, from phase `RESET` only; or use it, if
the unit itself or the channel is `READY`. -/
inductive UnitChange (w : List Reg) (s : State) (u : UnitSel) : Fifo → Prop
  | same : UnitChange w s u (s.unit u)
  | initialise {n : Nat} (hw : initRegs u ⊆ w) (hphase : (s.unit u).phase = .reset) (h1 : 1 ≤ n)
      (hn : n ≤ s.config.maxSize) : UnitChange w s u (initialised (s.unit u) n)
  | failInit (hw : initRegs u ⊆ w) (hphase : (s.unit u).phase = .reset) : UnitChange w s u (initFailed (s.unit u))
  | use {F : Fifo} (hready : (s.unit u).phase = .ready ∨ s.chPhase = .ready) (hops : UnitOps u w (s.unit u) F) :
      UnitChange w s u F

section unitChange
variable {w : List Reg} {s : State} {u : UnitSel} {F : Fifo}

theorem unitChange_frame (h : UnitChange w s u F) : UnitFrame u w (s.unit u) F := by
  cases h with
  | same => exact .refl u w _
  | initialise hw _ _ _ =>
    simp only [initRegs, List.cons_subset] at hw
    obtain ⟨hphase, hsize, hrd, hwr, hlk, -⟩ := hw
    exact {
      phase := fun h => absurd hphase h
      size := fun h => absurd hsize h
      rd := fun h => absurd hrd h
      wr := fun h => absurd hwr h
      lk := fun h => absurd hlk h
      mem := fun _ _ => rfl }
  | failInit hw _ =>
    simp only [initRegs, List.cons_subset] at hw
    exact { UnitFrame.refl u w (s.unit u) with phase := fun h => absurd hw.1 h }
  | use _ hops => exact unitOps_frame hops

/-- No command leaves the phases `READY` and `FAILED`. -/
theorem unitChange_phase (h : UnitChange w s u F) (hs : (s.unit u).phase ≠ .reset) : F.phase = (s.unit u).phase := by
  cases h with
  | same => rfl
  | initialise _ hphase _ _ => exact absurd hphase hs
  | failInit _ hphase => exact absurd hphase hs
  | use _ hops => exact unitOps_phase hops

/-- A `READY` channel has `READY` units. -/
theorem BlockInv.unit_ready (h : BlockInv s) (hch : s.chPhase = .ready) (u : UnitSel) : (s.unit u).phase = .ready := by
  obtain ⟨-, -, -, -, hready, -, -⟩ := h
  obtain ⟨hin, hout⟩ := hready hch
  cases u <;> assumption

/-- A `FAILED` channel has `FAILED` units. -/
theorem BlockInv.unit_failed (h : BlockInv s) (hch : s.chPhase = .failed) (u : UnitSel) :
    (s.unit u).phase = .failed := by
  obtain ⟨-, -, -, -, -, hfailed, -⟩ := h
  obtain ⟨hin, hout⟩ := hfailed hch
  cases u <;> assumption

theorem BlockInv.unit_ok (h : BlockInv s) (u : UnitSel) : (s.unit u).ok s.config.maxSize := by
  obtain ⟨-, hin, hout, -⟩ := h
  cases u <;> assumption

/-- `IN` is never locked while it is `READY`. -/
theorem BlockInv.inbound_unlocked (h : BlockInv s) : s.inb.phase = .ready → s.inb.L = none := by
  obtain ⟨-, -, -, hfree, -, -, -⟩ := h
  exact hfree

theorem unitChange_ok (h : UnitChange w s u F) (hs : BlockInv s) : F.ok s.config.maxSize := by
  have hok := hs.unit_ok u
  cases h with
  | same => exact hok
  | @initialise n _ hphase h1 hn =>
    have hempty : (s.unit u).mem = [] := hok.2 (by simp [hphase])
    have hmem : (initialised (s.unit u) n).memOk := by simp [Fifo.memOk, hempty, wf_nil]
    exact ⟨fun _ => wf_of_empty h1 hn hmem rfl rfl rfl, fun h => absurd rfl h⟩
  | failInit _ hphase => exact ⟨nofun, fun _ => hok.2 (by simp [hphase])⟩
  | use hready hops =>
    have hready' := hready.elim id (hs.unit_ready · u)
    exact ⟨fun _ => unitOps_wf hops (hok.1 hready'), fun h => absurd ((unitOps_phase hops).trans hready') h⟩

theorem unitChange_inbound_unlocked (h : UnitChange w s .inbound F) (hs : BlockInv s) (hF : F.phase = .ready) :
    F.L = none := by
  have hfree := hs.inbound_unlocked
  cases h with
  | same => exact hfree hF
  | initialise _ _ _ _ => rfl
  | failInit _ _ => cases hF
  | use _ hops => exact unitOps_inbound_unlocked hops (hfree ((unitOps_phase hops).symm.trans hF))

end unitChange

/-- What a command that may write `w` can do to the state: a change of each unit, and to the rest what `w` allows. If
the channel's phase changes, both units are in the new phase. -/
structure Changes (w : List Reg) (s t : State) : Prop where
  units (u : UnitSel) : UnitChange w s u (t.unit u)
  irqEn : .irqEn ∈ w ∨ t.irqEn = s.irqEn
  txLog : ∃ bs, t.txLog = s.txLog ++ bs ∧ (bs ≠ [] → .txLog ∈ w)
  chPhase : t.chPhase = s.chPhase ∨ .chPhase ∈ w ∧ ∀ u, (t.unit u).phase = t.chPhase
  config : t.config = s.config
  cmdPort : t.cmdPort = s.cmdPort
  schedule : t.schedule = s.schedule

section changes
variable {w : List Reg} {s t : State}

/-- A change of the two units alone. -/
theorem changes_units {I O : Fifo} (hI : UnitChange w s .inbound I) (hO : UnitChange w s .outbound O) :
    Changes w s { s with inb := I, outb := O } where
  units u := by cases u <;> assumption
  irqEn := .inr rfl
  txLog := ⟨[], (List.append_nil _).symm, fun h => absurd rfl h⟩
  chPhase := .inl rfl
  config := rfl
  cmdPort := rfl
  schedule := rfl

theorem changes_refl (w : List Reg) (s : State) : Changes w s s := changes_units .same .same

theorem changes_setUnit {u : UnitSel} {F : Fifo} (h : UnitChange w s u F) : Changes w s (s.setUnit u F) := by
  cases u with
  | inbound => exact changes_units h .same
  | outbound => exact changes_units .same h

theorem unit_withIrqEn (s : State) (b : Bool) (u : UnitSel) : ({ s with irqEn := b } : State).unit u = s.unit u := by
  cases u <;> rfl

theorem unit_withTxLog (s : State) (bs : List Byte) (u : UnitSel) :
    ({ s with txLog := bs } : State).unit u = s.unit u := by
  cases u <;> rfl

theorem changes_irqEn (hw : .irqEn ∈ w) (h : Changes w s t) (b : Bool) : Changes w s { t with irqEn := b } where
  units u := unit_withIrqEn t b u ▸ h.units u
  irqEn := .inl hw
  txLog := h.txLog
  chPhase := by simpa only [unit_withIrqEn] using h.chPhase
  config := h.config
  cmdPort := h.cmdPort
  schedule := h.schedule

theorem changes_txLog (hw : .txLog ∈ w) (s : State) (bs : List Byte) :
    Changes w s { s with txLog := s.txLog ++ bs } where
  units u := (unit_withTxLog s _ u).symm ▸ .same
  irqEn := .inr rfl
  txLog := ⟨bs, rfl, fun _ => hw⟩
  chPhase := .inl rfl
  config := rfl
  cmdPort := rfl
  schedule := rfl

/-- A change of the two units into one phase, and of the channel into that phase. -/
theorem changes_chPhase_units {I O : Fifo} {p : Phase} (hw : .chPhase ∈ w) (hI : UnitChange w s .inbound I)
    (hO : UnitChange w s .outbound O) (hIp : I.phase = p) (hOp : O.phase = p) :
    Changes w s { s with inb := I, outb := O, chPhase := p } where
  units u := by cases u <;> assumption
  irqEn := .inr rfl
  txLog := ⟨[], (List.append_nil _).symm, fun h => absurd rfl h⟩
  chPhase := .inr ⟨hw, fun u => by cases u <;> assumption⟩
  config := rfl
  cmdPort := rfl
  schedule := rfl

theorem changes_answer (h : Changes w s t) (r : Reply) : Changes w s (t.answer r) where
  units u := by simpa using h.units u
  irqEn := by simpa using h.irqEn
  txLog := by simpa using h.txLog
  chPhase := by simpa using h.chPhase
  config := by simpa using h.config
  cmdPort := by simpa using h.cmdPort
  schedule := by simpa using h.schedule

/-- A change leaves every register outside `w` as it was. -/
theorem changes_sameReg (h : Changes w s t) {r : Reg} (hr : r ∉ w) : sameReg s t r := by
  have hframe (u : UnitSel) := unitChange_frame (h.units u)
  cases r with
  | phase u => exact (hframe u).phase hr
  | size u => exact (hframe u).size hr
  | rd u => exact (hframe u).rd hr
  | wr u => exact (hframe u).wr hr
  | lk u => exact (hframe u).lk hr
  | mem u => exact (hframe u).mem hr
  | irqEn => exact h.irqEn.resolve_left hr
  | txLog =>
    obtain ⟨bs, hbs, hw⟩ := h.txLog
    have hnil : bs = [] := by_contra fun hne => hr (hw hne)
    simpa [sameReg, hnil] using hbs
  | chPhase => exact h.chPhase.resolve_right fun hw => hr hw.1

/-- A channel in phase `p` (not `RESET`) after a change has both units in that phase, if it was so before. -/
theorem changes_chPhase (h : Changes w s t) {p : Phase} (hp : p ≠ .reset)
    (hs : s.chPhase = p → ∀ u, (s.unit u).phase = p) (ht : t.chPhase = p) (u : UnitSel) : (t.unit u).phase = p := by
  obtain hsame | ⟨-, hunits⟩ := h.chPhase
  · have hu := hs (hsame.symm.trans ht) u
    rw [unitChange_phase (h.units u) (by rw [hu]; exact hp), hu]
  · rw [hunits u, ht]

/-- A change with a legal response keeps the invariant. -/
theorem blockInv_of_changes (hs : BlockInv s) (h : Changes w s t) (hresp : ∀ r ∈ t.resp, r.wf) : BlockInv t := by
  have hready := changes_chPhase h (p := .ready) nofun hs.unit_ready
  have hfailed := changes_chPhase h (p := .failed) nofun hs.unit_failed
  have hok (u : UnitSel) := unitChange_ok (h.units u) hs
  rw [BlockInv, h.config]
  exact ⟨hs.1, hok .inbound, hok .outbound, (unitChange_inbound_unlocked (h.units .inbound) hs ·),
    fun ht => ⟨hready ht .inbound, hready ht .outbound⟩, fun ht => ⟨hfailed ht .inbound, hfailed ht .outbound⟩, hresp⟩

end changes

/-! ## Two runs with different unknown storage contents (rules R19, R37, R130) -/

/-- The same unit with another unknown initial content. -/
def Fifo.refill (F : Fifo) (c : Nat) : Fifo := { F with fill := c }

theorem refill_setUnit (s : State) (u : UnitSel) (F : Fifo) (a b : Nat) :
    ∃ c, (s.refill a b).unit u = (s.unit u).refill c ∧
      (s.refill a b).setUnit u (F.refill c) = (s.setUnit u F).refill a b := by
  cases u with
  | inbound => exact ⟨a, rfl, rfl⟩
  | outbound => exact ⟨b, rfl, rfl⟩

theorem refill_answer (s : State) (r : Reply) (a b : Nat) : (s.refill a b).answer r = (s.answer r).refill a b := by
  unfold State.answer
  split <;> rfl

/-- A byte that was written does not depend on the initial content. -/
theorem slotByte_refill {F : Fifo} {i : Nat} (h : (F.mem.find i).isSome = true) (c : Nat) :
    slotByte (F.refill c) i = slotByte F i := by
  obtain ⟨b, hb⟩ := Option.isSome_iff_exists.1 h
  have hb' : (F.refill c).mem.find i = some b := hb
  simp [slotByte, hb, hb']

theorem memRead_refill {F : Fifo} (hs : F.stored) {i : Nat} (hi : i < written F) (c : Nat) :
    memRead (F.refill c) (ea F i) = memRead F (ea F i) := by
  show (if ea F i < F.N then some (slotByte (F.refill c) (ea F i)) else none) = _
  rw [slotByte_refill (hs i hi)]
  rfl

theorem memRead_refill_R {F : Fifo} (hr : F.inRange) (hs : F.stored) (hw : written F ≠ 0) (c : Nat) :
    memRead (F.refill c) F.R = memRead F F.R := by
  have := memRead_refill hs (i := 0) (by omega) c
  rwa [ea_zero hr.2.1] at this

theorem readRun_refill {F : Fifo} (hs : F.stored) {i n : Nat} (hn : i + n ≤ written F) (c : Nat) :
    readRun (F.refill c) i n = readRun F i n := by
  induction n generalizing i with
  | zero => rfl
  | succ n ih =>
    have hbyte : memRead (F.refill c) (ea (F.refill c) i) = memRead F (ea F i) := memRead_refill hs (by omega) c
    simp only [readRun, hbyte, ih (by omega : i + 1 + n ≤ written F)]

theorem memWrite_refill (F : Fifo) (a : Nat) (v : Byte) (c : Nat) :
    memWrite (F.refill c) a v = (memWrite F a v).map (·.refill c) := by
  show (if a < F.N then _ else _) = Option.map _ (if a < F.N then _ else _)
  split <;> rfl

theorem advanceWrite_refill (F : Fifo) (c : Nat) : advanceWrite (F.refill c) = (advanceWrite F).refill c := by
  show (if inc F F.W = F.R then _ else _) = Fifo.refill (if inc F F.W = F.R then _ else _) c
  split <;> rfl

theorem push_refill (F : Fifo) (v : Byte) (c : Nat) : push (F.refill c) v = (push F v).map (·.refill c) := by
  show (memWrite (F.refill c) F.W v).map advanceWrite = ((memWrite F F.W v).map advanceWrite).map _
  rw [memWrite_refill, Option.map_map, Option.map_map]
  congr 1
  funext G
  exact advanceWrite_refill G c

theorem discarded_refill (F : Fifo) (c : Nat) : discarded (F.refill c) = (discarded F).refill c := by
  cases hL : F.L <;> simp [discarded, Fifo.refill, hL]

theorem pushAll_refill (F : Fifo) (bs : List Byte) (c : Nat) :
    pushAll (F.refill c) bs = (pushAll F bs).map (·.refill c) := by
  induction bs generalizing F with
  | nil => rfl
  | cons v bs ih => simp only [pushAll, push_refill, Option.bind_map, Option.map_bind, Function.comp_def, ih]

theorem writeRun_refill (F : Fifo) (i : Nat) (bs : List Byte) (c : Nat) :
    writeRun (F.refill c) i bs = (writeRun F i bs).map (·.refill c) := by
  induction bs generalizing F i with
  | nil => rfl
  | cons v bs ih =>
    have hslot : memWrite (F.refill c) (ea (F.refill c) i) v = (memWrite F (ea F i) v).map (·.refill c) :=
      memWrite_refill F (ea F i) v c
    simp only [writeRun, hslot, Option.bind_map, Option.map_bind, Function.comp_def, ih]

theorem pop_refill {F : Fifo} (hr : F.inRange) (hs : F.stored) (hw : written F ≠ 0) (c : Nat) :
    pop (F.refill c) = (pop F).map fun p => (p.1, p.2.refill c) := by
  show (memRead (F.refill c) F.R).map _ = ((memRead F F.R).map _).map _
  rw [memRead_refill_R hr hs hw, Option.map_map]
  rfl

/-- What `transfer` moves was written, so the two runs move the same bytes. -/
theorem transfer_refill {m : Nat} {I : Fifo} (hI : I.wf m) (O : Fifo) (n a b : Nat) :
    transfer (I.refill a) (O.refill b) n = (transfer I O n).map fun r => (r.1.refill a, r.2.1.refill b, r.2.2) := by
  induction n generalizing I O with
  | zero => rfl
  | succ n ih =>
    have hcount : readable (I.refill a) = readable I := rfl
    unfold transfer
    rw [hcount]
    split
    · rfl
    · rename_i hread
      obtain ⟨hrange, hord, -, -, hstored⟩ := id hI
      have hle := readable_le_written hord
      have hnext := wf_advanceRead hI (n := 1) (by omega)
      rw [pop_refill hrange hstored (by omega), pop_eq hrange.2.1]
      simp only [Option.map_some, Option.bind_some, push_refill, Option.bind_map, Option.map_bind, Function.comp_def,
        ih hnext, Option.map_map]

/-! ## The rule of a command -/

section ruleAt
variable {α β : Type}

/-- A command's own rule in two runs: `x` is its result in the one, `y` in the one with other unknown contents. What
it leaves is one of the changes `P`; and if `inv`, the other run replies the same and leaves the same but for the
unknown contents. -/
structure RuleAt (inv : Prop) (P : α → Prop) (refill : α → α) (x y : Option (α × Reply)) : Prop where
  changes : Results (fun t _ => P t) x
  blind : inv → y = x.map fun p => (refill p.1, p.2)

variable {inv : Prop} {P : α → Prop} {refill : α → α}

theorem ruleAt_some {t t' : α} {r : Reply} (h : P t) (ht : t' = refill t) :
    RuleAt inv P refill (some (t, r)) (some (t', r)) :=
  ⟨results_some h, fun _ => by rw [ht]; rfl⟩

theorem ruleAt_ite {c : Prop} [Decidable c] {x x' y y' : Option (α × Reply)} (hx : c → RuleAt inv P refill x y)
    (hx' : ¬ c → RuleAt inv P refill x' y') : RuleAt inv P refill (if c then x else x') (if c then y else y') := by
  split
  · exact hx ‹_›
  · exact hx' ‹_›

/-- A rule that goes on with what an operation `o` gives: in the other run `φ` of it. -/
theorem ruleAt_map {o o' : Option β} {f f' : β → α} {g : β → Reply} (φ : β → β) (hP : ∀ b, o = some b → P (f b))
    (ho : inv → o' = o.map φ) (hf : ∀ b, f' (φ b) = refill (f b)) (hg : ∀ b, g (φ b) = g b) :
    RuleAt inv P refill (o.map fun b => (f b, g b)) (o'.map fun b => (f' b, g b)) where
  changes t r h := by
    obtain ⟨b, hb, hfg⟩ := Option.map_eq_some_iff.1 h
    cases hfg
    exact hP b hb
  blind hinv := by
    rw [ho hinv, Option.map_map, Option.map_map]
    congr 1
    funext b
    exact Prod.ext (hf b) (hg b)

end ruleAt

/-- The rule `body` on unit `u`, once admitted: it stays within `w`, and shows no unknown byte of a unit that meets its
part of the invariant. -/
abbrev FifoBodyOk (k : FifoKind) (u : UnitSel) (w : List Reg) (s : State) (body : Fifo → Option (Fifo × Reply)) :
    Prop :=
  admitFifo k u s = none → ∀ c,
    RuleAt ((s.unit u).ok s.config.maxSize) (UnitChange w s u) (·.refill c) (body (s.unit u))
      (body ((s.unit u).refill c))

/-- The same for the rule of a channel command; the other run starts from `s.refill a b`. -/
abbrev ChannelBodyOk (a b : Nat) (k : ChannelKind) (w : List Reg) (s : State) (body : State → Option (State × Reply)) :
    Prop :=
  admitChannel k s = none → RuleAt (BlockInv s) (Changes w s) (·.refill a b) (body s) (body (s.refill a b))

/-- A command in the states `s` and `s.refill a b`: one check of its record, one admission, and a rule that stays within
the command's row of the table of rule R28 and shows no unknown byte. -/
inductive CommandRule (a b : Nat) (i : Instr) (s : State) : Prop
  | fifo {k : FifoKind} {u : UnitSel} {body : Fifo → Option (Fifo × Reply)}
      (hexec : exec i s = if i.wf then fifoCommand k u s body else .refused .badPayload)
      (hexec' : exec i (s.refill a b) = if i.wf then fifoCommand k u (s.refill a b) body else .refused .badPayload)
      (hrule : FifoBodyOk k u (mayWrite i) s body)
  | channel {k : ChannelKind} {body : State → Option (State × Reply)}
      (hexec : exec i s = if i.wf then channelCommand k s body else .refused .badPayload)
      (hexec' : exec i (s.refill a b) = if i.wf then channelCommand k (s.refill a b) body else .refused .badPayload)
      (hrule : ChannelBodyOk a b k (mayWrite i) s body)

section commandRule
variable {a b : Nat} {i : Instr} {s : State}

/-- A FIFO-unit command without payload, whose meaning is `f`. -/
theorem commandRule_fifo (f : State → StepResult) {k : FifoKind} {u : UnitSel} {body : Fifo → Option (Fifo × Reply)}
    (hp : i.payload? = none) (hexec : ∀ t, exec i t = f t) (hf : f s = fifoCommand k u s body)
    (hf' : f (s.refill a b) = fifoCommand k u (s.refill a b) body)
    (hrule : FifoBodyOk k u (mayWrite i) s body) : CommandRule a b i s :=
  .fifo (exec_eq_ite _ hp ((hexec s).trans hf)) (exec_eq_ite _ hp ((hexec _).trans hf')) hrule

/-- A channel command without payload, whose meaning is `f`. -/
theorem commandRule_channel (f : State → StepResult) {k : ChannelKind} {body : State → Option (State × Reply)}
    (hp : i.payload? = none) (hexec : ∀ t, exec i t = f t) (hf : f s = channelCommand k s body)
    (hf' : f (s.refill a b) = channelCommand k (s.refill a b) body)
    (hrule : ChannelBodyOk a b k (mayWrite i) s body) : CommandRule a b i s :=
  .channel (exec_eq_ite _ hp ((hexec s).trans hf)) (exec_eq_ite _ hp ((hexec _).trans hf')) hrule

theorem ready_of_ordinary {u : UnitSel} (h : admitFifo .ordinary u s = none) : (s.unit u).phase = .ready :=
  ((admitFifo_ordinary_iff u s).1 h).2

theorem reset_of_init {u : UnitSel} (h : admitFifo .init u s = none) : (s.unit u).phase = .reset :=
  ((admitFifo_init_iff u s).1 h).2

/-- A use of a unit by a command that asks for a `READY` one. -/
theorem unitChange_use {w : List Reg} {u : UnitSel} {F : Fifo} (h : admitFifo .ordinary u s = none)
    (hops : UnitOps u w (s.unit u) F) : UnitChange w s u F := .use (.inl (ready_of_ordinary h)) hops

/-- The arguments INIT and CH_INIT accept for a unit (rules R70, R102). -/
theorem size_of_goodInitArgs {c : Config} {size : Word16} {sv : Bool} (h : badInitArgs c size sv = false) :
    1 ≤ size.toNat ∧ size.toNat ≤ c.maxSize := by
  simp only [badInitArgs, Bool.or_eq_false_iff, decide_eq_false_iff_not] at h
  omega

/-- A rule that fails with `AVAIL` when the count is short, the same in both runs. -/
theorem ruleAt_avail_or {w : List Reg} {u : UnitSel} {inv p : Prop} [Decidable p] {c : Nat}
    {x y : Option (Fifo × Reply)} (h : ¬ p → RuleAt inv (UnitChange w s u) (·.refill c) x y) :
    RuleAt inv (UnitChange w s u) (·.refill c) (if p then some (s.unit u, failWith .avail) else x)
      (if p then some ((s.unit u).refill c, failWith .avail) else y) :=
  ruleAt_ite (fun _ => ruleAt_some .same rfl) h

/-- A rule that stores bytes and then succeeds. -/
theorem ruleAt_store {w : List Reg} {u : UnitSel} {inv : Prop} {c : Nat} {o o' : Option Fifo} {r : Reply}
    (ha : admitFifo .ordinary u s = none) (hops : ∀ F, o = some F → UnitOps u w (s.unit u) F)
    (ho : o' = o.map (Fifo.refill · c)) :
    RuleAt inv (UnitChange w s u) (·.refill c) (o.map fun F => (F, r)) (o'.map fun F => (F, r)) :=
  ruleAt_map (Fifo.refill · c) (fun F hF => unitChange_use ha (hops F hF)) (fun _ => ho) (fun _ => rfl) (fun _ => rfl)

/-- A rule that replies what it reads, the same in both runs. -/
theorem ruleAt_read {β : Type} {w : List Reg} {u : UnitSel} {inv : Prop} {c : Nat} {o o' : Option β} {F : Fifo}
    {g : β → Reply} (hF : UnitChange w s u F) (ho : inv → o' = o) :
    RuleAt inv (UnitChange w s u) (·.refill c) (o.map fun x => (F, g x)) (o'.map fun x => (F.refill c, g x)) :=
  ruleAt_map id (fun _ _ => hF) (fun h => by rw [ho h, Option.map_id_fun, id]) (fun _ => rfl) (fun _ => rfl)

/-- A rule inside the bracket. -/
theorem ruleAt_bracketed {inv : Prop} {P : State → Prop} {body : State → Option (State × Reply)}
    (h : RuleAt inv (fun t => P { t with irqEn := true }) (·.refill a b) (body { s with irqEn := false })
      (body (State.refill { s with irqEn := false } a b))) :
    RuleAt inv P (·.refill a b) (bracketed s body) (bracketed (s.refill a b) body) where
  changes t r hr := by
    obtain ⟨t', r', hbody, e⟩ := bracketed_some hr
    cases e
    exact h.changes t' r hbody
  blind hinv := by
    show (body (State.refill { s with irqEn := false } a b)).map _ = Option.map _ (Option.map _ _)
    rw [h.blind hinv, Option.map_map, Option.map_map]
    rfl

/-- RX on the command port: a push into `IN`. -/
theorem receive_refill (v : Byte) (s : State) (a b : Nat) :
    receive v (s.refill a b) = (receive v s).map (State.refill · a b) := by
  show (push (s.inb.refill a) v).map _ = ((push s.inb v).map _).map _
  rw [push_refill, Option.map_map, Option.map_map]
  rfl

theorem changes_receive {w : List Reg} (hw : pushRegs .inbound ⊆ w) {t : State} {v : Byte} (hch : s.chPhase = .ready)
    (h : receive v s = some t) : Changes w s t := by
  obtain ⟨-, rfl⟩ := receive_some h
  exact changes_units (.use (.inr hch) (.single (.push v hw))) .same

/-- The loop of CH_READ and CH_READALL inside the bracket. -/
theorem ruleAt_transfer {w : List Reg} (hrd : .rd .inbound ∈ w) (hirq : .irqEn ∈ w) (hpush : pushRegs .outbound ⊆ w)
    (hch : s.chPhase = .ready) (n : Nat) :
    RuleAt (BlockInv s) (fun t => Changes w s { t with irqEn := true }) (·.refill a b)
      ((transfer s.inb s.outb n).map fun r =>
        ({ s with inb := r.1, outb := r.2.1, irqEn := false }, success r.2.2))
      ((transfer (s.inb.refill a) (s.outb.refill b) n).map fun r =>
        ({ s.refill a b with inb := r.1, outb := r.2.1, irqEn := false }, success r.2.2)) := by
  refine ruleAt_map (fun r => (r.1.refill a, r.2.1.refill b, r.2.2)) (fun r hr => ?_) (fun hs => ?_) (fun _ => rfl)
    (fun _ => rfl)
  · obtain ⟨hI, hO⟩ := unitOps_transfer hrd hpush hr
    exact changes_irqEn hirq (changes_units (.use (.inr hch) hI) (.use (.inr hch) hO)) true
  · exact transfer_refill ((hs.unit_ok .inbound).1 (hs.unit_ready hch .inbound)) s.outb n a b

end commandRule

/-- Every command has such a rule. What a command can do to the state, and that it does the same whatever the unknown
bytes are, is derived from this. -/
theorem exec_rule (a b : Nat) (i : Instr) (s : State) : CommandRule a b i s := by
  have all {w : List Reg} : w ⊆ w := List.Subset.refl w
  cases i with
  | init u size sv =>
    refine commandRule_fifo (execInit u size sv) rfl (fun _ => rfl) rfl rfl fun ha c => ?_
    refine ruleAt_ite (fun _ => ?_) (fun hgood => ?_)
    · exact ruleAt_some (.failInit all (reset_of_init ha)) rfl
    · obtain ⟨h1, hn⟩ := size_of_goodInitArgs (Bool.eq_false_iff.2 hgood)
      exact ruleAt_some (.initialise all (reset_of_init ha) h1 hn) rfl
  | clear u =>
    refine commandRule_fifo (execClear u) rfl (fun _ => rfl) rfl rfl fun ha c => ?_
    exact ruleAt_some (unitChange_use ha (.single (.clear all))) rfl
  | isempty u =>
    refine commandRule_fifo (execIsempty u) rfl (fun _ => rfl) rfl rfl fun _ c => ?_
    exact ruleAt_some .same rfl
  | totalw u =>
    refine commandRule_fifo (execTotalw u) rfl (fun _ => rfl) rfl rfl fun _ c => ?_
    exact ruleAt_some .same rfl
  | totalr u =>
    refine commandRule_fifo (execTotalr u) rfl (fun _ => rfl) rfl rfl fun _ c => ?_
    exact ruleAt_some .same rfl
  | cap u =>
    refine commandRule_fifo (execCap u) rfl (fun _ => rfl) rfl rfl fun _ c => ?_
    exact ruleAt_some .same rfl
  | islocked u =>
    refine commandRule_fifo (execIslocked u) rfl (fun _ => rfl) rfl rfl fun _ c => ?_
    exact ruleAt_some .same rfl
  | writeb u v =>
    refine commandRule_fifo (execWriteb u v) rfl (fun _ => rfl) rfl rfl fun ha c => ?_
    exact ruleAt_store ha (fun _ => unitOps_push all) (push_refill _ v c)
  | write u len p =>
    refine .fifo (withPayload_eq_ite rfl _) (withPayload_eq_ite rfl _) fun ha c => ?_
    exact ruleAt_store ha (fun _ => unitOps_pushAll all) (pushAll_refill _ _ c)
  | writestr u len p =>
    refine .fifo (withPayload_eq_ite rfl _) (withPayload_eq_ite rfl _) fun ha c => ?_
    exact ruleAt_store ha (fun _ => unitOps_pushAll all) (pushAll_refill _ _ c)
  | read u len =>
    refine commandRule_fifo (execRead u len) rfl (fun _ => rfl) rfl rfl fun ha c => ruleAt_avail_or fun hlen => ?_
    have hn : len.toNat ≤ readable (s.unit u) := by omega
    refine ruleAt_read (unitChange_use ha (.single (.consume (.head _) hn))) fun hok => ?_
    obtain ⟨-, hord, -, -, hstored⟩ := hok.1 (ready_of_ordinary ha)
    have hle := readable_le_written hord
    exact readRun_refill hstored (by omega) c
  | readb u =>
    refine commandRule_fifo (execReadb u) rfl (fun _ => rfl) rfl rfl fun ha c => ruleAt_avail_or fun hread => ?_
    refine ruleAt_map (fun p => (p.1, p.2.refill c)) (fun p hp => unitChange_use ha (unitOps_pop (.head _) hread hp))
      (fun hok => ?_) (fun _ => rfl) (fun _ => rfl)
    obtain ⟨hrange, hord, -, -, hstored⟩ := hok.1 (ready_of_ordinary ha)
    have hle := readable_le_written hord
    exact pop_refill hrange hstored (by omega) c
  | peekb u =>
    refine commandRule_fifo (execPeekb u) rfl (fun _ => rfl) rfl rfl fun ha c => ruleAt_avail_or fun hheld => ?_
    refine ruleAt_read .same fun hok => ?_
    obtain ⟨hrange, -, -, -, hstored⟩ := hok.1 (ready_of_ordinary ha)
    exact memRead_refill_R hrange hstored hheld c
  | peekat u idx =>
    refine commandRule_fifo (execPeekat u idx) rfl (fun _ => rfl) rfl rfl fun ha c => ruleAt_avail_or fun hidx => ?_
    refine ruleAt_read .same fun hok => ?_
    obtain ⟨-, -, -, -, hstored⟩ := hok.1 (ready_of_ordinary ha)
    exact memRead_refill hstored (Nat.lt_of_not_le hidx) c
  | delete u len =>
    refine commandRule_fifo (execDelete u len) rfl (fun _ => rfl) rfl rfl fun ha c => ruleAt_avail_or fun hlen => ?_
    exact ruleAt_some (unitChange_use ha (.single (.consume (.head _) (Nat.le_of_not_lt hlen)))) rfl
  | deleteb u =>
    refine commandRule_fifo (execDeleteb u) rfl (fun _ => rfl) rfl rfl fun ha c => ruleAt_avail_or fun hread => ?_
    exact ruleAt_some (unitChange_use ha (.single (.consume (.head _) (Nat.one_le_iff_ne_zero.2 hread)))) rfl
  | update u len p =>
    refine .fifo (withPayload_eq_ite rfl _) (withPayload_eq_ite rfl _) fun ha c => ruleAt_avail_or fun _ => ?_
    exact ruleAt_store ha (fun _ => unitOps_writeRun (.head _)) (writeRun_refill _ _ p c)
  | updateat u idx len p =>
    refine .fifo (withPayload_eq_ite rfl _) (withPayload_eq_ite rfl _) fun ha c => ruleAt_avail_or fun _ => ?_
    exact ruleAt_store ha (fun _ => unitOps_writeRun (.head _)) (writeRun_refill _ _ p c)
  | updateb u v =>
    refine commandRule_fifo (execUpdateb u v) rfl (fun _ => rfl) rfl rfl fun ha c => ruleAt_avail_or fun _ => ?_
    exact ruleAt_store ha (fun _ => unitOps_memWrite (.head _)) (memWrite_refill _ _ v c)
  | updatebat u idx v =>
    refine commandRule_fifo (execUpdatebat u idx v) rfl (fun _ => rfl) rfl rfl fun ha c => ruleAt_avail_or fun _ => ?_
    exact ruleAt_store ha (fun _ => unitOps_memWrite (.head _)) (memWrite_refill _ _ v c)
  | lock u =>
    refine commandRule_fifo (execLock u) rfl (fun _ => rfl) rfl rfl fun ha c => ?_
    obtain ⟨rfl, hready⟩ := (admitFifo_transaction_iff u s).1 ha
    exact ruleAt_some (.use (.inl hready) (.single (.lock (.head _) rfl))) rfl
  | unlock u =>
    refine commandRule_fifo (execUnlock u) rfl (fun _ => rfl) rfl rfl fun ha c => ?_
    obtain ⟨rfl, hready⟩ := (admitFifo_transaction_iff u s).1 ha
    exact ruleAt_some (.use (.inl hready) (.single (.unlock (.head _)))) rfl
  | discard u =>
    refine commandRule_fifo (execDiscard u) rfl (fun _ => rfl) rfl rfl fun ha c => ?_
    obtain ⟨rfl, hready⟩ := (admitFifo_transaction_iff u s).1 ha
    exact ruleAt_some (.use (.inl hready) (.single (.discard all))) (discarded_refill _ c)
  | chInit sizeIn svIn sizeOut svOut =>
    refine commandRule_channel (execChInit sizeIn svIn sizeOut svOut) rfl (fun _ => rfl) rfl rfl fun ha => ?_
    obtain ⟨-, -, hin, hout⟩ := (admitChannel_init_iff s).1 ha
    have hwIn : initRegs .inbound ⊆ mayWrite (.chInit sizeIn svIn sizeOut svOut) := by simp [mayWrite]
    have hwOut : initRegs .outbound ⊆ mayWrite (.chInit sizeIn svIn sizeOut svOut) := by simp [mayWrite]
    have hwCh : .chPhase ∈ mayWrite (.chInit sizeIn svIn sizeOut svOut) := by simp [mayWrite]
    refine ruleAt_ite (fun _ => ?_) (fun hgood => ?_)
    · exact ruleAt_some (changes_chPhase_units hwCh (.failInit hwIn hin) (.failInit hwOut hout) rfl rfl) rfl
    · obtain ⟨hgoodIn, hgoodOut⟩ := Bool.or_eq_false_iff.1 (Bool.eq_false_iff.2 hgood)
      obtain ⟨h1In, hnIn⟩ := size_of_goodInitArgs hgoodIn
      obtain ⟨h1Out, hnOut⟩ := size_of_goodInitArgs hgoodOut
      exact ruleAt_some (changes_chPhase_units hwCh (.initialise hwIn hin h1In hnIn)
        (.initialise hwOut hout h1Out hnOut) rfl rfl) rfl
  | rx v =>
    refine commandRule_channel (execRx v) rfl (fun _ => rfl) rfl rfl fun ha => ?_
    have hch := (admitChannel_ordinary_iff s).1 ha
    exact ruleAt_map (State.refill · a b) (fun _ ht => changes_receive all hch ht) (fun _ => receive_refill v s a b)
      (fun _ => rfl) (fun _ => rfl)
  | avail =>
    refine commandRule_channel execAvail rfl (fun _ => rfl) rfl rfl fun _ => ruleAt_bracketed ?_
    exact ruleAt_some (changes_irqEn (.head _) (changes_refl _ s) true) rfl
  | chRead len =>
    refine commandRule_channel (execChRead len) rfl (fun _ => rfl) rfl rfl fun ha => ruleAt_bracketed ?_
    have hch := (admitChannel_ordinary_iff s).1 ha
    exact ruleAt_transfer (w := mayWrite (.chRead len)) (by simp [mayWrite]) (by simp [mayWrite])
      (List.subset_append_right _ _) hch len.toNat
  | chReadall =>
    refine commandRule_channel execChReadall rfl (fun _ => rfl) rfl rfl fun ha => ruleAt_bracketed ?_
    have hch := (admitChannel_ordinary_iff s).1 ha
    exact ruleAt_transfer (w := mayWrite .chReadall) (by simp [mayWrite]) (by simp [mayWrite])
      (List.subset_append_right _ _) hch (readable s.inb)
  | chWrite len p =>
    refine .channel (withPayload_eq_ite rfl _) (withPayload_eq_ite rfl _) fun _ => ?_
    exact ruleAt_some (changes_txLog (.head _) s p) rfl
  | chWritestr len p =>
    refine .channel (withPayload_eq_ite rfl _) (withPayload_eq_ite rfl _) fun _ => ?_
    refine ruleAt_some ?_ rfl
    rw [List.append_assoc]
    exact changes_txLog (.head _) s _
  | chClear =>
    refine commandRule_channel execChClear rfl (fun _ => rfl) rfl rfl fun ha => ruleAt_bracketed ?_
    have hch := (admitChannel_ordinary_iff s).1 ha
    have hw : [.rd .inbound, .wr .inbound, .lk .inbound] ⊆ mayWrite .chClear := by decide
    have hclear := changes_units (.use (.inr hch) (.single (.clear hw))) .same
    exact ruleAt_some (changes_irqEn (by decide) hclear true) rfl
  | irqDis =>
    refine commandRule_channel execIrqDis rfl (fun _ => rfl) rfl rfl fun _ => ?_
    exact ruleAt_some (changes_irqEn (.head _) (changes_refl _ s) false) rfl
  | irqEna =>
    refine commandRule_channel execIrqEna rfl (fun _ => rfl) rfl rfl fun _ => ?_
    exact ruleAt_some (changes_irqEn (.head _) (changes_refl _ s) true) rfl

/-- All a command can do to the state when it answers a next state: changes within its row of the table of rule R28. -/
theorem exec_changes {i : Instr} {s t : State} (h : exec i s = .next t) : Changes (mayWrite i) s t := by
  cases exec_rule 0 0 i s with
  | fifo hexec _ hrule =>
    obtain ⟨F, r, ha, hbody, rfl⟩ := fifoCommand_next (eq_next_of_ite (hexec ▸ h))
    exact changes_answer (changes_setUnit ((hrule ha 0).changes F r hbody)) r
  | channel hexec _ hrule =>
    obtain ⟨t', r, ha, hbody, rfl⟩ := channelCommand_next (eq_next_of_ite (hexec ▸ h))
    exact changes_answer ((hrule ha).changes t' r hbody) r

/-- Settles O49: the changes of a command stay within its row. -/
theorem commandsWriteOnlyTheirRegisters : Obligations.CommandsWriteOnlyTheirRegisters := by
  intro i s t h
  have hc := exec_changes h
  exact ⟨fun r hr => changes_sameReg hc hr, hc.config, hc.cmdPort, hc.schedule⟩

/-- The rows of the table of rule R28 that name `TXLOG`. -/
theorem txLog_mem_mayWrite {i : Instr} (h : .txLog ∈ mayWrite i) :
    (∃ len p, i = .chWrite len p) ∨ ∃ len p, i = .chWritestr len p := by
  cases i with
  | chWrite len p => exact .inl ⟨len, p, rfl⟩
  | chWritestr len p => exact .inr ⟨len, p, rfl⟩
  | _ => simp [mayWrite, initRegs, pushRegs] at h

/-- Settles O51: a change only appends to `TXLOG`, and only where the command's row names it. -/
theorem txLogOnlyGrows : Obligations.TxLogOnlyGrows := by
  intro i s t h
  obtain ⟨bs, hbs, hw⟩ := (exec_changes h).txLog
  exact ⟨bs, hbs, fun hne => txLog_mem_mayWrite (hw hne)⟩

/-! ## The invariant of the block -/

theorem failResponse_wf {e : Err} (h : e ≠ .none) : (failResponse e).wf := by
  simp [failResponse, Response.wf, h]

theorem failWith_resp_wf {s : State} {e : Err} (h : e ≠ .none) {r : Response} (hr : r ∈ (s.answer (failWith e)).resp) :
    r.wf := by
  rw [answer_failWith s e h] at hr
  cases hr
  exact failResponse_wf h

/-- A success without payload-out is a legal response, whatever its `val`. -/
theorem success_resp_wf {s : State} {v : Nat} {r : Response} (h : r ∈ (s.answer (success v)).resp) : r.wf := by
  obtain ⟨val, hval⟩ := answer_resp s (success v)
  rw [hval] at h
  cases h
  simp [success, Response.wf]

/-- A success with a payload-out is one when the length of that fits in `val`. -/
theorem successOut_resp_wf {s : State} {out : List Byte} (hlen : out.length < 65536) {r : Response}
    (h : r ∈ (s.answer (successOut out)).resp) : r.wf := by
  rw [answer_of_fits s _ hlen] at h
  cases h
  have hval : out.length % 65536 = out.length := Nat.mod_eq_of_lt hlen
  simp [successOut, Response.wf, hval]

/-- The payload-out of READ has at most `len` bytes (rule R84), so its length fits in `val`. -/
theorem read_resp_wf {u : UnitSel} {n : Word16} {s t : State} (h : exec (.read u n) s = .next t) {r : Response}
    (hr : r ∈ t.resp) : r.wf := by
  obtain ⟨F, reply, -, hbody, rfl⟩ := fifoCommand_next (show execRead u n s = .next t from h)
  split at hbody
  · cases hbody
    exact failWith_resp_wf (by decide) hr
  · obtain ⟨out, hout, hreply⟩ := Option.map_eq_some_iff.1 hbody
    cases hreply
    have hlen : out.length = n.toNat := by simp [readRun_some hout]
    exact successOut_resp_wf (hlen ▸ n.isLt) hr

/-- Every answer of a command is a legal response (rules R60, R61). -/
theorem exec_resp_wf {i : Instr} {s t : State} (h : exec i s = .next t) {r : Response} (hr : r ∈ t.resp) : r.wf := by
  obtain ⟨t', reply, hreply, rfl⟩ := exec_next h
  cases hreply with
  | success _ v => exact success_resp_wf hr
  | avail => exact failWith_resp_wf (by decide) hr
  | config _ _ => exact failWith_resp_wf (by decide) hr
  | payloadOut _ out hi =>
    obtain ⟨u, n, rfl⟩ := hi
    exact read_resp_wf h hr

theorem exec_keeps_blockInv {i : Instr} {s t : State} (hs : BlockInv s) (h : exec i s = .next t) : BlockInv t :=
  blockInv_of_changes hs (exec_changes h) fun _ => exec_resp_wf h

/-- The invariant does not look at the ports or the schedule, and of the response only at its form. -/
theorem blockInv_withPorts {s : State} (hs : BlockInv s) (cmdPort : List Byte) (schedule : List Turn)
    {resp : Option Response} (hresp : ∀ r ∈ resp, r.wf) :
    BlockInv { s with cmdPort := cmdPort, schedule := schedule, resp := resp } := by
  obtain ⟨hconfig, hin, hout, hfree, hready, hfailed, -⟩ := hs
  exact ⟨hconfig, hin, hout, hfree, hready, hfailed, hresp⟩

theorem BlockInv.resp_wf {s : State} (hs : BlockInv s) : ∀ r ∈ s.resp, r.wf := by
  obtain ⟨-, -, -, -, -, -, hresp⟩ := hs
  exact hresp

theorem foregroundTurn_keeps_blockInv {s t : State} (hs : BlockInv s) (h : foregroundTurn s = .next t) :
    BlockInv t := by
  obtain ⟨i, rest, -, hexec⟩ | ⟨why, rest, -, rfl⟩ | ⟨-, rfl⟩ := foregroundTurn_next h
  · exact exec_keeps_blockInv (blockInv_withPorts hs rest s.schedule hs.resp_wf) hexec
  · rw [answerIllegal, answer_failWith _ .illegal nofun]
    exact blockInv_withPorts hs rest s.schedule fun r hr => Option.some.inj hr ▸ failResponse_wf nofun
  · exact blockInv_withPorts hs s.cmdPort s.schedule nofun

theorem producerRx_keeps_blockInv {s t : State} {v : Byte} (hs : BlockInv s) (h : producerRx v s = .next t) :
    BlockInv t := by
  obtain ⟨hch, hW, rfl⟩ := producerRx_next h
  have hpush := changes_receive (List.Subset.refl _) hch (receive_eq hW v)
  have hinv := blockInv_of_changes hs hpush hs.resp_wf
  exact blockInv_withPorts hinv s.cmdPort s.schedule nofun

theorem hardwareReset_blockInv {s : State} (hs : BlockInv s) : BlockInv (hardwareReset s) :=
  ⟨hs.1, afterReset_ok _ _, afterReset_ok _ _, nofun, nofun, nofun, nofun⟩

theorem nextTurn_keeps_blockInv {s : State} (hs : BlockInv s) : BlockInv (nextTurn s).2 := by
  obtain ⟨ts, hts⟩ := nextTurn_state s
  rw [hts]
  exact blockInv_withPorts hs s.cmdPort ts hs.resp_wf

/-- Settles O10: each agent's turn keeps the invariant; a command by its changes and its legal response. -/
theorem stepKeepsBlockInv : Obligations.StepKeepsBlockInv := by
  intro s t hs h
  have hs' := nextTurn_keeps_blockInv hs
  obtain ⟨s', ⟨hturn, hfg⟩ | ⟨v, hturn, hrx⟩ | ⟨hturn, rfl⟩⟩ := step_next h
  all_goals rw [hturn] at hs'
  · exact foregroundTurn_keeps_blockInv hs' hfg
  · exact producerRx_keeps_blockInv hs' hrx
  · exact hardwareReset_blockInv hs'

/-! ## The unknown initial content never shows -/

theorem admitFifo_refill (k : FifoKind) (u : UnitSel) (s : State) (a b : Nat) :
    admitFifo k u (s.refill a b) = admitFifo k u s := by
  cases u <;> rfl

theorem fifoCommand_refill {k : FifoKind} {u : UnitSel} {s t : State} {w : List Reg} {a b : Nat}
    {body : Fifo → Option (Fifo × Reply)} (hs : BlockInv s) (h : fifoCommand k u s body = .next t)
    (hrule : FifoBodyOk k u w s body) : fifoCommand k u (s.refill a b) body = .next (t.refill a b) := by
  obtain ⟨F, r, ha, hbody, rfl⟩ := fifoCommand_next h
  obtain ⟨c, hunit, hset⟩ := refill_setUnit s u F a b
  have hbody' : body ((s.refill a b).unit u) = some (F.refill c, r) := by
    rw [hunit, (hrule ha c).blind (hs.unit_ok u), hbody]
    rfl
  rw [fifoCommand_eq ((admitFifo_refill k u s a b).trans ha) hbody', hset, refill_answer]

theorem channelCommand_refill {k : ChannelKind} {s t : State} {w : List Reg} {a b : Nat}
    {body : State → Option (State × Reply)} (hs : BlockInv s) (h : channelCommand k s body = .next t)
    (hrule : ChannelBodyOk a b k w s body) : channelCommand k (s.refill a b) body = .next (t.refill a b) := by
  obtain ⟨t', r, ha, hbody, rfl⟩ := channelCommand_next h
  have hbody' : body (s.refill a b) = some (t'.refill a b, r) := by
    rw [(hrule ha).blind hs, hbody]
    rfl
  have ha' : admitChannel k (s.refill a b) = none := ha
  rw [channelCommand_eq ha' hbody', refill_answer]

/-- A record that passes its check in one state passes in every state. -/
theorem wf_of_ite_next {i : Instr} {c : StepResult} {t : State}
    (h : (if i.wf then c else .refused .badPayload) = Host.Outcome.next t) : i.wf := by
  by_contra hwf
  rw [if_neg hwf] at h
  cases h

/-- With other unknown storage contents a command answers the same and leaves the same but for those contents. -/
theorem exec_refill {i : Instr} {s t : State} (hs : BlockInv s) (h : exec i s = .next t) (a b : Nat) :
    exec i (s.refill a b) = .next (t.refill a b) := by
  cases exec_rule a b i s with
  | fifo hexec hexec' hrule =>
    rw [hexec] at h
    rw [hexec', if_pos (wf_of_ite_next h), fifoCommand_refill hs (eq_next_of_ite h) hrule]
  | channel hexec hexec' hrule =>
    rw [hexec] at h
    rw [hexec', if_pos (wf_of_ite_next h), channelCommand_refill hs (eq_next_of_ite h) hrule]

theorem foregroundTurn_refill {s t : State} (hs : BlockInv s) (h : foregroundTurn s = .next t) (a b : Nat) :
    foregroundTurn (s.refill a b) = .next (t.refill a b) := by
  have hport : (s.refill a b).cmdPort = s.cmdPort := rfl
  obtain ⟨i, rest, hdec, hexec⟩ | ⟨why, rest, hdec, rfl⟩ | ⟨hdec, rfl⟩ := foregroundTurn_next h
  · rw [foregroundTurn_command (hport ▸ hdec)]
    exact exec_refill (blockInv_withPorts hs rest s.schedule hs.resp_wf) hexec a b
  · simp only [foregroundTurn, hport, hdec, answerIllegal]
    exact congrArg _ (refill_answer { s with cmdPort := rest } (failWith .illegal) a b)
  · simp only [foregroundTurn, hport, hdec]
    rfl

theorem producerRx_refill {s t : State} {v : Byte} (h : producerRx v s = .next t) (a b : Nat) :
    producerRx v (s.refill a b) = .next (t.refill a b) := by
  obtain ⟨hch, hW, rfl⟩ := producerRx_next h
  have ha : admitChannel .ordinary (s.refill a b) = none := (admitChannel_ordinary_iff (s.refill a b)).2 hch
  have hrx : receive v (s.refill a b) = some (State.refill { s with inb := pushed s.inb v } a b) := by
    rw [receive_refill, receive_eq hW]
    rfl
  simp only [producerRx, ha, hrx]
  rfl

theorem nextTurn_reset {s : State} {ts : List Turn} (h : s.schedule = .reset :: ts) :
    nextTurn s = (.reset, { s with schedule := ts }) := by simp [nextTurn, h]

/-- A byte on the producer port is taken while `IRQ_EN = 1` (rule R123). -/
theorem nextTurn_producer_acts {s : State} {v : Byte} {ts : List Turn} (h : s.schedule = .producer v :: ts)
    (hirq : s.irqEn = true) : nextTurn s = (.producer v, { s with schedule := ts }) := by simp [nextTurn, h, hirq]

/-- Whose turn it is does not depend on the storages. -/
theorem nextTurn_refill (s : State) (a b : Nat) :
    nextTurn (s.refill a b) = ((nextTurn s).1, (nextTurn s).2.refill a b) := by
  have hschedule : (s.refill a b).schedule = s.schedule := rfl
  have hirqEn : (s.refill a b).irqEn = s.irqEn := rfl
  obtain ⟨hs, h⟩ | ⟨ts, hs, h⟩ | ⟨ts, hs, h⟩ | ⟨v, ts, hs, hirq, h⟩ | ⟨v, ts, hs, hirq, h⟩ := nextTurn_cases s
  all_goals rw [h]
  · exact nextTurn_nil (hschedule.trans hs)
  · exact nextTurn_foreground (hschedule.trans hs)
  · exact nextTurn_reset (hschedule.trans hs)
  · exact nextTurn_producer_acts (hschedule.trans hs) (hirqEn.trans hirq)
  · exact nextTurn_producer_waits (hschedule.trans hs) (hirqEn.trans hirq)

/-- A hardware reset names new unknown contents, whatever those before it were (rule R33). -/
theorem hardwareReset_refill (s : State) (a b : Nat) : hardwareReset (s.refill a b) = hardwareReset s := rfl

/-- A state is itself with its own unknown contents. -/
theorem refill_self (s : State) : s.refill s.inb.fill s.outb.fill = s := rfl

/-- Settles O57: a command or a byte leaves the new unknown contents where they are, a hardware reset replaces them. -/
theorem initialStorageNeverShows : Obligations.InitialStorageNeverShows := by
  intro s t k l hs h
  have hs' := nextTurn_keeps_blockInv hs
  obtain ⟨s', ⟨hturn, hfg⟩ | ⟨v, hturn, hrx⟩ | ⟨hturn, rfl⟩⟩ := step_next h
  all_goals
    rw [hturn] at hs'
    rw [step, nextTurn_refill, hturn]
  · exact ⟨k, l, foregroundTurn_refill hs' hfg k l⟩
  · exact ⟨k, l, producerRx_refill hrx k l⟩
  · exact ⟨_, _, congrArg _ ((hardwareReset_refill s' k l).trans (refill_self _).symm)⟩

end Sys2Proof.Machine
end

section
/-! The family "memory" (20_memory.md): every access of a command to a storage names a slot that exists. A command's own
rule gives no result only where such an access fails, so each rule is shown to give one on a unit with cursors in
range. -/

namespace Sys2Proof.Machine

open Sys2Proof

/-! ## Rules that give a result -/

section defined
variable {α β : Type}

theorem ite_some_ne_none {c : Prop} [Decidable c] {a : α} {x : Option α} (h : x ≠ none) :
    (if c then some a else x) ≠ none := by
  split
  · exact Option.some_ne_none a
  · exact h

theorem map_ne_none_of_eq_some {o : Option α} {a : α} (h : o = some a) (f : α → β) : o.map f ≠ none := by
  rw [h]
  exact Option.some_ne_none (f a)

/-- The bracket gives a result when its body does. -/
theorem bracketed_ne_none {s : State} {body : State → Option (State × Reply)}
    (h : body { s with irqEn := false } ≠ none) : bracketed s body ≠ none := by
  obtain ⟨p, hp⟩ := Option.ne_none_iff_exists'.1 h
  exact map_ne_none_of_eq_some hp _

end defined

/-! ## Commands (rules R35 to R38) -/

section noFault
variable {s : State} {f : Fault}

theorem withPayload_ne_fault {len : Word16} {p : List Byte} {r : StepResult} (h : r ≠ .fault f) :
    withPayload len p r ≠ .fault f := by
  unfold withPayload
  split
  · exact h
  · nofun

/-- A FIFO-unit command whose rule gives a result wherever it is admitted. -/
theorem fifoCommand_ne_fault {k : FifoKind} {u : UnitSel} {body : Fifo → Option (Fifo × Reply)}
    (h : admitFifo k u s = none → body (s.unit u) ≠ none) : fifoCommand k u s body ≠ .fault f := by
  intro hf
  obtain ⟨ha, hbody⟩ := fifoCommand_fault hf
  exact h ha hbody

/-- A channel command whose rule gives a result wherever it is admitted. -/
theorem channelCommand_ne_fault {k : ChannelKind} {body : State → Option (State × Reply)}
    (h : admitChannel k s = none → body s ≠ none) : channelCommand k s body ≠ .fault f := by
  intro hf
  obtain ⟨ha, hbody⟩ := channelCommand_fault hf
  exact h ha hbody

/-- A `READY` unit has its cursors in range (rule R14). -/
theorem BlockInv.unit_inRange (hs : BlockInv s) {u : UnitSel} (h : (s.unit u).phase = .ready) : (s.unit u).inRange := by
  obtain ⟨hwf, -⟩ := hs.unit_ok u
  obtain ⟨hrange, -⟩ := hwf h
  exact hrange

/-- A command that asks for a `READY` unit, whose rule gives a result on every unit with cursors in range. -/
theorem fifoCommand_ordinary_ne_fault (hs : BlockInv s) {u : UnitSel} {body : Fifo → Option (Fifo × Reply)}
    (h : ∀ F : Fifo, F.inRange → body F ≠ none) : fifoCommand .ordinary u s body ≠ .fault f :=
  fifoCommand_ne_fault fun ha => h _ (hs.unit_inRange (ready_of_ordinary ha))

/-- A `READY` channel can receive a byte. -/
theorem receive_ne_none (hs : BlockInv s) (ha : admitChannel .ordinary s = none) (v : Byte) : receive v s ≠ none := by
  have hready := hs.unit_ready ((admitChannel_ordinary_iff s).1 ha) .inbound
  obtain ⟨-, -, hW, -⟩ : s.inb.inRange := hs.unit_inRange hready
  rw [receive_eq hW]
  exact Option.some_ne_none _

/-- The loop of CH_READ and CH_READALL inside the bracket, on a `READY` channel. -/
theorem bracketed_transfer_ne_none (hs : BlockInv s) (ha : admitChannel .ordinary s = none) (n : Nat)
    (g : Fifo × Fifo × Nat → State × Reply) :
    bracketed s (fun _ => (transfer s.inb s.outb n).map g) ≠ none := by
  have hready := hs.unit_ready ((admitChannel_ordinary_iff s).1 ha)
  have hI : s.inb.inRange := hs.unit_inRange (hready .inbound)
  have hO : s.outb.inRange := hs.unit_inRange (hready .outbound)
  have hL := hs.inbound_unlocked (hready .inbound)
  exact bracketed_ne_none (map_ne_none_of_eq_some (transfer_eq hI hL hO n) g)

/-- No command faults. Those that touch no storage always give a result; a push stores at the write cursor, a read or an
update in place goes to slots counted from the read cursor modulo `N`, so cursors in range are enough. -/
theorem exec_ne_fault (hs : BlockInv s) (i : Instr) : exec i s ≠ .fault f := by
  unfold exec
  cases i with
  | init | delete | deleteb =>
    refine fifoCommand_ne_fault fun _ => ?_
    exact ite_some_ne_none (Option.some_ne_none _)
  | clear | isempty | totalw | totalr | cap | islocked | lock | unlock | discard =>
    refine fifoCommand_ne_fault fun _ => ?_
    exact Option.some_ne_none _
  | writeb u v =>
    refine fifoCommand_ordinary_ne_fault hs fun F ⟨_, _, hW, _⟩ => ?_
    exact map_ne_none_of_eq_some (push_eq hW v) _
  | write u len p | writestr u len p =>
    refine withPayload_ne_fault (fifoCommand_ordinary_ne_fault hs fun F hF => ?_)
    exact map_ne_none_of_eq_some (pushAll_eq hF _) _
  | read u len =>
    refine fifoCommand_ordinary_ne_fault hs fun F ⟨hN, _⟩ => ?_
    exact ite_some_ne_none (map_ne_none_of_eq_some (readRun_eq hN 0 len.toNat) _)
  | readb u =>
    refine fifoCommand_ordinary_ne_fault hs fun F ⟨_, hR, _⟩ => ?_
    exact ite_some_ne_none (map_ne_none_of_eq_some (pop_eq hR) _)
  | peekb u =>
    refine fifoCommand_ordinary_ne_fault hs fun F ⟨_, hR, _⟩ => ?_
    exact ite_some_ne_none (map_ne_none_of_eq_some (memRead_eq hR) _)
  | peekat u idx =>
    refine fifoCommand_ordinary_ne_fault hs fun F ⟨hN, _⟩ => ?_
    exact ite_some_ne_none (map_ne_none_of_eq_some (memRead_eq (ea_lt hN idx.toNat)) _)
  | update u len p | updateat u idx len p =>
    refine withPayload_ne_fault (fifoCommand_ordinary_ne_fault hs fun F ⟨hN, _⟩ => ?_)
    exact ite_some_ne_none (map_ne_none_of_eq_some (writeRun_eq hN _ p) _)
  | updateb u v =>
    refine fifoCommand_ordinary_ne_fault hs fun F ⟨_, hR, _⟩ => ?_
    exact ite_some_ne_none (map_ne_none_of_eq_some (memWrite_eq hR v) _)
  | updatebat u idx v =>
    refine fifoCommand_ordinary_ne_fault hs fun F ⟨hN, _⟩ => ?_
    exact ite_some_ne_none (map_ne_none_of_eq_some (memWrite_eq (ea_lt hN idx.toNat) v) _)
  | chInit =>
    refine channelCommand_ne_fault fun _ => ?_
    exact ite_some_ne_none (Option.some_ne_none _)
  | rx v =>
    refine channelCommand_ne_fault fun ha => ?_
    obtain ⟨t, ht⟩ := Option.ne_none_iff_exists'.1 (receive_ne_none hs ha v)
    exact map_ne_none_of_eq_some ht _
  | chRead len =>
    refine channelCommand_ne_fault fun ha => ?_
    exact bracketed_transfer_ne_none hs ha len.toNat _
  | chReadall =>
    refine channelCommand_ne_fault fun ha => ?_
    exact bracketed_transfer_ne_none hs ha (readable s.inb) _
  | avail | chClear =>
    refine channelCommand_ne_fault fun _ => ?_
    exact bracketed_ne_none (Option.some_ne_none _)
  | chWrite | chWritestr =>
    refine withPayload_ne_fault (channelCommand_ne_fault fun _ => ?_)
    exact Option.some_ne_none _
  | irqDis | irqEna =>
    refine channelCommand_ne_fault fun _ => ?_
    exact Option.some_ne_none _

/-! ## Steps -/

theorem foregroundTurn_ne_fault (hs : BlockInv s) : foregroundTurn s ≠ .fault f := by
  unfold foregroundTurn
  split
  · exact exec_ne_fault (blockInv_withPorts hs _ s.schedule hs.resp_wf) _
  · nofun
  · nofun

theorem producerRx_ne_fault (hs : BlockInv s) (v : Byte) : producerRx v s ≠ .fault f := by
  unfold producerRx
  split
  · nofun
  · rename_i ha
    split
    · exact absurd ‹_› (receive_ne_none hs ha v)
    · nofun

end noFault

/-- Settles O11: each agent's turn, from the state with that turn used up, which meets the invariant too. -/
theorem noStepFaultsUnderBlockInv : Obligations.NoStepFaultsUnderBlockInv := by
  intro s f hs
  have hs' := nextTurn_keeps_blockInv hs
  unfold step takeTurn
  split
  · exact foregroundTurn_ne_fault hs'
  · exact producerRx_ne_fault hs' _
  · nofun

end Sys2Proof.Machine
end

section
/-! The family "encoding" (30_encoding.md): the words a row of the opcode map accepts, decoding and encoding as inverses
of each other, the answer to an illegal word, commands presented by the host, and the commands that are special cases
of others. -/

namespace Sys2Proof.Machine

open Sys2Proof

/-! ## The fields of any word (rule R52) -/

/-- `rsv = w[39:35]` (rule R52). -/
def rsvOf (w : CommandWord) : BitVec 5 := w.extractLsb' 35 5

theorem fullWord_toNat (op : Byte) (rsv : BitVec 5) (svo sv u : Bool) (idx len : Word16) :
    (fullWord op rsv svo sv u idx len).toNat =
      op.toNat * 1099511627776 + rsv.toNat * 34359738368 + svo.toNat * 17179869184 + sv.toNat * 8589934592
        + u.toNat * 4294967296 + idx.toNat * 65536 + len.toNat := by
  unfold fullWord
  simp only [toNat_appendBits, BitVec.toNat_ofBool]
  omega

/-- A packed word has the reserved bits 0. -/
theorem packWord_eq_fullWord (op : Byte) (svo sv u : Bool) (idx len : Word16) :
    packWord op svo sv u idx len = fullWord op 0 svo sv u idx len := rfl

/-- Every word is made of its fields. -/
theorem fullWord_fields (w : CommandWord) :
    fullWord (opOf w) (rsvOf w) (svoOf w) (svOf w) (unitBit (unitOf w)) (idxOf w) (lenOf w) = w := by
  have hu : unitBit (unitOf w) = w.getLsbD 32 := by
    unfold unitOf
    cases w.getLsbD 32 <;> rfl
  have := w.isLt
  apply BitVec.eq_of_toNat_eq
  rw [fullWord_toNat, hu]
  simp only [opOf, rsvOf, svoOf, svOf, idxOf, lenOf, BitVec.extractLsb'_toNat, BitVec.getLsbD, Nat.toNat_testBit,
    Nat.shiftRight_eq_div_pow]
  omega

theorem appendBits_inj {n m : Nat} {x x' : BitVec n} {y y' : BitVec m} (h : x ++ y = x' ++ y') : x = x' ∧ y = y' := by
  constructor
  · simpa [BitVec.extractLsb'_append_eq_left] using congrArg (BitVec.extractLsb' m n) h
  · simpa [BitVec.extractLsb'_append_eq_right] using congrArg (BitVec.extractLsb' 0 m) h

/-- A word has only one value for each field. -/
theorem fullWord_inj {op op' : Byte} {rsv rsv' : BitVec 5} {svo svo' sv sv' u u' : Bool} {idx idx' len len' : Word16}
    (h : fullWord op rsv svo sv u idx len = fullWord op' rsv' svo' sv' u' idx' len') :
    op = op' ∧ rsv = rsv' ∧ svo = svo' ∧ sv = sv' ∧ u = u' ∧ idx = idx' ∧ len = len' := by
  obtain ⟨h, hlen⟩ := appendBits_inj h
  obtain ⟨h, hidx⟩ := appendBits_inj h
  obtain ⟨h, hu⟩ := appendBits_inj h
  obtain ⟨h, hsv⟩ := appendBits_inj h
  obtain ⟨h, hsvo⟩ := appendBits_inj h
  obtain ⟨hop, hrsv⟩ := appendBits_inj h
  exact ⟨hop, hrsv, BitVec.ofBool_eq_iff_eq.1 hsvo, BitVec.ofBool_eq_iff_eq.1 hsv, BitVec.ofBool_eq_iff_eq.1 hu, hidx,
    hlen⟩

/-- A `len` field whose high byte is 0 is `val8` (rule R52). -/
theorem lenOf_eq_val8Field {w : CommandWord} (h : lenOf w &&& 65280 = 0) : lenOf w = val8Field (val8Of w) := by
  apply BitVec.eq_of_getLsbD_eq
  intro i hi
  by_cases hlow : i < 8
  · simp [lenOf, val8Field, val8Of, hi, hlow]
  · have hmask : (65280 : Word16).getLsbD i = true := by
      revert hi hlow; revert i; decide
    have hbit := congrArg (BitVec.getLsbD · i) h
    simp only [BitVec.getLsbD_and, hmask, Bool.and_true] at hbit
    simpa [val8Field, BitVec.getLsbD_of_ge _ i (Nat.le_of_not_lt hlow)] using hbit

/-! ## The words a row accepts (rule R53) -/

/-- What the mask check of a format asks of a word, field by field: a field is 0 where the mask has 1s. -/
theorem fields_of_mask {w : CommandWord} {op : Byte} {svo sv u : Bool} {idx len : Word16}
    (h : w &&& fullWord 255 31 svo sv u idx len = matchOf op) :
    opOf w = op ∧ rsvOf w = 0 ∧ (svoOf w && svo) = false ∧ (svOf w && sv) = false ∧
      (unitBit (unitOf w) && u) = false ∧ idxOf w &&& idx = 0 ∧ lenOf w &&& len = 0 := by
  rw [matchOf_eq, packWord_eq_fullWord] at h
  nth_rw 1 [← fullWord_fields w] at h
  unfold fullWord at h
  rw [and_concat, ofBool_and, ofBool_and, ofBool_and] at h
  obtain ⟨hop, hrsv, hrest⟩ := fullWord_inj h
  refine ⟨?_, ?_, hrest⟩
  · rwa [show opOf w &&& 255 = opOf w from BitVec.and_allOnes] at hop
  · rwa [show rsvOf w &&& 31 = rsvOf w from BitVec.and_allOnes] at hrsv

/-- The word of format `f` with the code `op` and the operands that stand in `w`: the fields `f` does not use are 0. -/
def formatWord (f : Format) (op : Byte) (w : CommandWord) : CommandWord :=
  match f with
  | .Z => unitWord op (unitOf w) 0 0
  | .S => packWord op false (svOf w) (unitBit (unitOf w)) 0 (lenOf w)
  | .B => unitWord op (unitOf w) 0 (val8Field (val8Of w))
  | .L => unitWord op (unitOf w) 0 (lenOf w)
  | .I => unitWord op (unitOf w) (idxOf w) 0
  | .IB => unitWord op (unitOf w) (idxOf w) (val8Field (val8Of w))
  | .IL => unitWord op (unitOf w) (idxOf w) (lenOf w)
  | .CZ => channelWord op 0
  | .CL => channelWord op (lenOf w)
  | .CB => channelWord op (val8Field (val8Of w))
  | .CS => packWord op (svoOf w) (svOf w) false (idxOf w) (lenOf w)

/-- A word that passes the mask check of a format is the word of that format with its operands: no bit is ignored. -/
theorem eq_formatWord_of_mask {f : Format} {op : Byte} {w : CommandWord} (h : w &&& maskOf f = matchOf op) :
    w = formatWord f op w := by
  have all16 : ∀ x : Word16, x &&& 65535 = x := fun x => BitVec.and_allOnes
  rw [maskOf_eq] at h
  conv_lhs => rw [← fullWord_fields w]
  cases f with
  | B | IB | CB =>
    obtain ⟨rfl, hrsv, hsvo, hsv, hu, hidx, hlen⟩ := fields_of_mask h
    rw [lenOf_eq_val8Field hlen]
    simp_all [formatWord, unitWord, channelWord, packWord_eq_fullWord]
  | Z | S | L | I | IL | CZ | CL | CS =>
    obtain ⟨rfl, hrsv, hsvo, hsv, hu, hidx, hlen⟩ := fields_of_mask h
    simp_all [formatWord, unitWord, channelWord, packWord_eq_fullWord]

/-- A command made by a row of the opcode map is encoded as the row's format says. -/
theorem encodeWord_build {row : Row} (h : row ∈ opcodeMap) (w : CommandWord) (p : List Byte) :
    encodeWord (row.build w p) = formatWord row.format row.op w := by
  simp only [opcodeMap, rowsStatusWriteRead, rowsDeleteUpdateLock, rowsChannel, List.cons_append, List.nil_append] at h
  fin_cases h <;> rfl

/-- The word of every command is legal: the lemmas of `Laws.WordDecodes` together. -/
theorem encodeWord_decodes (i : Instr) : Laws.WordDecodes.Statement i :=
  match i with
  | .init .. => Laws.WordDecodes.init ..
  | .clear _ => Laws.WordDecodes.clear _
  | .isempty _ => Laws.WordDecodes.isempty _
  | .totalw _ => Laws.WordDecodes.totalw _
  | .totalr _ => Laws.WordDecodes.totalr _
  | .cap _ => Laws.WordDecodes.cap _
  | .islocked _ => Laws.WordDecodes.islocked _
  | .writeb .. => Laws.WordDecodes.writeb ..
  | .write .. => Laws.WordDecodes.write ..
  | .writestr .. => Laws.WordDecodes.writestr ..
  | .read .. => Laws.WordDecodes.read ..
  | .readb _ => Laws.WordDecodes.readb _
  | .peekb _ => Laws.WordDecodes.peekb _
  | .peekat .. => Laws.WordDecodes.peekat ..
  | .delete .. => Laws.WordDecodes.delete ..
  | .deleteb _ => Laws.WordDecodes.deleteb _
  | .update .. => Laws.WordDecodes.update ..
  | .updateat .. => Laws.WordDecodes.updateat ..
  | .updateb .. => Laws.WordDecodes.updateb ..
  | .updatebat .. => Laws.WordDecodes.updatebat ..
  | .lock _ => Laws.WordDecodes.lock _
  | .unlock _ => Laws.WordDecodes.unlock _
  | .discard _ => Laws.WordDecodes.discard _
  | .chInit .. => Laws.WordDecodes.chInit ..
  | .rx _ => Laws.WordDecodes.rx _
  | .avail => Laws.WordDecodes.avail
  | .chRead _ => Laws.WordDecodes.chRead _
  | .chReadall => Laws.WordDecodes.chReadall
  | .chWrite .. => Laws.WordDecodes.chWrite ..
  | .chWritestr .. => Laws.WordDecodes.chWritestr ..
  | .chClear => Laws.WordDecodes.chClear
  | .irqDis => Laws.WordDecodes.irqDis
  | .irqEna => Laws.WordDecodes.irqEna

/-! ## Legal words (rules R57, R59, R62) -/

/-- `op` alone selects a row: the 33 operation codes differ. -/
theorem rowOf_op {row : Row} (h : row ∈ opcodeMap) : rowOf row.op = some row := by
  simp only [opcodeMap, rowsStatusWriteRead, rowsDeleteUpdateLock, rowsChannel, List.cons_append, List.nil_append] at h
  fin_cases h <;> rfl

theorem rowOf_eq_some_iff {op : Byte} {row : Row} : rowOf op = some row ↔ row ∈ opcodeMap ∧ row.op = op := by
  constructor
  · intro h
    exact ⟨List.mem_of_find?_eq_some h, by simpa using List.find?_some h⟩
  · rintro ⟨hrow, rfl⟩
    exact rowOf_op hrow

/-- A word decodes to a row exactly when the row has its `op` and the word passes the row's mask check. -/
theorem decodeWord_ok_iff {w : CommandWord} {row : Row} :
    decodeWord w = .ok row ↔ row ∈ opcodeMap ∧ row.op = opOf w ∧ w &&& maskOf row.format = matchOf row.op := by
  constructor
  · intro h
    unfold decodeWord at h
    split at h
    · cases h
    · rename_i hrow
      obtain ⟨hmem, hop⟩ := rowOf_eq_some_iff.1 hrow
      split at h
      · cases h
        exact ⟨hmem, hop, ‹_›⟩
      · cases h
  · rintro ⟨hmem, hop, hmask⟩
    exact decodeWord_of_row hop.symm (rowOf_op hmem) hmask

/-- A legal word is the word of every command its row makes of it. -/
theorem encodeWord_build_of_ok {w : CommandWord} {row : Row} (h : decodeWord w = .ok row) (p : List Byte) :
    encodeWord (row.build w p) = w := by
  obtain ⟨hmem, -, hmask⟩ := decodeWord_ok_iff.1 h
  rw [encodeWord_build hmem, ← eq_formatWord_of_mask hmask]

/-! ## What stands on the port (rules R51, R52, R55) -/

theorem decode_of_ok {w : CommandWord} {row : Row} (h : decodeWord w = .ok row) (tail : List Byte) :
    decode (bytesOfWord w ++ tail) = decodePayload row w tail := by rw [decode_bytesOfWord, h]

theorem decode_of_error {w : CommandWord} {why : Reject} (h : decodeWord w = .error why) (tail : List Byte) :
    decode (bytesOfWord w ++ tail) = .illegal why tail := by rw [decode_bytesOfWord, h]

/-- Fewer than six bytes carry no word. -/
theorem decode_of_short {bs : List Byte} (h : bs.length < 6) : decode bs = .incomplete := by
  unfold decode
  split
  · simp only [List.length_cons] at h
    omega
  · rfl

/-- Six bytes or more begin with a word. -/
theorem exists_word_of_length {bs : List Byte} (h : 6 ≤ bs.length) : ∃ w tail, bs = bytesOfWord w ++ tail :=
  match bs, h with
  | b0 :: b1 :: b2 :: b3 :: b4 :: b5 :: tail, _ =>
    ⟨wordOfBytes b0 b1 b2 b3 b4 b5, tail, by rw [bytesOfWord_wordOfBytes]; rfl⟩

/-- Every sequence of bytes is too short for a word, or begins with one that is legal or not. -/
theorem port_cases (bs : List Byte) :
    bs.length < 6 ∨ ∃ w tail, bs = bytesOfWord w ++ tail ∧
      ((∃ why, decodeWord w = .error why) ∨ ∃ row, decodeWord w = .ok row) := by
  rcases Nat.lt_or_ge bs.length 6 with hshort | hlong
  · exact .inl hshort
  · obtain ⟨w, tail, rfl⟩ := exists_word_of_length hlong
    refine .inr ⟨w, tail, rfl, ?_⟩
    cases hw : decodeWord w with
    | error why => exact .inl ⟨why, rfl⟩
    | ok row => exact .inr ⟨row, rfl⟩

/-- The payload part waits exactly for a payload that is not there in full. -/
theorem decodePayload_incomplete_iff {row : Row} {w : CommandWord} {tail : List Byte} :
    decodePayload row w tail = .incomplete ↔ row.takesPayload = true ∧ tail.length < (lenOf w).toNat := by
  unfold decodePayload
  split_ifs with htakes hlen
  · simp [hlen]
  · simp [htakes, Nat.lt_of_not_le hlen]
  · simp [htakes]

/-- All the payload part can make: the row's command, with the bytes in front of the rest as its payload. -/
theorem decodePayload_command {row : Row} {w : CommandWord} {tail rest : List Byte} {i : Instr}
    (h : decodePayload row w tail = .command i rest) :
    ∃ p, i = row.build w p ∧ tail = p ++ rest ∧ (row.takesPayload = false → p = []) := by
  unfold decodePayload at h
  split_ifs at h with htakes hlen
  · cases h
    exact ⟨_, rfl, (List.take_append_drop ..).symm, fun hno => absurd htakes (by simp [hno])⟩
  · cases h
    exact ⟨[], rfl, rfl, fun _ => rfl⟩

/-- The payload of a command made by a row is the bytes it was made with. -/
theorem payload_build_eq {row : Row} (h : row ∈ opcodeMap) (w : CommandWord) {p : List Byte}
    (hp : row.takesPayload = false → p = []) : (row.build w p).payload = p := by
  unfold Instr.payload
  rw [payload_build h]
  cases htakes : row.takesPayload with
  | false => simp [hp htakes]
  | true => rfl

/-- A row that makes the well-formed command `i` of a word and `i`'s payload takes exactly that payload. -/
theorem decodePayload_append {row : Row} {w : CommandWord} {i : Instr}
    (htakes : row.takesPayload = i.payload?.isSome) (hlen : ∀ x ∈ i.payload?, lenOf w = x.1)
    (hbuild : row.build w i.payload = i) (hwf : i.wf) (rest : List Byte) :
    decodePayload row w (i.payload ++ rest) = .command i rest := by
  cases hp : i.payload? with
  | none =>
    have hnil : i.payload = [] := by simp [Instr.payload, hp]
    rw [hnil] at hbuild ⊢
    simp [decodePayload, htakes, hp, hbuild]
  | some x =>
    have hlength : (lenOf w).toNat = i.payload.length := by
      rw [hlen x hp, ← hwf x hp]
      simp [Instr.payload, hp]
    simp [decodePayload, htakes, hp, hlength, hbuild]

/-! ## Decoding and encoding -/

/-- Settles O1: the word decodes to its row, and the row takes exactly the payload. -/
theorem decodeOfEncode : Obligations.DecodeOfEncode := by
  intro i rest hwf
  obtain ⟨row, hok, htakes, hlen, hbuild⟩ := encodeWord_decodes i
  rw [encode, List.append_assoc, decode_of_ok hok]
  exact decodePayload_append htakes hlen hbuild hwf rest

/-- Settles O2: a legal word is the word of the command its row makes, since the mask check leaves no bit free that is
not an operand. -/
theorem encodeOfDecode : Obligations.EncodeOfDecode := by
  intro bs i rest h
  refine ⟨decode_wf h, ?_⟩
  obtain hshort | ⟨w, tail, rfl, ⟨why, hw⟩ | ⟨row, hw⟩⟩ := port_cases bs
  · cases (decode_of_short hshort).symm.trans h
  · cases (decode_of_error hw tail).symm.trans h
  · rw [decode_of_ok hw] at h
    obtain ⟨p, rfl, rfl, hp⟩ := decodePayload_command h
    rw [encode, encodeWord_build_of_ok hw, payload_build_eq (decodeWord_mem hw) w hp, List.append_assoc]

/-! ## Illegal words (rule R59) -/

/-- The words of commands are the legal words. -/
theorem exists_encodeWord_iff {w : CommandWord} : (∃ i, encodeWord i = w) ↔ ∃ row, decodeWord w = .ok row := by
  constructor
  · rintro ⟨i, rfl⟩
    obtain ⟨row, hok, -⟩ := encodeWord_decodes i
    exact ⟨row, hok⟩
  · rintro ⟨row, hok⟩
    exact ⟨row.build w [], encodeWord_build_of_ok hok []⟩

/-- A word of no command is rejected. -/
theorem decodeWord_error_of_no_command {w : CommandWord} (h : ∀ i, encodeWord i ≠ w) :
    ∃ why, decodeWord w = .error why := by
  cases hw : decodeWord w with
  | error why => exact ⟨why, rfl⟩
  | ok row =>
    obtain ⟨i, hi⟩ := exists_encodeWord_iff.2 ⟨row, hw⟩
    exact absurd hi (h i)

/-- The two ways a word is illegal: no row has its `op`, or its row's mask check fails. -/
theorem no_command_iff {w : CommandWord} :
    (∀ i, encodeWord i ≠ w) ↔ opOf w ∉ opcodeMap.map Row.op ∨
      ∃ row ∈ opcodeMap, row.op = opOf w ∧ w &&& maskOf row.format ≠ matchOf row.op := by
  constructor
  · intro hno
    by_cases hop : opOf w ∈ opcodeMap.map Row.op
    · obtain ⟨row, hrow, hop⟩ := List.mem_map.1 hop
      refine .inr ⟨row, hrow, hop, fun hmask => ?_⟩
      obtain ⟨i, hi⟩ := exists_encodeWord_iff.2 ⟨row, decodeWord_ok_iff.2 ⟨hrow, hop, hmask⟩⟩
      exact hno i hi
    · exact .inl hop
  · intro hbad i hi
    obtain ⟨row, hok⟩ := exists_encodeWord_iff.1 ⟨i, hi⟩
    obtain ⟨hrow, hop, hmask⟩ := decodeWord_ok_iff.1 hok
    obtain hreserved | ⟨row', hrow', hop', hmask'⟩ := hbad
    · exact hreserved (List.mem_map.2 ⟨row, hrow, hop⟩)
    · have hsome : some row' = some row := by rw [← rowOf_op hrow', hop', ← hop, rowOf_op hrow]
      cases hsome
      exact hmask' hmask

theorem foregroundTurn_illegal {s : State} {why : Reject} {rest : List Byte}
    (h : decode s.cmdPort = .illegal why rest) :
    foregroundTurn s = .next { s with cmdPort := rest, resp := some (failResponse .illegal) } := by
  simp [foregroundTurn, h, answerIllegal]

/-- Settles O3: the 33 values are the `op`s of the opcode map; an illegal word takes no payload and is answered in the
foreground's turn. -/
theorem illegalWordAnswered : Obligations.IllegalWordAnswered := by
  refine fun w => ⟨no_command_iff, fun s s' rest hno hturn hport => ?_⟩
  obtain ⟨why, hw⟩ := decodeWord_error_of_no_command hno
  rw [step_foreground hturn]
  exact foregroundTurn_illegal (hport ▸ decode_of_error hw rest)

/-! ## The bytes of a command on the port (rules R52, R53, R62) -/

theorem unitBit_eq_true_iff (u : UnitSel) : unitBit u = true ↔ u = .outbound := by cases u <;> decide

/-- The six bytes of a packed word, with `svo`, `sv` and `u` as bits 2, 1 and 0 of the second (rule R52). -/
theorem bytesOfWord_packWord_flags (op : Byte) (svo sv u : Bool) (idx len : Word16) :
    bytesOfWord (packWord op svo sv u idx len) =
      [op, (if svo then 4 else 0) ||| (if sv then 2 else 0) ||| (if u then 1 else 0), idx.extractLsb' 8 8,
        idx.extractLsb' 0 8, len.extractLsb' 8 8, len.extractLsb' 0 8] := by
  rw [bytesOfWord_packWord]
  cases svo <;> cases sv <;> cases u <;> rfl

/-- Settles O5: every command is a packed word, the fields its format does not use 0, and then its payload. -/
theorem bytesOfEveryCommand : Obligations.BytesOfEveryCommand := by
  rintro u idx len v p sv svo _ _ _ _ _ rfl rfl rfl rfl rfl
  simp [encode, encodeWord, unitWord, channelWord, bytesOfWord_packWord_flags, unitBit_eq_true_iff, Instr.payload,
    Instr.payload?]

/-! ## Sample words and the response word (rules R52, R60) -/

/-- Settles O4: each of the seven byte sequences is decoded by evaluation. -/
theorem sampleWordsDecode : Obligations.SampleWordsDecode := by
  refine ⟨?_, ?_, ?_, ?_, ?_, ?_, ?_⟩ <;> decide

/-- The response word as a number (rule R60). -/
theorem responseWord_toNat (r : Response) :
    (responseWord r).toNat = r.ok.toNat * 262144 + (errCode r.err).toNat * 65536 + r.val.toNat := by
  simp only [responseWord, toNat_appendBits, BitVec.toNat_ofBool, BitVec.toNat_ofNat]
  omega

/-- Settles O8: each field is read off the response word as a number. -/
theorem responseWordFields : Obligations.ResponseWordFields := by
  intro r
  have hval := r.val.isLt
  have herr := (errCode r.err).isLt
  have hok := r.ok.toNat_lt
  refine ⟨?_, ?_, ?_, ?_, rfl, rfl, rfl, rfl⟩
  · apply BitVec.eq_of_toNat_eq
    simp only [BitVec.extractLsb'_toNat, responseWord_toNat, Nat.shiftRight_eq_div_pow, BitVec.ofNat_eq_ofNat,
      BitVec.toNat_ofNat]
    omega
  · rw [BitVec.getLsbD, responseWord_toNat, Nat.testBit_eq_decide_div_mod_eq]
    cases r.ok <;> simp <;> omega
  · apply BitVec.eq_of_toNat_eq
    simp only [BitVec.extractLsb'_toNat, responseWord_toNat, Nat.shiftRight_eq_div_pow]
    omega
  · exact BitVec.extractLsb'_append_eq_right

/-! ## The host's way to present a command (rules R51, R57) -/

/-- Presented bytes are in front of the port, and the next turn is the foreground's, whatever the schedule says. -/
theorem nextTurn_presentBytes (s : State) (bytes : List Byte) :
    nextTurn (presentBytes s bytes) = (.foreground, { s with cmdPort := bytes ++ s.cmdPort }) := by
  cases hs : s.schedule <;> simp [nextTurn, presentBytes, hs]

/-- The bytes that present a legal word are one command, whatever follows them. -/
theorem decode_portBytes {w : CommandWord} {row : Row} (h : decodeWord w = .ok row) (rest : List Byte) :
    decode (portBytes w ++ rest) = .command (row.build w (List.replicate (payloadLength w) 0)) rest := by
  rw [portBytes, List.append_assoc, decode_of_ok h]
  cases htakes : row.takesPayload <;> simp [decodePayload, payloadLength, h, htakes]

/-- A table word that is read as a command is that command in front of any bytes. -/
theorem decode_tableWord {nbits w : Nat} {i : Instr} (h : decodeTableWord nbits w = some i) (rest : List Byte) :
    decode (portBytes (tableWord nbits w) ++ rest) = .command i rest := by
  unfold decodeTableWord at h
  cases hw : decodeWord (tableWord nbits w) with
  | error why =>
    rw [portBytes, decode_of_error hw] at h
    cases h
  | ok row =>
    rw [← List.append_nil (portBytes _), decode_portBytes hw] at h
    cases h
    exact decode_portBytes hw rest

/-- Settles O7: the presented bytes are taken as one command, and the port is as it was. -/
theorem fetchWordRunsCommand : Obligations.FetchWordRunsCommand := by
  intro s w i h
  rw [State.withFetchWord, step_foreground (nextTurn_presentBytes ..), foregroundTurn_command (decode_tableWord h _)]

/-! ## Incomplete commands (rule R51, notes/assumptions/6.md) -/

theorem foregroundTurn_incomplete {s : State} (h : decode s.cmdPort = .incomplete) :
    foregroundTurn s = .next { s with resp := none } := by
  simp [foregroundTurn, h, State.silent]

theorem decode_incomplete_iff {bs : List Byte} :
    decode bs = .incomplete ↔
      bs.length < 6 ∨
        ∃ (w : CommandWord) (rest : List Byte) (row : Row), bs = bytesOfWord w ++ rest ∧ decodeWord w = .ok row ∧
          row.takesPayload = true ∧ rest.length < (lenOf w).toNat := by
  constructor
  · intro h
    obtain hshort | ⟨w, tail, rfl, ⟨why, hw⟩ | ⟨row, hw⟩⟩ := port_cases bs
    · exact .inl hshort
    · cases (decode_of_error hw tail).symm.trans h
    · rw [decode_of_ok hw, decodePayload_incomplete_iff] at h
      exact .inr ⟨w, tail, row, rfl, hw, h⟩
  · rintro (hshort | ⟨w, tail, row, rfl, hw, hpayload⟩)
    · exact decode_of_short hshort
    · rw [decode_of_ok hw, decodePayload_incomplete_iff]
      exact hpayload

/-- Settles O58: the foreground's turn waits, and the three ways the port can begin decide when. -/
theorem incompleteCommandWaits : Obligations.IncompleteCommandWaits := by
  refine ⟨fun s s' hturn hdec => ?_, fun bs => decode_incomplete_iff⟩
  rw [step_foreground hturn, foregroundTurn_incomplete hdec]

/-! ## Payloads (rules R55, R56) -/

/-- An ill-formed record is refused before anything else is looked at (rule R56). -/
theorem exec_of_not_wf {i : Instr} (h : ¬ i.wf) (s : State) : exec i s = .refused .badPayload := by
  cases exec_form i s with
  | fifo hexec _ _ | channel hexec _ _ => rw [hexec, if_neg h]

/-- A well-formed command is refused for its admission only. -/
theorem exec_of_wf_ne_badPayload {i : Instr} (h : i.wf) (s : State) : exec i s ≠ .refused .badPayload := by
  intro hexec
  obtain ⟨hill, -⟩ | hmem := exec_refused_mem hexec
  · exact hill h
  · exact absurd hmem (by decide)

/-- Settles O45: the payload check comes first, and admission never answers `BadPayload`; the payload commands are read
off the definition of the payload. -/
theorem badPayloadRefused : Obligations.BadPayloadRefused := by
  refine fun i s => ⟨fun h => exec_of_not_wf h s, fun h => exec_of_wf_ne_badPayload h s, ?_⟩
  cases i <;> simp [Instr.payload?]

/-! ## RX on the command port (rules R63, R101) -/

theorem execRx_not_ready {s : State} (h : s.chPhase ≠ .ready) (v : Byte) : execRx v s = .refused .notReady :=
  channelCommand_refused.2 (by simp [admitChannel, h])

theorem execRx_ready {s : State} (h : s.chPhase = .ready) (hW : s.inb.W < s.inb.N) (v : Byte) :
    execRx v s = .next { s with inb := pushed s.inb v, resp := some (okResponse 0) } := by
  refine channelCommand_ordinary_succeeds (t := { s with inb := pushed s.inb v }) (v := 0) h ?_ (by decide)
  rw [receive_eq hW, Option.map_some]

/-- Settles O34: admission of the channel, then one push into `IN`. -/
theorem rxPushesIntoInbound : Obligations.RxPushesIntoInbound := by
  refine fun v s => ⟨fun hch => execRx_not_ready hch v, fun hch hrange => ?_⟩
  obtain ⟨-, -, hW, -⟩ := id hrange
  refine ⟨pushed s.inb v, push_eq hW v, execRx_ready hch hW v, contents_pushed_eq_lastBytes hrange v,
    fun a ha => ?_⟩
  rw [slotByte_pushed, if_neg ha]

/-! ## Special cases (rule R66) -/

/-- Two rules that do the same on the selected unit make the same command. -/
theorem fifoCommand_congr {k : FifoKind} {u : UnitSel} {s : State} {body body' : Fifo → Option (Fifo × Reply)}
    (h : body (s.unit u) = body' (s.unit u)) : fifoCommand k u s body = fifoCommand k u s body' := by
  unfold fifoCommand
  rw [h]

/-- Two rules that leave the same unit make commands with the same effect, up to the response. -/
theorem fifoCommand_agree {u : UnitSel} {s : State} (huse : s.mayUse u) {body body' : Fifo → Option (Fifo × Reply)}
    {F : Fifo} {r r' : Reply} (hb : body (s.unit u) = some (F, r)) (hb' : body' (s.unit u) = some (F, r'))
    (hr : r.val < 65536) (hr' : r'.val < 65536) :
    ∃ t resp, fifoCommand .ordinary u s body = .next t ∧
      fifoCommand .ordinary u s body' = .next { t with resp := resp } := by
  rw [fifoCommand_ordinary_answers huse hb hr, fifoCommand_ordinary_answers huse hb' hr']
  cases u <;> exact ⟨_, _, rfl, rfl⟩

section specialCases
variable {u : UnitSel} {s : State}

theorem execUpdate_eq_execUpdateat (u : UnitSel) (len : Word16) (p : List Byte) (s : State) :
    execUpdate u len p s = execUpdateat u 0 len p s := by
  simp [execUpdate, execUpdateat]

theorem execUpdateb_eq_execUpdatebat (hR : (s.unit u).R < (s.unit u).N) (v : Byte) :
    execUpdateb u v s = execUpdatebat u 0 v s := by
  refine fifoCommand_congr ?_
  simp [ea_zero hR]

theorem execPeekb_eq_execPeekat (hR : (s.unit u).R < (s.unit u).N) : execPeekb u s = execPeekat u 0 s := by
  refine fifoCommand_congr ?_
  simp [ea_zero hR]

theorem execDeleteb_eq_execDelete (u : UnitSel) (s : State) : execDeleteb u s = execDelete u 1 s := by
  refine fifoCommand_congr ?_
  simp [advanceRead_one]

/-- Both push the byte; WRITEB answers 0 and WRITE answers 1. -/
theorem execWriteb_agrees_execWrite (huse : s.mayUse u) (hW : (s.unit u).W < (s.unit u).N)
    (hmax : 1 ≤ s.config.maxSize) (v : Byte) :
    ∃ t r, execWriteb u v s = .next t ∧ execWrite u 1 [v] s = .next { t with resp := r } := by
  have hcount : pushCount s.config 1 = 1 := Nat.min_eq_left hmax
  rw [execWrite, withPayload_eq rfl, hcount]
  refine fifoCommand_agree huse (F := pushed (s.unit u) v) (r := success 0) (r' := success 1) ?_ ?_ (by decide)
    (by decide)
  · simp [push_eq hW]
  · simp [pushAll, push_eq hW]

/-- Both fail with `AVAIL` when nothing is readable; else both take the oldest byte, which READB answers in `val` and
READ as payload-out. -/
theorem execReadb_agrees_execRead (huse : s.mayUse u) (hrange : (s.unit u).inRange) (hord : (s.unit u).ordered) :
    ∃ t r, execReadb u s = .next t ∧ execRead u 1 s = .next { t with resp := r } := by
  have hle := readable_le_written hord
  have hempty := written_eq_zero hrange
  obtain ⟨hN, hR, -⟩ := hrange
  by_cases h0 : readable (s.unit u) = 0
  · refine fifoCommand_agree huse (F := s.unit u) (r := failWith .avail) (r' := failWith .avail) ?_ ?_ (by decide)
      (by decide)
    · rw [if_pos h0]
    · rw [if_pos (.inr (by simp [h0]))]
  · have hread : ¬ ((s.unit u).R = (s.unit u).W ∨ readable (s.unit u) < (1 : Word16).toNat) := by
      rw [← hempty, show (1 : Word16).toNat = 1 from rfl]
      omega
    generalize hb : slotByte (s.unit u) (s.unit u).R = b
    refine fifoCommand_agree huse (F := advanceRead (s.unit u) 1) (r := success b.toNat) (r' := successOut [b]) ?_ ?_
      (b.isLt.trans (by decide)) (show 1 < 65536 by decide)
    · rw [if_neg h0, pop_eq hR, Option.map_some, hb]
    · rw [if_neg hread, readRun_eq hN]
      simp [ea_zero hR, hb]

end specialCases

/-- Settles O52: four pairs have the same rule, two leave the same unit. -/
theorem specialCasesAgree : Obligations.SpecialCasesAgree := by
  intro u s huse hrange hord hmax
  obtain ⟨-, hR, hW, -⟩ := id hrange
  exact ⟨fun len p => execUpdate_eq_execUpdateat u len p s, execUpdateb_eq_execUpdatebat hR,
    execPeekb_eq_execPeekat hR, execDeleteb_eq_execDelete u s, execWriteb_agrees_execWrite huse hW hmax,
    execReadb_agrees_execRead huse hrange hord⟩

end Sys2Proof.Machine
end

section
/-! The family "life cycle and status" (40_lifecycle_status.md): the admission of the FIFO-unit commands, INIT, CLEAR and
the five status queries. -/

namespace Sys2Proof.Machine

open Sys2Proof

/-! ## Admission of the FIFO-unit commands (rule R69) -/

section admission
variable {i : Instr} {k : FifoKind} {u : UnitSel} {s : State}

/-- Check 1 comes before all others. -/
theorem admitFifo_lockOnInbound (s : State) : admitFifo .transaction .inbound s = some .lockOnInbound := by
  simp [admitFifo]

/-- Check 2 comes before the phases are looked at. -/
theorem admitFifo_unbracketed (hk : k ≠ .transaction) (hirq : s.irqEn = true) :
    admitFifo k .inbound s = some .unbracketedInbound := by
  simp [admitFifo, hk, hirq]

/-- Behind checks 1 and 2 the phase of the unit decides. -/
theorem admitFifo_eq_phase_checks (h : u = .inbound → k ≠ .transaction ∧ s.irqEn = false) :
    admitFifo k u s =
      if k = .init ∧ (s.unit u).phase ≠ .reset then some .reInit
      else if k ≠ .init ∧ (s.unit u).phase ≠ .ready then some .notReady
      else none := by
  have check1 : ¬ (u = .inbound ∧ k = .transaction) := fun ⟨hu, hk⟩ => (h hu).1 hk
  have check2 : ¬ (u = .inbound ∧ s.irqEn = true) := fun ⟨hu, hirq⟩ => by simp [(h hu).2] at hirq
  rw [admitFifo, if_neg check1, if_neg check2]

/-- No command is in both classes (rule R3). -/
theorem channelClass_of_fifoClass (h : fifoClass i = some (k, u)) : channelClass i = none := by
  cases i <;> cases h <;> rfl

/-- A well-formed FIFO-unit command is refused exactly as its admission says. -/
theorem exec_fifo_refused_iff (hclass : fifoClass i = some (k, u)) (hwf : i.wf) {r : Refusal} :
    exec i s = .refused r ↔ admitFifo k u s = some r := by
  cases exec_form i s with
  | fifo hexec hclass' _ =>
    cases hclass.symm.trans hclass'
    rw [hexec, if_pos hwf, fifoCommand_refused]
  | channel _ hclass' _ => cases (channelClass_of_fifoClass hclass).symm.trans hclass'

/-- A FIFO-unit command that admission turns away is refused. -/
theorem refuses_of_not_admitted (hclass : fifoClass i = some (k, u)) (hwf : i.wf) (h : admitFifo k u s ≠ none) :
    Refuses i s := by
  obtain ⟨r, hr⟩ := Option.ne_none_iff_exists'.1 h
  exact ⟨r, (exec_fifo_refused_iff hclass hwf).2 hr⟩

/-- So is a command that asks for a unit that may be used, on one that may not. -/
theorem refuses_of_not_mayUse (hclass : fifoClass i = some (.ordinary, u)) (hwf : i.wf) (h : ¬ s.mayUse u) :
    Refuses i s :=
  refuses_of_not_admitted hclass hwf fun ha => h ((admitFifo_ordinary_iff u s).1 ha)

end admission

/-- Settles O43: a refusal of the command is a refusal of its admission, and that is the first check that fails. -/
theorem fifoCommandAdmission : Obligations.FifoCommandAdmission := by
  intro i k u s hclass hwf
  simp only [ne_eq, exec_fifo_refused_iff hclass hwf]
  refine ⟨?_, ?_, fun hpass => ?_⟩
  · rintro rfl rfl
    exact admitFifo_lockOnInbound s
  · rintro rfl hk hirq
    exact admitFifo_unbracketed hk hirq
  · rw [admitFifo_eq_phase_checks hpass]
    refine ⟨fun hk hphase => ?_, fun hk hphase => ?_, fun hk hphase r => ?_, fun hk hphase r => ?_⟩
    · rw [if_pos ⟨hk, hphase⟩]
    · rw [if_neg (fun h => hk h.1), if_pos ⟨hk, hphase⟩]
    · simp [hk, hphase]
    · simp [hk, hphase]

/-! ## INIT (rule R70) -/

theorem badInitArgs_iff {c : Config} {size : Word16} {sv : Bool} :
    badInitArgs c size sv = true ↔ sv = false ∨ size.toNat = 0 ∨ c.maxSize < size.toNat := by
  simp [badInitArgs, or_assoc]

theorem setUnit_withResp (s : State) (u : UnitSel) (F : Fifo) (r : Option Response) :
    { s.setUnit u F with resp := r } = { s with resp := r }.setUnit u F := by cases u <;> rfl

section init
variable {u : UnitSel} {size : Word16} {sv : Bool} {s : State}

theorem exec_init (u : UnitSel) (size : Word16) (sv : Bool) (s : State) :
    exec (.init u size sv) s = execInit u size sv s := rfl

theorem exec_init_turned_away (h : ¬ ((u = .inbound → s.irqEn = false) ∧ (s.unit u).phase = .reset)) :
    Refuses (.init u size sv) s :=
  refuses_of_not_admitted rfl (wf_of_no_payload rfl) fun ha => h ((admitFifo_init_iff u s).1 ha)

theorem exec_init_badArgs (ha : admitFifo .init u s = none) (hbad : badInitArgs s.config size sv = true) :
    exec (.init u size sv) s =
      .next ({ s with resp := some (failResponse .config) }.setUnit u (initFailed (s.unit u))) := by
  rw [exec_init, execInit]
  refine (fifoCommand_eq (F := initFailed (s.unit u)) (r := failWith .config) ha ?_).trans ?_
  · rw [if_pos hbad]
  · rw [answer_failWith _ _ (by decide), setUnit_withResp]

theorem exec_init_goodArgs (ha : admitFifo .init u s = none) (hgood : ¬ badInitArgs s.config size sv = true) :
    exec (.init u size sv) s =
      .next ({ s with resp := some (okResponse 0) }.setUnit u (initialised (s.unit u) size.toNat)) := by
  rw [exec_init, execInit]
  refine (fifoCommand_eq (F := initialised (s.unit u) size.toNat) (r := success 0) ha ?_).trans ?_
  · rw [if_neg hgood]
  · rw [answer_of_fits _ _ (by decide), setUnit_withResp]
    rfl

end init

/-- Settles O18: not admitted, bad arguments, good arguments. -/
theorem initOutcome : Obligations.InitOutcome := by
  intro u size sv s
  refine ⟨exec_init_turned_away, fun hbracket hphase => ?_⟩
  have ha : admitFifo .init u s = none := (admitFifo_init_iff u s).2 ⟨hbracket, hphase⟩
  refine ⟨fun hbad => exec_init_badArgs ha (badInitArgs_iff.2 hbad), fun hsv hmin hmax => ?_⟩
  refine exec_init_goodArgs ha fun hbad => ?_
  obtain hsv' | hzero | hlarge := badInitArgs_iff.1 hbad
  · simp [hsv] at hsv'
  · omega
  · omega

/-! ## CLEAR (rule R71) -/

theorem exec_clear {u : UnitSel} {s : State} (h : s.mayUse u) :
    exec (.clear u) s = .next ({ s with resp := some (okResponse 0) }.setUnit u (cleared (s.unit u))) :=
  fifoCommand_ordinary_succeeds (body := fun F => some (cleared F, success 0)) h rfl (by decide)

theorem mayUse_setUnit {u : UnitSel} {s : State} {F : Fifo} (h : s.mayUse u) (hF : F.phase = (s.unit u).phase) :
    (s.setUnit u F).mayUse u := by
  obtain ⟨hbracket, hready⟩ := h
  exact ⟨by simpa using hbracket, by simpa [hF] using hready⟩

/-- A unit just cleared, with the answer to CLEAR on the port: clearing it again changes nothing. -/
theorem exec_clear_cleared {u : UnitSel} {s : State} (h : s.mayUse u) :
    exec (.clear u) ({ s with resp := some (okResponse 0) }.setUnit u (cleared (s.unit u))) =
      .next ({ s with resp := some (okResponse 0) }.setUnit u (cleared (s.unit u))) := by
  have hresp : ({ s with resp := some (okResponse 0) } : State).mayUse u := by cases u <;> exact h
  rw [exec_clear (mayUse_setUnit hresp (by cases u <;> rfl))]
  cases u <;> rfl

/-- Settles O19: CLEAR leaves the cleared unit, and is admitted on it again. -/
theorem clearEmptiesUnit : Obligations.ClearEmptiesUnit := by
  refine fun u s => ⟨fun hno => refuses_of_not_mayUse rfl (wf_of_no_payload rfl) hno, fun huse => ?_⟩
  refine ⟨_, exec_clear huse, rfl, ?_, ?_, fun a => ?_, exec_clear_cleared huse⟩
  · simp [emptyFlag]
  · simp [lockedFlag]
  · simp [slotByte]

/-! ## The status queries (rules R72 to R76) -/

/-- A query on a unit that may be used: its answer is the only change. -/
theorem fifoCommand_query {u : UnitSel} {s : State} {f : Fifo → Nat} (h : s.mayUse u) (hv : f (s.unit u) < 65536) :
    fifoCommand .ordinary u s (fun F => some (F, success (f F))) =
      .next { s with resp := some (okResponse (f (s.unit u))) } := by
  rw [fifoCommand_ordinary_succeeds h rfl hv, ← setUnit_withResp, setUnit_self]

theorem boolVal_lt (b : Bool) : boolVal b < 65536 := by cases b <;> decide

theorem boolVal_emptyFlag (F : Fifo) : boolVal (emptyFlag F) = if F.R = F.W then 1 else 0 := by
  simp [boolVal, emptyFlag]

theorem boolVal_lockedFlag (F : Fifo) : boolVal (lockedFlag F) = if F.L = none then 0 else 1 := by
  cases hL : F.L <;> simp [boolVal, lockedFlag, hL]

/-- The counts of a unit with legal cursors fit in the 16 bits of `val`. -/
theorem counts_fit {F : Fifo} (h : F.legal) : written F < 65536 ∧ readable F < 65536 ∧ usable F < 65536 := by
  obtain ⟨hrange, hsize⟩ := h
  have hw := written_lt hrange
  have hr := readable_lt hrange
  unfold usable
  omega

/-- Settles O20: each query answers its own value of the unit, which is a flag or a count that fits in `val`. -/
theorem queriesAnswer : Obligations.QueriesAnswer := by
  intro u s
  refine ⟨fun hno => ?_, fun huse => ⟨?_, ?_, fun hlegal => ?_⟩⟩
  · have refused {i : Instr} (hclass : fifoClass i = some (.ordinary, u)) (hp : i.payload? = none) : Refuses i s :=
      refuses_of_not_mayUse hclass (wf_of_no_payload hp) hno
    exact ⟨refused rfl rfl, refused rfl rfl, refused rfl rfl, refused rfl rfl, refused rfl rfl⟩
  · rw [← boolVal_emptyFlag]
    exact fifoCommand_query (f := fun F => boolVal (emptyFlag F)) huse (boolVal_lt _)
  · rw [← boolVal_lockedFlag]
    exact fifoCommand_query (f := fun F => boolVal (lockedFlag F)) huse (boolVal_lt _)
  · obtain ⟨hwritten, hreadable, husable⟩ := counts_fit hlegal
    exact ⟨fifoCommand_query (f := written) huse hwritten, fifoCommand_query (f := readable) huse hreadable,
      fifoCommand_query (f := usable) huse husable⟩

end Sys2Proof.Machine
end

section
/-! The family "write commands" (41_write.md): the per-byte path, WRITEB, WRITE and WRITESTR. -/

namespace Sys2Proof.Machine

open Sys2Proof

/-! ## One push (rule R78) -/

section push
variable {F : Fifo}

/-- Into a full unit: the read cursor moves on, and the lock cursor with it when it sits on the evicted slot. -/
theorem cursors_pushed_full (h : F.inRange) (hfull : written F = F.N - 1) (b : Byte) :
    (pushed F b).R = inc F F.R ∧ (pushed F b).L = if F.L = some F.R then some (inc F F.R) else F.L := by
  have hcollision := (collision_iff_full h).2 hfull
  simp [pushed_R, pushed_L, hcollision]

/-- Into a unit that is not full: the read cursor and the lock cursor stay. -/
theorem cursors_pushed_not_full (h : F.inRange) (hroom : written F ≠ F.N - 1) (b : Byte) :
    (pushed F b).R = F.R ∧ (pushed F b).L = F.L := by
  have hcollision := (collision_iff_full h).not.2 hroom
  simp [pushed_R, pushed_L, hcollision]

theorem slotByte_pushed_self (F : Fifo) (b : Byte) : slotByte (pushed F b) F.W = b := by simp [slotByte_pushed]

theorem slotByte_pushed_ne {a : Nat} (ha : a ≠ F.W) (b : Byte) : slotByte (pushed F b) a = slotByte F a := by
  rw [slotByte_pushed, if_neg ha]

end push

/-- Settles O15: the cursors by whether the unit is full, the counts by their own laws. -/
theorem pushStoresAdvancesEvicts : Obligations.PushStoresAdvancesEvicts := by
  intro F b h
  obtain ⟨-, -, hW, -⟩ := id h
  have hwritten := written_pushed h b
  refine ⟨pushed F b, push_eq hW b, pushed_W F b, pushed_N F b, pushed_phase F b, slotByte_pushed_self F b,
    fun a ha => slotByte_pushed_ne ha b, fun hfull => ?_, fun hroom => ?_,
    fun hL => readable_pushed_unlocked hL b, fun l hL => readable_pushed_locked h hL b⟩
  · obtain ⟨hR, hL⟩ := cursors_pushed_full h hfull b
    exact ⟨hR, hL, hwritten.trans (if_pos hfull)⟩
  · obtain ⟨hR, hL⟩ := cursors_pushed_not_full h hroom b
    exact ⟨hR, hL, hwritten.trans (if_neg hroom)⟩

/-! ## WRITEB (rule R79) -/

theorem exec_writeb {u : UnitSel} {s : State} (huse : s.mayUse u) (hW : (s.unit u).W < (s.unit u).N) (v : Byte) :
    exec (.writeb u v) s = .next ({ s with resp := some (okResponse 0) }.setUnit u (pushed (s.unit u) v)) := by
  show execWriteb u v s = _
  refine fifoCommand_ordinary_succeeds (F := pushed (s.unit u) v) (v := 0) huse ?_ (by decide)
  rw [push_eq hW, Option.map_some]

/-- Settles O21: not admitted, or one push. -/
theorem writebPushes : Obligations.WritebPushes := by
  refine fun u v s => ⟨fun hno => refuses_of_not_mayUse rfl (wf_of_no_payload rfl) hno, fun huse hrange => ?_⟩
  obtain ⟨-, -, hW, -⟩ := id hrange
  exact ⟨pushed (s.unit u) v, push_eq hW v, exec_writeb huse hW v, contents_pushed_eq_lastBytes hrange v,
    fun a ha => slotByte_pushed_ne ha v⟩

/-! ## The storage after a run of pushes (rules R39, R78) -/

/-- The slots of a run are the write cursor's and then those of the rest of the run. -/
theorem pushSlots_succ {F : Fifo} (hW : F.W < F.N) (b : Byte) (k : Nat) :
    pushSlots F (k + 1) = F.W :: pushSlots (pushed F b) k := by
  simp [pushSlots, List.range_succ_eq_map, inc, Nat.mod_eq_of_lt hW, Function.comp_def, Nat.add_assoc,
    Nat.add_comm 1]

/-- A run of pushes writes no slot but its own. -/
theorem slotByte_foldl_pushed_of_notMem {F : Fifo} (h : F.inRange) {bs : List Byte} {a : Nat}
    (ha : a ∉ pushSlots F bs.length) : slotByte (bs.foldl pushed F) a = slotByte F a := by
  induction bs generalizing F with
  | nil => rfl
  | cons b bs ih =>
    obtain ⟨-, -, hW, -⟩ := id h
    rw [List.length_cons, pushSlots_succ hW b, List.mem_cons, not_or] at ha
    obtain ⟨hne, hrest⟩ := ha
    rw [List.foldl_cons, ih (inRange_pushed h b) hrest, slotByte_pushed_ne hne]

/-! ## WRITE and WRITESTR (rules R80, R81) -/

/-- A payload of length `len` makes a well-formed record (rule R56). -/
theorem wf_of_payload {i : Instr} {len : Word16} {p : List Byte} (h : i.payload? = some (len, p))
    (hp : p.length = len.toNat) : i.wf := by simp [Instr.wf, h, hp]

/-- The ceiling leaves `k` payload bytes. -/
theorem length_take_pushCount {len : Word16} {p : List Byte} (hp : p.length = len.toNat) (c : Config) :
    (p.take (pushCount c len)).length = pushCount c len := by
  have hle : pushCount c len ≤ p.length := hp ▸ Nat.min_le_left ..
  rw [List.length_take, Nat.min_eq_left hle]

/-- A count of payload bytes fits in `val`. -/
theorem pushCount_lt (c : Config) (len : Word16) : pushCount c len < 65536 :=
  (Nat.min_le_left ..).trans_lt len.isLt

/-- The answer of a success: `val` is the result where that fits, else a free value, which is counted. -/
theorem answer_success_setUnit (s : State) (u : UnitSel) (F : Fifo) (n : Nat) :
    ∃ val fresh, (s.setUnit u F).answer (success n) =
        { s with resp := some { ok := true, err := .none, val := val, out := [] }, fresh := fresh }.setUnit u F ∧
      (n < 65536 → val.toNat = n ∧ fresh = s.fresh) := by
  by_cases hfits : n < 65536
  · refine ⟨BitVec.ofNat 16 n, s.fresh, ?_, fun _ => ⟨Nat.mod_eq_of_lt hfits, rfl⟩⟩
    rw [answer_of_fits _ _ hfits, setUnit_withResp]
    rfl
  · refine ⟨Config.unstatedVal s.fresh, s.fresh + 1, ?_, fun h => absurd h hfits⟩
    rw [State.answer, if_neg (show ¬ (success n).val < 2 ^ 16 from hfits)]
    cases u <;> rfl

section write
variable {u : UnitSel} {len : Word16} {p : List Byte} {s : State}

theorem exec_write (huse : s.mayUse u) (hrange : (s.unit u).inRange) (hp : p.length = len.toNat) :
    exec (.write u len p) s =
      .next ({ s with resp := some (okResponse (pushCount s.config len)) }.setUnit u
        ((p.take (pushCount s.config len)).foldl pushed (s.unit u))) := by
  show execWrite u len p s = _
  rw [execWrite, withPayload_eq hp]
  refine fifoCommand_ordinary_succeeds huse ?_ (pushCount_lt s.config len)
  rw [pushAll_eq hrange, Option.map_some]

theorem exec_writestr (huse : s.mayUse u) (hrange : (s.unit u).inRange) (hp : p.length = len.toNat) :
    ∃ val fresh, exec (.writestr u len p) s =
        .next ({ s with
          resp := some { ok := true, err := .none, val := val, out := [] }
          fresh := fresh
          }.setUnit u ((p.take (pushCount s.config len) ++ [0]).foldl pushed (s.unit u))) ∧
      (pushCount s.config len + 1 < 65536 → val.toNat = pushCount s.config len + 1 ∧ fresh = s.fresh) := by
  obtain ⟨val, fresh, hanswer, hfits⟩ := answer_success_setUnit s u
    ((p.take (pushCount s.config len) ++ [0]).foldl pushed (s.unit u)) (pushCount s.config len + 1)
  refine ⟨val, fresh, ?_, hfits⟩
  show execWritestr u len p s = _
  rw [execWritestr, withPayload_eq hp, ← hanswer]
  refine fifoCommand_eq (admitFifo_ordinary huse) ?_
  rw [pushAll_eq hrange, Option.map_some]

end write

/-- Settles O22: not admitted, or a run of pushes, whose length fits in `val`. -/
theorem writePushesPayload : Obligations.WritePushesPayload := by
  intro u len p s hp
  refine ⟨refuses_of_not_mayUse rfl (wf_of_payload rfl hp), fun huse hrange => ?_⟩
  refine ⟨_, pushAll_eq hrange _, exec_write huse hrange hp, contents_foldl_pushed hrange _, fun a ha => ?_⟩
  refine slotByte_foldl_pushed_of_notMem hrange ?_
  rwa [← pushCount, length_take_pushCount hp]

/-- Settles O23: as WRITE, with one byte more, so that the result may not fit in `val`. -/
theorem writestrPushesTerminated : Obligations.WritestrPushesTerminated := by
  intro u len p s hp
  refine ⟨refuses_of_not_mayUse rfl (wf_of_payload rfl hp), fun huse hrange => ?_⟩
  obtain ⟨val, fresh, hexec, hfits⟩ := exec_writestr huse hrange hp
  refine ⟨_, _, val, pushAll_eq hrange _, hexec, ?_, fun h => ?_, contents_foldl_pushed hrange _, fun a ha => ?_⟩
  · simp only [setUnit_fresh, pushCount]
  · rw [setUnit_fresh]
    exact hfits h
  · refine slotByte_foldl_pushed_of_notMem hrange ?_
    rwa [← pushCount, List.length_append, length_take_pushCount hp]

end Sys2Proof.Machine
end

section
/-! The family "read and peek" (42_read_peek.md): READ, READB, PEEKB and PEEKAT, and the round trip of a WRITE and a
READ. -/

namespace Sys2Proof.Machine

open Sys2Proof

/-! ## The bytes at the read cursor (rules R36, R84) -/

section heldBytes
variable {F : Fifo}

theorem contents_getElem? {i : Nat} (hi : i < written F) : (contents F)[i]? = some (slotByte F (ea F i)) := by
  have hlen : i < (contents F).length := by rwa [contents_length]
  rw [List.getElem?_eq_getElem hlen, contents_getElem]

/-- The oldest byte held stands in the slot of the read cursor; the others are what one step of that cursor leaves. -/
theorem contents_eq_cons (h : F.inRange) (hw : written F ≠ 0) :
    contents F = slotByte F F.R :: contents (advanceRead F 1) := by
  have hone : 1 ≤ written F := Nat.one_le_iff_ne_zero.2 hw
  obtain ⟨b, bs, hcons⟩ := List.exists_cons_of_length_pos (hone.trans_eq (contents_length F).symm)
  have hfirst : (contents F)[0]? = some (slotByte F F.R) := by
    obtain ⟨-, hR, -⟩ := id h
    rw [contents_getElem? hone, ea_zero hR]
  rw [contents_advanceRead h hone]
  rw [hcons] at hfirst ⊢
  cases hfirst
  rfl

theorem readRun_eq_take_contents (hN : 1 ≤ F.N) {n : Nat} (hn : n ≤ written F) :
    readRun F 0 n = some ((contents F).take n) := by
  rw [readRun_eq hN, run_eq_take_contents hn]

theorem ordered_of_unlocked (hL : F.L = none) : F.ordered := by
  intro l hl
  rw [hL] at hl
  cases hl

end heldBytes

/-! ## READ (rule R84) -/

section read
variable {u : UnitSel} {n : Word16} {s : State}

theorem exec_read_avail (huse : s.mayUse u) (h : (s.unit u).R = (s.unit u).W ∨ readable (s.unit u) < n.toNat) :
    exec (.read u n) s = .next { s with resp := some (failResponse .avail) } := by
  show execRead u n s = _
  exact fifoCommand_ordinary_avail huse (if_pos h)

theorem exec_read (huse : s.mayUse u) (hrange : (s.unit u).inRange) (hord : (s.unit u).ordered)
    (hne : (s.unit u).R ≠ (s.unit u).W) (hn : n.toNat ≤ readable (s.unit u)) :
    exec (.read u n) s =
      .next ({ s with
        resp := some { ok := true, err := .none, val := n, out := (contents (s.unit u)).take n.toNat }
        }.setUnit u (advanceRead (s.unit u) n.toNat)) := by
  have hheld : n.toNat ≤ written (s.unit u) := hn.trans (readable_le_written hord)
  have hlen : ((contents (s.unit u)).take n.toNat).length = n.toNat :=
    List.length_take_of_le (by rwa [contents_length])
  have hguard : ¬ ((s.unit u).R = (s.unit u).W ∨ readable (s.unit u) < n.toNat) :=
    not_or.2 ⟨hne, Nat.not_lt.2 hn⟩
  obtain ⟨hN, -⟩ := hrange
  show execRead u n s = _
  refine (fifoCommand_ordinary_answers huse (F := advanceRead (s.unit u) n.toNat)
    (r := successOut ((contents (s.unit u)).take n.toNat)) ?_ (hlen.trans_lt n.isLt)).trans ?_
  · rw [if_neg hguard, readRun_eq_take_contents hN hheld, Option.map_some]
  · simp [successOut, hlen]

end read

/-- Settles O24: not admitted, `AVAIL`, or an advance of the read cursor over the bytes answered. -/
theorem readTakesOldest : Obligations.ReadTakesOldest := by
  refine fun u n s => ⟨refuses_of_not_mayUse rfl (wf_of_no_payload rfl), fun huse hrange hord => ?_⟩
  refine ⟨exec_read_avail huse, fun hne hn => ?_⟩
  exact ⟨advanceRead (s.unit u) n.toNat, rfl, exec_read huse hrange hord hne hn,
    contents_advanceRead hrange (hn.trans (readable_le_written hord)), readable_advanceRead hrange hn⟩

/-! ## READB (rule R85) -/

section readb
variable {u : UnitSel} {s : State}

theorem byte_lt_65536 (b : Byte) : b.toNat < 65536 := b.isLt.trans (by decide)

theorem exec_readb_avail (huse : s.mayUse u) (h : readable (s.unit u) = 0) :
    exec (.readb u) s = .next { s with resp := some (failResponse .avail) } := by
  show execReadb u s = _
  exact fifoCommand_ordinary_avail huse (if_pos h)

theorem exec_readb (huse : s.mayUse u) (hR : (s.unit u).R < (s.unit u).N) (h : readable (s.unit u) ≠ 0) :
    exec (.readb u) s =
      .next ({ s with resp := some (okResponse (slotByte (s.unit u) (s.unit u).R).toNat) }.setUnit u
        (advanceRead (s.unit u) 1)) := by
  show execReadb u s = _
  refine fifoCommand_ordinary_succeeds huse ?_ (byte_lt_65536 _)
  rw [if_neg h, pop_eq hR, Option.map_some]

end readb

/-- Settles O25: not admitted, `AVAIL`, or the byte at the read cursor popped. A readable byte is a held byte because
the cursors are in order. -/
theorem readbPopsOldest : Obligations.ReadbPopsOldest := by
  refine fun u s => ⟨refuses_of_not_mayUse rfl (wf_of_no_payload rfl), fun huse hrange hord => ?_⟩
  refine ⟨exec_readb_avail huse, fun hne => ?_⟩
  have hheld : written (s.unit u) ≠ 0 := by
    have := readable_le_written hord
    omega
  obtain ⟨-, hR, -⟩ := id hrange
  exact ⟨_, _, advanceRead (s.unit u) 1, contents_eq_cons hrange hheld, rfl, rfl, exec_readb huse hR hne⟩

/-! ## PEEKB and PEEKAT (rules R86, R87) -/

section peek
variable {u : UnitSel} {idx : Word16} {s : State}

/-- A command that succeeds and leaves its unit as it was: its answer is the only change. -/
theorem fifoCommand_ordinary_succeeds_unchanged {body : Fifo → Option (Fifo × Reply)} {v : Nat} (huse : s.mayUse u)
    (hb : body (s.unit u) = some (s.unit u, success v)) (hv : v < 65536) :
    fifoCommand .ordinary u s body = .next { s with resp := some (okResponse v) } := by
  rw [fifoCommand_ordinary_succeeds huse hb hv, ← setUnit_withResp, setUnit_self]

theorem exec_peekat_avail (huse : s.mayUse u) (h : written (s.unit u) ≤ idx.toNat) :
    exec (.peekat u idx) s = .next { s with resp := some (failResponse .avail) } := by
  show execPeekat u idx s = _
  exact fifoCommand_ordinary_avail huse (if_pos h)

theorem exec_peekat (huse : s.mayUse u) (hN : 1 ≤ (s.unit u).N) (h : idx.toNat < written (s.unit u)) :
    exec (.peekat u idx) s =
      .next { s with resp := some (okResponse (slotByte (s.unit u) (ea (s.unit u) idx.toNat)).toNat) } := by
  show execPeekat u idx s = _
  refine fifoCommand_ordinary_succeeds_unchanged huse ?_ (byte_lt_65536 _)
  rw [if_neg (Nat.not_le.2 h), memRead_eq (ea_lt hN _), Option.map_some]

/-- PEEKB is PEEKAT at offset 0 (rule R66). -/
theorem exec_peekb_eq_peekat (hR : (s.unit u).R < (s.unit u).N) : exec (.peekb u) s = exec (.peekat u 0) s :=
  execPeekb_eq_execPeekat hR

end peek

/-- Settles O26: PEEKAT by whether the offset is below `written`, PEEKB as PEEKAT at offset 0. -/
theorem peeksShowHeldBytes : Obligations.PeeksShowHeldBytes := by
  refine fun u idx s => ⟨fun hno => ?_, fun huse hrange => ?_⟩
  · exact ⟨refuses_of_not_mayUse rfl (wf_of_no_payload rfl) hno, refuses_of_not_mayUse rfl (wf_of_no_payload rfl) hno⟩
  obtain ⟨hN, hR, -⟩ := hrange
  refine ⟨fun hempty => ?_, fun b hb => ?_, exec_peekat_avail huse, fun hidx => ?_⟩
  · exact (exec_peekb_eq_peekat hR).trans (exec_peekat_avail (idx := 0) huse hempty.le)
  · have hheld : 0 < written (s.unit u) := contents_length (s.unit u) ▸ (List.getElem?_eq_some_iff.1 hb).1
    rw [contents_getElem? hheld] at hb
    cases hb
    exact (exec_peekb_eq_peekat hR).trans (exec_peekat (idx := 0) huse hN hheld)
  · exact ⟨_, contents_getElem? hidx, exec_peekat huse hN hidx⟩

/-! ## WRITE and then READ (rules R80, R84) -/

theorem execAll_cons_of_next {i : Instr} {is : List Instr} {s t : State} (h : exec i s = .next t) :
    execAll (i :: is) s = execAll is t := by rw [execAll, h]

theorem contents_eq_nil {F : Fifo} (h : F.inRange) (hempty : F.R = F.W) : contents F = [] := by
  rw [← List.length_eq_zero_iff, contents_length, written_eq_zero h, hempty]

/-- A response on the port does not change who may use a unit. -/
theorem mayUse_withResp {u : UnitSel} {s : State} (h : s.mayUse u) (r : Option Response) :
    ({ s with resp := r } : State).mayUse u := by cases u <;> exact h

/-- Into an empty unit with room for all of them, a run of pushes puts exactly its bytes. -/
theorem contents_foldl_pushed_empty {F : Fifo} (h : F.inRange) (hempty : F.R = F.W) {bs : List Byte}
    (hroom : bs.length ≤ F.N - 1) : contents (bs.foldl pushed F) = bs := by
  rw [contents_foldl_pushed h, contents_eq_nil h hempty, List.nil_append, lastBytes_of_length_le hroom]

/-- Within the ceiling, WRITE pushes its whole payload. -/
theorem exec_write_all {u : UnitSel} {s : State} {len : Word16} {p : List Byte} (huse : s.mayUse u)
    (hrange : (s.unit u).inRange) (hp : p.length = len.toNat) (hmax : len.toNat ≤ s.config.maxSize) :
    exec (.write u len p) s =
      .next ({ s with resp := some (okResponse len.toNat) }.setUnit u (p.foldl pushed (s.unit u))) := by
  have hcount : pushCount s.config len = len.toNat := Nat.min_eq_left hmax
  rw [exec_write huse hrange hp, hcount, ← hp, List.take_length]

/-- READ of a non-empty unlocked unit's whole depth answers all it holds and leaves nothing. -/
theorem exec_read_all {u : UnitSel} {s : State} {len : Word16} (huse : s.mayUse u) (hrange : (s.unit u).inRange)
    (hL : (s.unit u).L = none) (hlen : (contents (s.unit u)).length = len.toNat) (hpos : 1 ≤ len.toNat) :
    ∃ t, exec (.read u len) s = .next t ∧
      t.resp = some { ok := true, err := .none, val := len, out := contents (s.unit u) } ∧
      contents (t.unit u) = [] := by
  have hwritten : written (s.unit u) = len.toNat := by rw [← hlen, contents_length]
  have hne : (s.unit u).R ≠ (s.unit u).W := (written_eq_zero hrange).not.1 (by omega)
  have hread := exec_read huse hrange (ordered_of_unlocked hL) hne (by rw [readable_unlocked hL, hwritten])
  rw [List.take_of_length_le hlen.le] at hread
  refine ⟨_, hread, by rw [setUnit_resp], ?_⟩
  rw [setUnit_unit, contents_advanceRead hrange hwritten.ge, List.drop_eq_nil_of_le hlen.le]

/-- Settles O55: the unit holds exactly the payload in between. -/
theorem writeThenReadRoundTrip : Obligations.WriteThenReadRoundTrip := by
  intro u s len p huse hrange hL hempty hp hpos hroom hmax
  generalize hF : p.foldl pushed (s.unit u) = F
  have hcontents : contents F = p := hF ▸ contents_foldl_pushed_empty hrange hempty (hp ▸ hroom)
  have hrangeF : F.inRange := hF ▸ foldl_pushed_inRange hrange p
  have hunlocked : F.L = none := hF ▸ foldl_pushed_unlocked hL p
  have hphase : F.phase = (s.unit u).phase := hF ▸ foldl_pushed_phase _ p
  have hwrite := exec_write_all huse hrange hp hmax
  rw [hF] at hwrite
  obtain ⟨t, hread, hresp, hnothing⟩ := exec_read_all (len := len)
    (s := { s with resp := some (okResponse len.toNat) }.setUnit u F) (u := u)
    (mayUse_setUnit (mayUse_withResp huse _) (by cases u <;> exact hphase)) (by rwa [setUnit_unit])
    (by rwa [setUnit_unit]) (by rw [setUnit_unit, hcontents, hp]) hpos
  rw [setUnit_unit, hcontents] at hresp
  refine ⟨t, ?_, hresp, hnothing⟩
  rw [execAll_cons_of_next hwrite, execAll_cons_of_next hread, execAll]

end Sys2Proof.Machine
end

section
/-! The family "delete and update" (43_delete_update.md): DELETE, DELETEB, UPDATE, UPDATEAT, UPDATEB and UPDATEBAT. In
each pair the shorter form is the longer one at length 1 or offset 0 (rule R66), so its rules are read off that one. -/

namespace Sys2Proof.Machine

open Sys2Proof

/-! ## DELETE and DELETEB (rules R88, R89) -/

section delete
variable {u : UnitSel} {n : Word16} {s : State}

theorem exec_delete_avail (huse : s.mayUse u) (h : readable (s.unit u) < n.toNat) :
    exec (.delete u n) s = .next { s with resp := some (failResponse .avail) } := by
  show execDelete u n s = _
  exact fifoCommand_ordinary_avail huse (if_pos h)

theorem exec_delete (huse : s.mayUse u) (h : n.toNat ≤ readable (s.unit u)) :
    exec (.delete u n) s =
      .next ({ s with resp := some (okResponse 0) }.setUnit u (advanceRead (s.unit u) n.toNat)) := by
  show execDelete u n s = _
  exact fifoCommand_ordinary_succeeds huse (if_neg (Nat.not_lt.2 h)) (by decide)

/-- DELETEB is DELETE of one byte (rule R66). -/
theorem exec_deleteb_eq_delete (u : UnitSel) (s : State) : exec (.deleteb u) s = exec (.delete u 1) s :=
  execDeleteb_eq_execDelete u s

end delete

/-- Settles O27: not admitted, `AVAIL`, or an advance of the read cursor, over bytes the unit holds because the cursors
are in order. -/
theorem deletesDropOldest : Obligations.DeletesDropOldest := by
  refine fun u n s => ⟨fun hno => ?_, fun huse => ?_⟩
  · exact ⟨refuses_of_not_mayUse rfl (wf_of_no_payload rfl) hno, refuses_of_not_mayUse rfl (wf_of_no_payload rfl) hno⟩
  refine ⟨exec_delete_avail huse, exec_delete huse, fun hempty => ?_, fun hne => ?_, fun hrange hord hn => ?_⟩
  · exact (exec_deleteb_eq_delete u s).trans (exec_delete_avail huse (hempty.trans_lt Nat.one_pos))
  · exact (exec_deleteb_eq_delete u s).trans (exec_delete huse (Nat.one_le_iff_ne_zero.2 hne))
  · exact contents_advanceRead hrange (hn.trans (readable_le_written hord))

/-! ## The storage after an update (rules R39, R90 to R93) -/

section update
variable {F : Fifo}

/-- An update writes no slot but those of its offsets. -/
theorem slotByte_setRun_of_notMem {i a : Nat} {bs : List Byte} (ha : a ∉ updateSlots F i bs.length) :
    slotByte { F with mem := setRun F i bs } a = slotByte F a :=
  slotByte_setRun_ne F i bs fun j hj he => ha (List.mem_map.2 ⟨j, List.mem_range.2 hj, he.symm⟩)

theorem updateSlots_one (F : Fifo) (i : Nat) : updateSlots F i 1 = [ea F i] := rfl

/-- An update of one held byte replaces the byte at its offset. -/
theorem contents_setRun_singleton (h : F.inRange) {i : Nat} (hi : i < written F) (v : Byte) :
    contents { F with mem := setRun F i [v] } = (contents F).set i v := by
  have hlen : i < (contents F).length := by rwa [contents_length]
  rw [contents_setRun h (bs := [v]) hi, List.set_eq_take_append_cons_drop, if_pos hlen, List.append_assoc]
  rfl

end update

/-! ## UPDATE and UPDATEAT (rules R90, R91) -/

section updateat
variable {u : UnitSel} {idx len : Word16} {p : List Byte} {s : State}

theorem exec_updateat_avail (huse : s.mayUse u) (hp : p.length = len.toNat)
    (h : readable (s.unit u) < idx.toNat + len.toNat) :
    exec (.updateat u idx len p) s = .next { s with resp := some (failResponse .avail) } := by
  show execUpdateat u idx len p s = _
  rw [execUpdateat, withPayload_eq hp]
  exact fifoCommand_ordinary_avail huse (if_pos h)

theorem exec_updateat (huse : s.mayUse u) (hN : 1 ≤ (s.unit u).N) (hp : p.length = len.toNat)
    (h : idx.toNat + len.toNat ≤ readable (s.unit u)) :
    exec (.updateat u idx len p) s =
      .next ({ s with resp := some (okResponse 0) }.setUnit u
        { s.unit u with mem := setRun (s.unit u) idx.toNat p }) := by
  show execUpdateat u idx len p s = _
  rw [execUpdateat, withPayload_eq hp]
  refine fifoCommand_ordinary_succeeds huse ?_ (by decide)
  rw [if_neg (Nat.not_lt.2 h), writeRun_eq hN, Option.map_some]

/-- UPDATE is UPDATEAT at offset 0 (rule R66). -/
theorem exec_update_eq_updateat (u : UnitSel) (len : Word16) (p : List Byte) (s : State) :
    exec (.update u len p) s = exec (.updateat u 0 len p) s := execUpdate_eq_execUpdateat u len p s

/-- Inside the committed bytes, UPDATEAT replaces the bytes from its offset on, and writes no other slot. -/
theorem updateat_overwrites (huse : s.mayUse u) (hrange : (s.unit u).inRange) (hord : (s.unit u).ordered)
    (hp : p.length = len.toNat) (h : idx.toNat + len.toNat ≤ readable (s.unit u)) :
    ∃ m, exec (.updateat u idx len p) s =
        .next ({ s with resp := some (okResponse 0) }.setUnit u { s.unit u with mem := m }) ∧
      contents { s.unit u with mem := m } =
        (contents (s.unit u)).take idx.toNat ++ p ++ (contents (s.unit u)).drop (idx.toNat + len.toNat) ∧
      ∀ a, a ∉ updateSlots (s.unit u) idx.toNat len.toNat →
        slotByte { s.unit u with mem := m } a = slotByte (s.unit u) a := by
  have hheld := h.trans (readable_le_written hord)
  obtain ⟨hN, -⟩ := id hrange
  rw [← hp] at hheld ⊢
  exact ⟨_, exec_updateat huse hN hp h, contents_setRun hrange hheld, fun a ha => slotByte_setRun_of_notMem ha⟩

end updateat

/-- Settles O28: UPDATEAT by whether its offsets are all committed, UPDATE as UPDATEAT at offset 0. -/
theorem updatesOverwriteCommitted : Obligations.UpdatesOverwriteCommitted := by
  refine fun u idx len p s hp => ⟨fun hno => ?_, fun huse hrange hord => ?_⟩
  · exact ⟨refuses_of_not_mayUse rfl (wf_of_payload rfl hp) hno, refuses_of_not_mayUse rfl (wf_of_payload rfl hp) hno⟩
  have hzero : (0 : Word16).toNat + len.toNat = len.toNat := Nat.zero_add _
  rw [exec_update_eq_updateat]
  refine ⟨fun h => exec_updateat_avail huse hp (h.trans_eq hzero.symm), fun h => ?_, exec_updateat_avail huse hp,
    updateat_overwrites huse hrange hord hp⟩
  have hoverwrites := updateat_overwrites (idx := 0) huse hrange hord hp (hzero.trans_le h)
  rwa [hzero] at hoverwrites

/-! ## UPDATEB and UPDATEBAT (rules R92, R93) -/

section updatebat
variable {u : UnitSel} {idx : Word16} {v : Byte} {s : State}

theorem exec_updatebat_avail (huse : s.mayUse u) (h : readable (s.unit u) ≤ idx.toNat) :
    exec (.updatebat u idx v) s = .next { s with resp := some (failResponse .avail) } := by
  show execUpdatebat u idx v s = _
  exact fifoCommand_ordinary_avail huse (if_pos h)

/-- A byte written at one offset is a run of length 1. -/
theorem exec_updatebat (huse : s.mayUse u) (hN : 1 ≤ (s.unit u).N) (h : idx.toNat < readable (s.unit u)) :
    exec (.updatebat u idx v) s =
      .next ({ s with resp := some (okResponse 0) }.setUnit u
        { s.unit u with mem := setRun (s.unit u) idx.toNat [v] }) := by
  show execUpdatebat u idx v s = _
  refine fifoCommand_ordinary_succeeds huse ?_ (by decide)
  rw [if_neg (Nat.not_le.2 h), memWrite_eq (ea_lt hN _), Option.map_some]
  rfl

/-- UPDATEB is UPDATEBAT at offset 0 (rule R66). -/
theorem exec_updateb_eq_updatebat (hR : (s.unit u).R < (s.unit u).N) (v : Byte) :
    exec (.updateb u v) s = exec (.updatebat u 0 v) s := execUpdateb_eq_execUpdatebat hR v

/-- On a committed byte, UPDATEBAT replaces it, and writes no other slot. -/
theorem updatebat_overwrites (huse : s.mayUse u) (hrange : (s.unit u).inRange) (hord : (s.unit u).ordered)
    (h : idx.toNat < readable (s.unit u)) :
    ∃ m, exec (.updatebat u idx v) s =
        .next ({ s with resp := some (okResponse 0) }.setUnit u { s.unit u with mem := m }) ∧
      contents { s.unit u with mem := m } = (contents (s.unit u)).set idx.toNat v ∧
      ∀ a, a ≠ ea (s.unit u) idx.toNat → slotByte { s.unit u with mem := m } a = slotByte (s.unit u) a := by
  obtain ⟨hN, -⟩ := id hrange
  refine ⟨_, exec_updatebat huse hN h,
    contents_setRun_singleton hrange (h.trans_le (readable_le_written hord)) v, fun a ha => ?_⟩
  refine slotByte_setRun_of_notMem ?_
  rwa [List.length_singleton, updateSlots_one, List.mem_singleton]

end updatebat

/-- Settles O29: UPDATEBAT by whether its offset is committed, UPDATEB as UPDATEBAT at offset 0, whose slot is the read
cursor's. -/
theorem byteUpdatesOverwriteCommitted : Obligations.ByteUpdatesOverwriteCommitted := by
  refine fun u idx v s => ⟨fun hno => ?_, fun huse hrange hord => ?_⟩
  · exact ⟨refuses_of_not_mayUse rfl (wf_of_no_payload rfl) hno, refuses_of_not_mayUse rfl (wf_of_no_payload rfl) hno⟩
  obtain ⟨-, hR, -⟩ := id hrange
  rw [exec_updateb_eq_updatebat hR]
  refine ⟨fun hempty => exec_updatebat_avail huse hempty.le, fun hne => ?_, exec_updatebat_avail huse,
    updatebat_overwrites huse hrange hord⟩
  have hoverwrites := updatebat_overwrites (idx := 0) (v := v) huse hrange hord (Nat.pos_of_ne_zero hne)
  rwa [show ea (s.unit u) (0 : Word16).toNat = (s.unit u).R from ea_zero hR] at hoverwrites

end Sys2Proof.Machine
end

section
/-! The family "transaction commands" (44_lock.md): LOCK, UNLOCK and DISCARD, what a transaction that fits commits or
rolls back, and what is evicted when it does not fit. -/

namespace Sys2Proof.Machine

open Sys2Proof

/-! ## Marking, committing and rolling back (rules R95 to R97) -/

section counts
variable (F : Fifo)

/-- LOCK makes every byte held a committed one. -/
theorem readable_locked_eq_written : readable (locked F) = written F := rfl

theorem contents_locked : contents (locked F) = contents F := rfl

theorem committed_locked : committed (locked F) = contents F := rfl

/-- The lock cursor of a unit just locked is its write cursor, so the cursors are in order. -/
theorem ordered_locked : (locked F).ordered := by
  rintro l ⟨⟩
  show span F F.R F.W + span F F.W F.W = span F F.R F.W
  rw [span_self, Nat.add_zero]

/-- UNLOCK commits every byte held. -/
theorem readable_unlocked_eq_written : readable (unlocked F) = written F := rfl

theorem committed_unlocked_eq_contents : committed (unlocked F) = contents F := rfl

theorem slotByte_discarded (a : Nat) : slotByte (discarded F) a = slotByte F a := by
  cases hL : F.L <;> simp [slotByte, discarded, hL]

/-- DISCARD keeps the committed bytes and no others. -/
theorem written_discarded : written (discarded F) = readable F := by simp [written, readable, span]

theorem contents_discarded : contents (discarded F) = committed F := by
  simp [contents, committed, written_discarded, ea, slotByte_discarded]

theorem readable_discarded : readable (discarded F) = readable F := by
  rw [readable_unlocked (discarded_L F), written_discarded]

end counts

section cursors
variable {F : Fifo}

theorem inRange_locked (h : F.inRange) : (locked F).inRange := by
  obtain ⟨hN, hR, hW, -⟩ := h
  refine ⟨hN, hR, hW, ?_⟩
  rintro l ⟨⟩
  exact hW

theorem discarded_of_unlocked (hL : F.L = none) : discarded F = F := by rw [discarded, hL]

theorem discarded_of_locked {l : Nat} (hL : F.L = some l) : discarded F = { F with W := l, L := none } := by
  rw [discarded, hL]

end cursors

/-! ## LOCK, UNLOCK and DISCARD (rules R69, R95 to R97, R136) -/

section transaction
variable {i : Instr} {s : State}

theorem exec_transaction_inbound (hclass : fifoClass i = some (.transaction, .inbound)) (hwf : i.wf) :
    exec i s = .refused .lockOnInbound :=
  (exec_fifo_refused_iff hclass hwf).2 (admitFifo_lockOnInbound s)

theorem exec_transaction_not_ready (hclass : fifoClass i = some (.transaction, .outbound)) (hwf : i.wf)
    (h : s.outb.phase ≠ .ready) : exec i s = .refused .notReady := by
  rw [exec_fifo_refused_iff hclass hwf, admitFifo_eq_phase_checks (u := .outbound) nofun,
    if_neg (fun hinit => nomatch hinit.1), if_pos ⟨nofun, h⟩]

theorem exec_lock (h : s.outb.phase = .ready) :
    exec (.lock .outbound) s = .next { s with outb := locked s.outb, resp := some (okResponse 0) } :=
  fifoCommand_transaction_succeeds (body := fun F => some (locked F, success 0)) h rfl (by decide)

theorem exec_unlock (h : s.outb.phase = .ready) :
    exec (.unlock .outbound) s = .next { s with outb := unlocked s.outb, resp := some (okResponse 0) } :=
  fifoCommand_transaction_succeeds (body := fun F => some (unlocked F, success 0)) h rfl (by decide)

theorem exec_discard (h : s.outb.phase = .ready) :
    exec (.discard .outbound) s = .next { s with outb := discarded s.outb, resp := some (okResponse 0) } :=
  fifoCommand_transaction_succeeds (body := fun F => some (discarded F, success 0)) h rfl (by decide)

end transaction

/-- Settles O30: refused on `IN`, not `READY`, or the unit locked. -/
theorem lockMarksWritePosition : Obligations.LockMarksWritePosition := fun s =>
  ⟨exec_transaction_inbound rfl (wf_of_no_payload rfl), exec_transaction_not_ready rfl (wf_of_no_payload rfl),
    fun hready => ⟨exec_lock hready, readable_locked_eq_written s.outb⟩⟩

/-- Settles O31: refused on `IN`, not `READY`, or the unit unlocked. -/
theorem unlockCommits : Obligations.UnlockCommits := fun s =>
  ⟨exec_transaction_inbound rfl (wf_of_no_payload rfl), exec_transaction_not_ready rfl (wf_of_no_payload rfl),
    fun hready => ⟨exec_unlock hready, readable_unlocked_eq_written s.outb⟩⟩

/-- Settles O32: refused on `IN`, not `READY`, or the unit rolled back, which is the unit itself when it is unlocked. -/
theorem discardRollsBack : Obligations.DiscardRollsBack := by
  refine fun s => ⟨exec_transaction_inbound rfl (wf_of_no_payload rfl),
    exec_transaction_not_ready rfl (wf_of_no_payload rfl), fun hready => ⟨fun hL => ?_, fun l hL => ?_⟩⟩
  · rw [exec_discard hready, discarded_of_unlocked hL]
  · rw [exec_discard hready, ← discarded_of_locked hL]
    exact ⟨rfl, written_discarded s.outb, contents_discarded s.outb⟩

/-! ## Runs of pushes into a locked unit (rules R78, R99) -/

section pushes
variable {F : Fifo}

theorem pushed_locked (hL : F.L ≠ none) (b : Byte) : (pushed F b).L ≠ none := by
  rw [pushed_L]
  split
  · exact Option.some_ne_none _
  · exact hL

theorem foldl_pushed_locked (hL : F.L ≠ none) (bs : List Byte) : (bs.foldl pushed F).L ≠ none := by
  induction bs generalizing F with
  | nil => exact hL
  | cons b bs ih => exact ih (pushed_locked hL b)

/-- The depth grows by one a push, up to `N - 1`. -/
theorem written_foldl_pushed (h : F.inRange) (bs : List Byte) :
    written (bs.foldl pushed F) = min (written F + bs.length) (F.N - 1) := by
  rw [← contents_length, contents_foldl_pushed h, lastBytes, List.length_drop, List.length_append, contents_length]
  omega

/-- A push that does not fit takes one committed byte, as long as there are some; the others take none. -/
theorem readable_foldl_pushed_locked (h : F.inRange) (hL : F.L ≠ none) (bs : List Byte) :
    readable (bs.foldl pushed F) = readable F - (written F + bs.length - (F.N - 1)) := by
  induction bs generalizing F with
  | nil =>
    have hle := written_le_usable h
    simp [Nat.sub_eq_zero_of_le hle]
  | cons b bs ih =>
    obtain ⟨l, hl⟩ := Option.ne_none_iff_exists'.1 hL
    have hle := written_le_usable h
    rw [List.foldl_cons, ih (inRange_pushed h b) (pushed_locked hL b), readable_pushed_locked h hl,
      written_pushed h, pushed_N, List.length_cons]
    split <;> omega

/-- The pushes that do not fit take the oldest committed bytes; the order of the others is kept. Both the bytes held
and the committed ones, their beginning, lose the same bytes. -/
theorem committed_foldl_pushed_locked (h : F.inRange) (ho : F.ordered) (hL : F.L ≠ none) (bs : List Byte) :
    committed (bs.foldl pushed F) = (committed F).drop (written F + bs.length - (F.N - 1)) := by
  have hle : readable F ≤ (contents F).length := contents_length F ▸ readable_le_written ho
  calc committed (bs.foldl pushed F)
      = (lastBytes (F.N - 1) (contents F ++ bs)).take (readable F - (written F + bs.length - (F.N - 1))) := by
        rw [committed_eq_take (foldl_pushed_ordered h ho bs), contents_foldl_pushed h,
          readable_foldl_pushed_locked h hL]
    _ = ((contents F ++ bs).take (readable F)).drop (written F + bs.length - (F.N - 1)) := by
        rw [lastBytes, List.length_append, contents_length, List.drop_take]
    _ = (committed F).drop (written F + bs.length - (F.N - 1)) := by
        rw [List.take_append_of_le_length hle, ← committed_eq_take ho]

/-- Pushes that all fit leave the lock cursor where it is. -/
theorem foldl_pushed_L_of_room (h : F.inRange) {bs : List Byte} (hroom : written F + bs.length ≤ F.N - 1) :
    (bs.foldl pushed F).L = F.L := by
  induction bs generalizing F with
  | nil => rfl
  | cons b bs ih =>
    rw [List.length_cons] at hroom
    have hfits : written F ≠ F.N - 1 := by omega
    obtain ⟨-, hkept⟩ := cursors_pushed_not_full h hfits b
    rw [List.foldl_cons, ih (inRange_pushed h b) ?_, hkept]
    rw [written_pushed h, if_neg hfits, pushed_N]
    omega

end pushes

/-- Settles O54: the depth and the committed bytes each from their own law of a run of pushes. -/
theorem overflowEvictsCommittedFirst : Obligations.OverflowEvictsCommittedFirst := fun F bs h ho hL =>
  ⟨bs.foldl pushed F, pushAll_eq h bs, foldl_pushed_locked hL bs, foldl_pushed_inRange h bs,
    foldl_pushed_ordered h ho bs, committed_foldl_pushed_locked h ho hL bs, written_foldl_pushed h bs⟩

/-! ## A transaction that fits (rule R98) -/

/-- The pushed bytes are tentative: the unit holds them behind its old bytes, which are the committed ones. -/
theorem tentative_of_room {F : Fifo} {bs : List Byte} (h : F.inRange) (hroom : written F + bs.length ≤ F.N - 1) :
    readable (bs.foldl pushed (locked F)) = written F ∧
      written (bs.foldl pushed (locked F)) = written F + bs.length ∧
      committed (bs.foldl pushed (locked F)) = contents F ∧
      contents (bs.foldl pushed (locked F)) = contents F ++ bs ∧
      eff (bs.foldl pushed (locked F)) = F.W := by
  have hrange := inRange_locked h
  have hlocked : (locked F).L ≠ none := Option.some_ne_none _
  have hnone : written (locked F) + bs.length - ((locked F).N - 1) = 0 := Nat.sub_eq_zero_of_le hroom
  refine ⟨?_, ?_, ?_, ?_, eff_some (foldl_pushed_L_of_room hrange hroom)⟩
  · rw [readable_foldl_pushed_locked hrange hlocked, hnone, readable_locked_eq_written, Nat.sub_zero]
  · rw [written_foldl_pushed hrange]
    exact Nat.min_eq_left hroom
  · rw [committed_foldl_pushed_locked hrange (ordered_locked F) hlocked, hnone, committed_locked, List.drop_zero]
  · rw [contents_foldl_pushed hrange, contents_locked]
    exact lastBytes_of_length_le (by rwa [List.length_append, contents_length])

/-- LOCK and then a WRITE within the ceiling: a run of pushes into the locked unit. -/
theorem execAll_lock_write {s : State} {len : Word16} {p : List Byte} (hready : s.outb.phase = .ready)
    (hrange : s.outb.inRange) (hp : p.length = len.toNat) (hmax : len.toNat ≤ s.config.maxSize) :
    execAll [.lock .outbound, .write .outbound len p] s =
      .next { s with outb := p.foldl pushed (locked s.outb), resp := some (okResponse len.toNat) } := by
  have huse : ({ s with outb := locked s.outb, resp := some (okResponse 0) } : State).mayUse .outbound :=
    ⟨nofun, hready⟩
  rw [execAll_cons_of_next (exec_lock hready),
    execAll_cons_of_next (exec_write_all huse (inRange_locked hrange) hp hmax)]
  rfl

/-- Settles O53: after LOCK and WRITE the new bytes are tentative; UNLOCK commits what is held, DISCARD leaves what was
committed. -/
theorem transactionCommitsOrRollsBack : Obligations.TransactionCommitsOrRollsBack := by
  intro s len p hready hrange hL hp hmax hroom
  rw [← hp] at hroom
  obtain ⟨hreadable, hwritten, hcommitted, hcontents, heff⟩ := tentative_of_room hrange hroom
  rw [hp] at hwritten
  have hphase : (p.foldl pushed (locked s.outb)).phase = .ready := by rwa [foldl_pushed_phase]
  rw [readable_unlocked hL]
  refine ⟨_, execAll_lock_write hready hrange hp hmax, hreadable, hwritten, hcommitted, hcontents,
    ⟨_, exec_unlock hphase, ?_, ?_⟩, ⟨_, exec_discard hphase, ?_, ?_, ?_, ?_, ?_⟩⟩
  · rw [readable_unlocked_eq_written, hwritten]
  · rw [committed_unlocked_eq_contents, hcontents]
  · rw [written_discarded, hreadable]
  · rw [readable_discarded, hreadable]
  · rw [discarded_W, heff]
  · exact discarded_L _
  · rw [contents_discarded, hcommitted]

end Sys2Proof.Machine
end

section
/-! The family "channel commands" (45_channel.md): their admission, CH_INIT, the interrupt mask, the transmit sink, the
four bracketed commands, the producer port, and the way of received bytes through `IN` into `OUT`. -/

namespace Sys2Proof.Machine

open Sys2Proof

/-! ## Admission of the channel commands (rule R100) -/

section admission
variable {i : Instr} {k : ChannelKind} {s : State}

/-- CH_INIT, check 1: it comes before the phases are looked at. -/
theorem admitChannel_init_unbracketed (hirq : s.irqEn = true) : admitChannel .init s = some .unbracketedInbound := by
  simp [admitChannel, hirq]

/-- CH_INIT, check 2. -/
theorem admitChannel_init_reInit (hirq : s.irqEn = false)
    (hphase : s.chPhase ≠ .reset ∨ s.inb.phase ≠ .reset ∨ s.outb.phase ≠ .reset) :
    admitChannel .init s = some .reInit := by
  rw [admitChannel, if_neg (by simp [hirq]), if_pos hphase]

theorem admitChannel_ordinary_not_ready (h : s.chPhase ≠ .ready) : admitChannel .ordinary s = some .notReady := by
  rw [admitChannel, if_pos h]

/-- A well-formed channel command is refused exactly as its admission says. -/
theorem exec_channel_refused_iff (hclass : channelClass i = some k) (hwf : i.wf) {r : Refusal} :
    exec i s = .refused r ↔ admitChannel k s = some r := by
  cases exec_form i s with
  | fifo _ hclass' _ => cases (channelClass_of_fifoClass hclass').symm.trans hclass
  | channel hexec hclass' _ =>
    cases hclass.symm.trans hclass'
    rw [hexec, if_pos hwf, channelCommand_refused]

/-- A channel command that admission lets through is not refused. -/
theorem exec_channel_not_refused (hclass : channelClass i = some k) (hwf : i.wf) (h : admitChannel k s = none)
    (r : Refusal) : exec i s ≠ .refused r := by
  rw [ne_eq, exec_channel_refused_iff hclass hwf, h]
  exact nofun

/-- The seven commands that ask for a `READY` channel, on one that is not. -/
theorem exec_channel_not_ready (hclass : channelClass i = some .ordinary) (hwf : i.wf) (h : s.chPhase ≠ .ready) :
    exec i s = .refused .notReady :=
  (exec_channel_refused_iff hclass hwf).2 (admitChannel_ordinary_not_ready h)

end admission

/-- Settles O44: a refusal of the command is a refusal of its admission, and that is the first check that fails. -/
theorem channelCommandAdmission : Obligations.ChannelCommandAdmission := by
  refine fun i k s hclass hwf => ⟨?_, ?_, ?_, ?_, ?_, ?_⟩
  · rintro rfl
    exact exec_channel_not_refused hclass hwf (admitChannel_irq s)
  · rintro rfl hirq
    exact (exec_channel_refused_iff hclass hwf).2 (admitChannel_init_unbracketed hirq)
  · rintro rfl hirq hphase
    exact (exec_channel_refused_iff hclass hwf).2 (admitChannel_init_reInit hirq hphase)
  · rintro rfl hirq hch hin hout
    exact exec_channel_not_refused hclass hwf ((admitChannel_init_iff s).2 ⟨hirq, hch, hin, hout⟩)
  · rintro rfl hch
    exact exec_channel_not_ready hclass hwf hch
  · rintro rfl hch
    exact exec_channel_not_refused hclass hwf ((admitChannel_ordinary_iff s).2 hch)

/-! ## CH_INIT (rule R102) -/

section chInit
variable {sizeIn sizeOut : Word16} {svIn svOut : Bool} {s : State}

theorem exec_chInit_turned_away (h : admitChannel .init s ≠ none) :
    Refuses (.chInit sizeIn svIn sizeOut svOut) s := by
  obtain ⟨r, hr⟩ := Option.ne_none_iff_exists'.1 h
  exact ⟨r, (exec_channel_refused_iff rfl (wf_of_no_payload rfl)).2 hr⟩

/-- The arguments of one unit, or of the other, make both units `FAILED`. -/
theorem exec_chInit_badArgs (ha : admitChannel .init s = none)
    (hbad : badInitArgs s.config sizeIn svIn = true ∨ badInitArgs s.config sizeOut svOut = true) :
    exec (.chInit sizeIn svIn sizeOut svOut) s =
      .next { s with
        inb := initFailed s.inb, outb := initFailed s.outb, chPhase := .failed
        resp := some (failResponse .config) } := by
  show execChInit sizeIn svIn sizeOut svOut s = _
  rw [execChInit, channelCommand_eq ha (if_pos (Bool.or_eq_true_iff.2 hbad)), answer_failWith _ _ (by decide)]

theorem exec_chInit_goodArgs (ha : admitChannel .init s = none) (hin : ¬ badInitArgs s.config sizeIn svIn = true)
    (hout : ¬ badInitArgs s.config sizeOut svOut = true) :
    exec (.chInit sizeIn svIn sizeOut svOut) s =
      .next { s with
        inb := initialised s.inb sizeIn.toNat, outb := initialised s.outb sizeOut.toNat, chPhase := .ready
        resp := some (okResponse 0) } := by
  have hgood : ¬ (badInitArgs s.config sizeIn svIn || badInitArgs s.config sizeOut svOut) = true :=
    fun h => (Bool.or_eq_true_iff.1 h).elim hin hout
  show execChInit sizeIn svIn sizeOut svOut s = _
  rw [execChInit, channelCommand_eq ha (if_neg hgood), answer_of_fits _ _ (by decide)]
  rfl

/-- Arguments inside the ranges of rule R102 are not bad ones. -/
theorem not_badInitArgs {c : Config} {size : Word16} {sv : Bool} (hsv : sv = true) (hmin : 1 ≤ size.toNat)
    (hmax : size.toNat ≤ c.maxSize) : ¬ badInitArgs c size sv = true := by
  intro hbad
  obtain hsv' | hzero | hlarge := badInitArgs_iff.1 hbad
  · simp [hsv] at hsv'
  · omega
  · omega

end chInit

/-- Settles O33: not admitted, bad arguments of either unit, good arguments of both. -/
theorem chInitOutcome : Obligations.ChInitOutcome := by
  refine fun sizeIn svIn sizeOut svOut s => ⟨fun hno => ?_, fun hirq hch hin hout => ?_⟩
  · exact exec_chInit_turned_away fun ha => hno ((admitChannel_init_iff s).1 ha)
  have ha : admitChannel .init s = none := (admitChannel_init_iff s).2 ⟨hirq, hch, hin, hout⟩
  refine ⟨fun hbad => exec_chInit_badArgs ha ?_, fun hsvIn hminIn hmaxIn hsvOut hminOut hmaxOut => ?_⟩
  · simpa only [badInitArgs_iff, or_assoc] using hbad
  · exact exec_chInit_goodArgs ha (not_badInitArgs hsvIn hminIn hmaxIn) (not_badInitArgs hsvOut hminOut hmaxOut)

/-! ## The interrupt mask (rules R109, R110) -/

/-- A command that writes the one bit is always admitted. -/
theorem channelCommand_irq_sets (s : State) (b : Bool) :
    channelCommand .irq s (fun s => some ({ s with irqEn := b }, success 0)) =
      .next { s with irqEn := b, resp := some (okResponse 0) } := by
  rw [channelCommand_eq (admitChannel_irq s) rfl, answer_of_fits _ _ (by decide)]
  rfl

/-- Settles O42: admission of these two looks at nothing. -/
theorem irqCommandsWriteMask : Obligations.IrqCommandsWriteMask := fun s =>
  ⟨channelCommand_irq_sets s false, channelCommand_irq_sets s true⟩

/-! ## The transmit sink (rules R106, R107) -/

section sink
variable {len : Word16} {p : List Byte} {s : State}

theorem exec_chWrite (hch : s.chPhase = .ready) (hp : p.length = len.toNat) :
    exec (.chWrite len p) s = .next { s with txLog := s.txLog ++ p, resp := some (okResponse 0) } := by
  show execChWrite len p s = _
  rw [execChWrite, withPayload_eq hp]
  exact channelCommand_ordinary_succeeds (t := { s with txLog := s.txLog ++ p }) (v := 0) hch rfl (by decide)

/-- CH_WRITESTR, with the terminator that the parameter `TX_STR_NUL` asks for. -/
theorem exec_chWritestr (hch : s.chPhase = .ready) (hp : p.length = len.toNat) :
    exec (.chWritestr len p) s =
      .next { s with
        txLog := s.txLog ++ p ++ (if s.config.txStrNul then [0] else []), resp := some (okResponse 0) } := by
  show execChWritestr len p s = _
  rw [execChWritestr, withPayload_eq hp]
  exact channelCommand_ordinary_succeeds
    (t := { s with txLog := s.txLog ++ p ++ (if s.config.txStrNul then [0] else []) }) (v := 0) hch rfl (by decide)

end sink

/-- Settles O39. -/
theorem chWriteReachesSink : Obligations.ChWriteReachesSink := fun _ _ _ hp =>
  ⟨exec_channel_not_ready rfl (wf_of_payload rfl hp), fun hch => exec_chWrite hch hp⟩

/-- Settles O40: the two values of the parameter decide what follows the characters. -/
theorem chWritestrReachesSink : Obligations.ChWritestrReachesSink := by
  refine fun len p s hp => ⟨exec_channel_not_ready rfl (wf_of_payload rfl hp), fun hch => ?_⟩
  refine ⟨fun hnul => ?_, fun hnul => ?_⟩
  · rw [exec_chWritestr hch hp, hnul, if_pos rfl]
  · rw [exec_chWritestr hch hp, hnul, if_neg Bool.false_ne_true, List.append_nil]

/-! ## The bracket (rules R46, R103, R108, R112, R137) -/

section bracket
variable {s t : State} {body : State → Option (State × Reply)}

/-- A bracketed command that succeeds: what its body leaves, with the interrupt source enabled. -/
theorem channelCommand_bracketed_succeeds {v : Nat} (hch : s.chPhase = .ready)
    (hb : body { s with irqEn := false } = some (t, success v)) (hv : v < 65536) :
    channelCommand .ordinary s (fun s => bracketed s body) =
      .next { t with irqEn := true, resp := some (okResponse v) } :=
  channelCommand_ordinary_succeeds (t := { t with irqEn := true }) hch (bracketed_eq hb) hv

/-- Whatever the body does, the interrupt source is enabled behind the bracket. -/
theorem irqEn_of_channelCommand_bracketed {k : ChannelKind}
    (h : channelCommand k s (fun s => bracketed s body) = .next t) : t.irqEn = true := by
  obtain ⟨t', r, -, hb, rfl⟩ := channelCommand_next h
  obtain ⟨t'', r', -, hpair⟩ := bracketed_some hb
  cases hpair
  rw [answer_irqEn]

theorem exec_avail (hch : s.chPhase = .ready) (hlegal : s.inb.legal) :
    exec .avail s = .next { s with irqEn := true, resp := some (okResponse (written s.inb)) } := by
  obtain ⟨hfits, -, -⟩ := counts_fit hlegal
  exact channelCommand_bracketed_succeeds (t := { s with irqEn := false })
    (body := fun s => some (s, success (written s.inb))) hch rfl hfits

theorem exec_chClear (hch : s.chPhase = .ready) :
    exec .chClear s = .next { s with inb := cleared s.inb, irqEn := true, resp := some (okResponse 0) } :=
  channelCommand_bracketed_succeeds (t := { s with inb := cleared s.inb, irqEn := false })
    (body := fun s => some ({ s with inb := cleared s.inb }, success 0)) hch rfl (by decide)

end bracket

/-- Settles O50: the four commands are bracketed. -/
theorem bracketEndsEnabled : Obligations.BracketEndsEnabled := by
  rintro n s t (havail | hread | hreadall | hclear)
  · exact irqEn_of_channelCommand_bracketed (show execAvail s = .next t from havail)
  · exact irqEn_of_channelCommand_bracketed hread
  · exact irqEn_of_channelCommand_bracketed hreadall
  · exact irqEn_of_channelCommand_bracketed (show execChClear s = .next t from hclear)

/-- Settles O36. -/
theorem availCountsInbound : Obligations.AvailCountsInbound := fun _ =>
  ⟨exec_channel_not_ready rfl (wf_of_no_payload rfl), exec_avail⟩

/-- Settles O41. -/
theorem chClearEmptiesInbound : Obligations.ChClearEmptiesInbound := fun _ =>
  ⟨exec_channel_not_ready rfl (wf_of_no_payload rfl), exec_chClear⟩

/-! ## CH_READ and CH_READALL (rules R104, R105) -/

section move
variable {s : State}

theorem length_take_contents {F : Fifo} {c : Nat} (hc : c ≤ written F) : ((contents F).take c).length = c := by
  rw [List.length_take, contents_length, Nat.min_eq_left hc]

/-- Past all the bytes held the read cursor meets the write cursor. -/
theorem advanceRead_written {F : Fifo} (h : F.inRange) : advanceRead F (written F) = { F with R := F.W } := by
  obtain ⟨-, hR, hW, -⟩ := h
  rw [advanceRead, written, add_span hR hW]

theorem contents_drained {F : Fifo} (h : F.inRange) : contents { F with R := F.W } = [] := by
  rw [← advanceRead_written h]
  exact contents_eq_nil (inRange_advanceRead h _) (by rw [advanceRead_written h])

/-- Every byte that an unlocked unit holds is committed. -/
theorem committed_eq_contents {F : Fifo} (hL : F.L = none) : committed F = contents F := by
  rw [committed, readable_unlocked hL, contents]

/-- The transfer loop of at most `n` bytes in the bracket: what CH_READ and CH_READALL share. -/
theorem channelCommand_transfer (hch : s.chPhase = .ready) (hlegal : s.inb.legal) (hL : s.inb.L = none)
    (hout : s.outb.inRange) {n c : Nat} (hc : c = min n (readable s.inb)) {body : State → Option (State × Reply)}
    (hbody : body { s with irqEn := false } =
      (transfer s.inb s.outb n).map fun r => ({ s with inb := r.1, outb := r.2.1, irqEn := false }, success r.2.2)) :
    channelCommand .ordinary s (fun s => bracketed s body) =
      .next { s with
        inb := advanceRead s.inb c, outb := ((contents s.inb).take c).foldl pushed s.outb, irqEn := true
        resp := some (okResponse c) } := by
  obtain ⟨-, hfits, -⟩ := counts_fit hlegal
  obtain ⟨hin, -⟩ := hlegal
  rw [transfer_eq hin hL hout, ← hc, Option.map_some] at hbody
  exact channelCommand_bracketed_succeeds hch hbody (show c < 65536 by omega)

theorem exec_chRead (hch : s.chPhase = .ready) (hlegal : s.inb.legal) (hL : s.inb.L = none) (hout : s.outb.inRange)
    {n : Word16} {c : Nat} (hc : c = min n.toNat (readable s.inb)) :
    exec (.chRead n) s =
      .next { s with
        inb := advanceRead s.inb c, outb := ((contents s.inb).take c).foldl pushed s.outb, irqEn := true
        resp := some (okResponse c) } :=
  channelCommand_transfer hch hlegal hL hout hc rfl

theorem exec_chReadall (hch : s.chPhase = .ready) (hlegal : s.inb.legal) (hL : s.inb.L = none)
    (hout : s.outb.inRange) :
    exec .chReadall s =
      .next { s with
        inb := { s.inb with R := s.inb.W }, outb := (contents s.inb).foldl pushed s.outb, irqEn := true
        resp := some (okResponse (written s.inb)) } := by
  have hcount : written s.inb = min (readable s.inb) (readable s.inb) := by
    rw [Nat.min_self, readable_unlocked hL]
  have hall : (contents s.inb).take (written s.inb) = contents s.inb := by
    rw [← contents_length, List.take_length]
  obtain ⟨hin, -⟩ := id hlegal
  have hmove := channelCommand_transfer (body := fun s =>
    (transfer s.inb s.outb (readable s.inb)).map fun r => ({ s with inb := r.1, outb := r.2.1 }, success r.2.2))
    hch hlegal hL hout hcount rfl
  rw [hall, advanceRead_written hin] at hmove
  exact hmove

end move

/-- Settles O37: the transfer loop moves the read cursor of `IN` and is a run of pushes into `OUT`. -/
theorem chReadMovesBytes : Obligations.ChReadMovesBytes := by
  refine fun n s => ⟨exec_channel_not_ready rfl (wf_of_no_payload rfl), fun hch hlegal hL hout => ?_⟩
  obtain ⟨hin, -⟩ := id hlegal
  obtain ⟨c, hc⟩ : ∃ c, c = min n.toNat (readable s.inb) := ⟨_, rfl⟩
  have hheld : c ≤ written s.inb := by
    rw [hc, ← readable_unlocked hL]
    exact Nat.min_le_right ..
  refine ⟨c, advanceRead s.inb c, _, hc, rfl, pushAll_eq hout _, exec_chRead hch hlegal hL hout hc,
    contents_advanceRead hin hheld, contents_foldl_pushed hout _, slotByte_advanceRead s.inb c, fun a ha => ?_⟩
  exact slotByte_foldl_pushed_of_notMem hout (by rwa [length_take_contents hheld])

/-- Settles O38: as CH_READ, with every byte that `IN` holds. -/
theorem chReadallDrainsInbound : Obligations.ChReadallDrainsInbound := by
  refine fun s => ⟨exec_channel_not_ready rfl (wf_of_no_payload rfl), fun hch hlegal hL hout => ?_⟩
  obtain ⟨hin, -⟩ := id hlegal
  refine ⟨_, _, rfl, pushAll_eq hout _, exec_chReadall hch hlegal hL hout, contents_drained hin,
    contents_foldl_pushed hout _, fun a => rfl, fun a ha => ?_⟩
  exact slotByte_foldl_pushed_of_notMem hout (by rwa [contents_length])

/-! ## The producer port (rules R101, R111, R120, R123) -/

section producer
variable {s s' : State} {v : Byte}

theorem step_producer (h : nextTurn s = (.producer v, s')) : step s = producerRx v s' := by simp [step, h, takeTurn]

theorem producerRx_not_ready (h : s.chPhase ≠ .ready) : producerRx v s = .refused .notReady := by
  simp [producerRx, admitChannel_ordinary_not_ready h]

theorem producerRx_ready (h : s.chPhase = .ready) (hW : s.inb.W < s.inb.N) :
    producerRx v s = .next { s with inb := pushed s.inb v, resp := none } := by
  simp [producerRx, (admitChannel_ordinary_iff s).2 h, receive_eq hW, State.silent]

/-- The foreground's turn leaves the schedule alone. -/
theorem foregroundTurn_schedule {t : State} (h : foregroundTurn s = .next t) : t.schedule = s.schedule := by
  obtain ⟨i, rest, -, hexec⟩ | ⟨why, rest, -, rfl⟩ | ⟨-, rfl⟩ := foregroundTurn_next h
  · exact (exec_changes hexec).schedule
  · rw [answerIllegal, answer_schedule]
  · rfl

end producer

/-- Settles O35: whose turn it is, and then that agent's own turn. -/
theorem producerActsOnlyWhenEnabled : Obligations.ProducerActsOnlyWhenEnabled := by
  intro v ts s hsched
  refine ⟨fun hirq hch => ?_, fun hirq hch hrange => ?_, fun hirq => ?_⟩
  · rw [step_producer (nextTurn_producer_acts hsched hirq)]
    exact producerRx_not_ready hch
  · obtain ⟨-, -, hW, -⟩ := hrange
    refine ⟨pushed s.inb v, push_eq hW v, ?_⟩
    rw [step_producer (nextTurn_producer_acts hsched hirq)]
    exact producerRx_ready hch hW
  · have hturn := nextTurn_producer_waits hsched hirq
    refine ⟨hturn, step_foreground hturn, fun t ht => ?_⟩
    rw [step_foreground hturn] at ht
    rw [foregroundTurn_schedule ht, hsched]

/-! ## Received bytes on their way (rule R112) -/

/-- A run of RX commands is a run of pushes into `IN`; only the last response differs. -/
theorem execAll_rx_append {s : State} (hch : s.chPhase = .ready) (hrange : s.inb.inRange) (bs : List Byte)
    (is : List Instr) :
    ∃ r, execAll (bs.map .rx ++ is) s = execAll is { s with inb := bs.foldl pushed s.inb, resp := r } := by
  induction bs generalizing s with
  | nil => exact ⟨s.resp, rfl⟩
  | cons b bs ih =>
    obtain ⟨-, -, hW, -⟩ := id hrange
    obtain ⟨r, hr⟩ := ih (s := { s with inb := pushed s.inb b, resp := some (okResponse 0) }) hch
      (inRange_pushed hrange b)
    have hrx : exec (.rx b) s = _ := execRx_ready hch hW b
    refine ⟨r, ?_⟩
    rw [List.map_cons, List.cons_append, execAll_cons_of_next hrx, hr, List.foldl_cons]

/-- Settles O56: `IN` holds exactly the received bytes when CH_READALL moves all it holds. -/
theorem receivedBytesReachOutbound : Obligations.ReceivedBytesReachOutbound := by
  intro s bs hch hlegal hL hempty hout hLout hemptyOut hroom hroomOut
  obtain ⟨hin, hN⟩ := hlegal
  generalize hI : bs.foldl pushed s.inb = I
  have hreceived : contents I = bs := hI ▸ contents_foldl_pushed_empty hin hempty hroom
  have hdepth : written I = bs.length := by rw [← contents_length, hreceived]
  have hinI : I.inRange := hI ▸ foldl_pushed_inRange hin bs
  have hlegalI : I.legal := ⟨hinI, by rwa [← hI, foldl_pushed_N]⟩
  have hunlocked : I.L = none := hI ▸ foldl_pushed_unlocked hL bs
  have harrived : contents (bs.foldl pushed s.outb) = bs := contents_foldl_pushed_empty hout hemptyOut hroomOut
  obtain ⟨r, hrx⟩ := execAll_rx_append hch hin bs [.chReadall]
  have hmove := exec_chReadall (s := { s with inb := I, resp := r }) hch hlegalI hunlocked hout
  rw [hreceived] at hmove
  rw [hI, execAll_cons_of_next hmove, execAll] at hrx
  refine ⟨_, hrx, congrArg (some <| okResponse ·) hdepth, contents_drained hinI, harrived, ?_, rfl⟩
  exact (committed_eq_contents (foldl_pushed_unlocked hLout bs)).trans harrived

end Sys2Proof.Machine
end

section
/-! The family "failures" (60_exceptions.md): the last row of the table of rule R115, the commands that only succeed. -/

namespace Sys2Proof.Machine

open Sys2Proof

/-! ## Rules that only succeed (rules R115, R116) -/

/-- A command's own rule that, whatever it leaves behind, replies in class `NONE`. -/
abbrev RepliesOk {α : Type} (x : Option (α × Reply)) : Prop := Results (fun _ r => r.err = .none) x

/-- A step that answers `ok = 1` and `err = NONE` if it answers a next state at all. -/
def AnswersOk (c : StepResult) : Prop :=
  ∀ t, c = .next t → ∃ r, t.resp = some r ∧ r.ok = true ∧ r.err = .none

/-- The response port shows the class of the reply. -/
theorem answer_resp_ok (t : State) {reply : Reply} (h : reply.err = .none) :
    ∃ r, (t.answer reply).resp = some r ∧ r.ok = true ∧ r.err = .none := by
  obtain ⟨val, hresp⟩ := answer_resp t reply
  exact ⟨_, hresp, decide_eq_true h, h⟩

section shapes
variable {s : State}

theorem fifoCommand_answersOk {k : FifoKind} {u : UnitSel} {body : Fifo → Option (Fifo × Reply)}
    (hbody : RepliesOk (body (s.unit u))) : AnswersOk (fifoCommand k u s body) := by
  intro t h
  obtain ⟨F, reply, -, hreply, rfl⟩ := fifoCommand_next h
  exact answer_resp_ok _ (hbody F reply hreply)

theorem channelCommand_answersOk {k : ChannelKind} {body : State → Option (State × Reply)}
    (hbody : RepliesOk (body s)) : AnswersOk (channelCommand k s body) := by
  intro t h
  obtain ⟨t', reply, -, hreply, rfl⟩ := channelCommand_next h
  exact answer_resp_ok _ (hbody t' reply hreply)

theorem withPayload_answersOk {len : Word16} {p : List Byte} {c : StepResult} (h : AnswersOk c) :
    AnswersOk (withPayload len p c) := fun t ht =>
  have ⟨_, hc⟩ := withPayload_next ht
  h t hc

/-- The bracket hands on the reply of the rule inside it. -/
theorem bracketed_repliesOk {body : State → Option (State × Reply)}
    (h : RepliesOk (body { s with irqEn := false })) : RepliesOk (bracketed s body) := by
  intro t r hr
  obtain ⟨t', r', hb, e⟩ := bracketed_some hr
  cases e
  exact h t' r hb

end shapes

/-! ## The last row of the table of rule R115 -/

/-- Settles O48: the rule of each command of the row gives a success as its only reply, also when one of its pushes evicts;
the twelve commands of the other rows are not named. -/
theorem alwaysSafeCommandsSucceed : Obligations.AlwaysSafeCommandsSucceed := by
  intro i s t h hrow
  suffices hok : AnswersOk (exec i s) from hok t h
  unfold exec
  cases i with
  | clear | isempty | totalw | totalr | cap | islocked | lock | unlock | discard =>
    exact fifoCommand_answersOk (results_some rfl)
  | writeb => exact fifoCommand_answersOk (results_map fun _ => rfl)
  | write | writestr => exact withPayload_answersOk (fifoCommand_answersOk (results_map fun _ => rfl))
  | rx => exact channelCommand_answersOk (results_map fun _ => rfl)
  | avail | chClear => exact channelCommand_answersOk (bracketed_repliesOk (results_some rfl))
  | chRead | chReadall => exact channelCommand_answersOk (bracketed_repliesOk (results_map fun _ => rfl))
  | chWrite | chWritestr => exact withPayload_answersOk (channelCommand_answersOk (results_some rfl))
  | irqDis | irqEna => exact channelCommand_answersOk (results_some rfl)
  | init | read | readb | peekb | peekat | delete | deleteb | update | updateat | updateb | updatebat | chInit =>
    simp at hrow

end Sys2Proof.Machine
end

section
/-! The family "reset and hazards" (70_reset_and_hazards.md): what a hardware reset leaves, and that no other step leaves
the phases `READY` and `FAILED`. -/

namespace Sys2Proof.Machine

open Sys2Proof

/-! ## The phases `READY` and `FAILED` stay (rules R16, R27, R129) -/

/-- Each phase of the block that is `READY` or `FAILED` in `s` is the same in `t`. -/
def PhasesKept (s t : State) : Prop :=
  (∀ u, (s.unit u).phase ≠ .reset → (t.unit u).phase = (s.unit u).phase) ∧ (s.chPhase ≠ .reset → t.chPhase = s.chPhase)

section phases
variable {s t : State}

theorem phasesKept_refl (s : State) : PhasesKept s s := ⟨fun _ _ => rfl, fun _ => rfl⟩

theorem unit_withPorts (s : State) (cmdPort : List Byte) (schedule : List Turn) (u : UnitSel) :
    ({ s with cmdPort := cmdPort, schedule := schedule } : State).unit u = s.unit u := by
  cases u <;> rfl

theorem unit_silent (s : State) (u : UnitSel) : s.silent.unit u = s.unit u := by cases u <;> rfl

/-- What waits on the command port and in the schedule has no part in the phases. -/
theorem phasesKept_of_withPorts {cmdPort : List Byte} {schedule : List Turn}
    (h : PhasesKept { s with cmdPort := cmdPort, schedule := schedule } t) : PhasesKept s t := by
  simpa only [PhasesKept, unit_withPorts] using h

theorem phasesKept_answer (h : PhasesKept s t) (r : Reply) : PhasesKept s (t.answer r) := by
  simpa only [PhasesKept, answer_unit, answer_chPhase] using h

theorem phasesKept_silent (h : PhasesKept s t) : PhasesKept s t.silent := by
  simpa only [PhasesKept, unit_silent, silent_chPhase] using h

/-- A change of a unit keeps its phase; the channel's is kept unless the change may write it. -/
theorem phasesKept_of_changes {w : List Reg} (h : Changes w s t) (hw : s.chPhase ≠ .reset → .chPhase ∉ w) :
    PhasesKept s t :=
  ⟨fun u => unitChange_phase (h.units u), fun hch => changes_sameReg h (hw hch)⟩

/-- The row of the table of rule R28 that names `CH_PHASE`. -/
theorem chPhase_mem_mayWrite {i : Instr} (h : .chPhase ∈ mayWrite i) :
    ∃ sizeIn svIn sizeOut svOut, i = .chInit sizeIn svIn sizeOut svOut := by
  cases i with
  | chInit sizeIn svIn sizeOut svOut => exact ⟨sizeIn, svIn, sizeOut, svOut, rfl⟩
  | _ => simp [mayWrite, initRegs, pushRegs] at h

/-- CH_INIT, the one command that writes `CH_PHASE`, runs in phase `RESET` only. -/
theorem exec_phasesKept {i : Instr} (h : exec i s = .next t) : PhasesKept s t := by
  refine phasesKept_of_changes (exec_changes h) fun hch hw => ?_
  obtain ⟨sizeIn, svIn, sizeOut, svOut, rfl⟩ := chPhase_mem_mayWrite hw
  have hturned : admitChannel .init s ≠ none := fun ha =>
    have ⟨_, hreset, _⟩ := (admitChannel_init_iff s).1 ha
    hch hreset
  obtain ⟨r, hr⟩ := exec_chInit_turned_away hturned
  cases hr.symm.trans h

theorem foregroundTurn_phasesKept (h : foregroundTurn s = .next t) : PhasesKept s t := by
  obtain ⟨i, rest, -, hexec⟩ | ⟨why, rest, -, rfl⟩ | ⟨-, rfl⟩ := foregroundTurn_next h
  · exact phasesKept_of_withPorts (exec_phasesKept hexec)
  · exact phasesKept_of_withPorts (phasesKept_answer (phasesKept_refl _) _)
  · exact phasesKept_silent (phasesKept_refl s)

theorem producerRx_phasesKept {v : Byte} (h : producerRx v s = .next t) : PhasesKept s t := by
  obtain ⟨hch, hW, rfl⟩ := producerRx_next h
  have hpush := changes_receive (List.Subset.refl _) hch (receive_eq hW v)
  exact phasesKept_silent (phasesKept_of_changes hpush fun _ => by simp [pushRegs])

theorem phasesKept_of_nextTurn (h : PhasesKept (nextTurn s).2 t) : PhasesKept s t := by
  obtain ⟨ts, hts⟩ := nextTurn_state s
  rw [hts] at h
  exact phasesKept_of_withPorts h

/-- The turn is a hardware reset only where the schedule says so. -/
theorem schedule_of_nextTurn_reset {s' : State} (h : nextTurn s = (.reset, s')) : ∃ ts, s.schedule = .reset :: ts := by
  obtain ⟨-, h'⟩ | ⟨ts, -, h'⟩ | ⟨ts, hs, -⟩ | ⟨v, ts, -, -, h'⟩ | ⟨v, ts, -, -, h'⟩ := nextTurn_cases s
  case inr.inr.inl => exact ⟨ts, hs⟩
  all_goals cases h.symm.trans h'

/-- The foreground and the producer, one turn each, keep the phases. -/
theorem step_phasesKept (hreset : ∀ ts, s.schedule ≠ .reset :: ts) (h : step s = .next t) : PhasesKept s t := by
  apply phasesKept_of_nextTurn
  obtain ⟨s', ⟨hturn, hfg⟩ | ⟨v, hturn, hrx⟩ | ⟨hturn, -⟩⟩ := step_next h
  · rw [hturn]
    exact foregroundTurn_phasesKept hfg
  · rw [hturn]
    exact producerRx_phasesKept hrx
  · obtain ⟨ts, hsched⟩ := schedule_of_nextTurn_reset hturn
    exact absurd hsched (hreset ts)

end phases

/-! ## Hardware reset (rules R33, R129) -/

theorem step_reset {s : State} {ts : List Turn} (h : s.schedule = .reset :: ts) :
    step s = .next (hardwareReset { s with schedule := ts }) := by
  rw [step, nextTurn_reset h, takeTurn]

/-- Settles O12: the values are those `hardwareReset` writes; any other step is one agent's turn, which keeps the phases. -/
theorem hardwareResetValues : Obligations.HardwareResetValues :=
  ⟨fun _ _ h => ⟨_, step_reset h, rfl, rfl, rfl, rfl, rfl, rfl⟩, ⟨rfl, rfl, rfl, rfl, rfl⟩,
    fun _ _ => step_phasesKept⟩

end Sys2Proof.Machine
end
